-- ==== Sys2Proof/Word.lean ====
section
/-!
DEFINITION. The plain value types of LCE: the command word, a bit, a ternary signal level, a sample value, and
an element-indexed buffer. Sources: 00_scope.md R9, R10; 10_state.md R21 to R23; 20_memory.md R60.
-/

namespace Sys2Proof

/-- A command: one 16-bit word written to `CMD` (30_encoding.md R80). -/
abbrev Word := BitVec 16

/-- `Bit` is `{0, 1}` (R9): `false` is 0 and `true` is 1. -/
abbrev Bit := Bool

/-- The one-bit code of a bit at a port. -/
def Bit.code (b : Bit) : BitVec 1 := BitVec.ofBool b

/-- `Level` is `{-1, 0, +1}` (R9). It has three values and no fourth (93_implementation_defined.md U6). -/
inductive Level where
  /-- level -1, "negative voltage" -/
  | neg
  /-- level 0, "no transition/zero" -/
  | zero
  /-- level +1, "positive voltage" -/
  | pos
deriving DecidableEq, Repr

/-- Negation of a level (R11): `-(+1) = -1`, `-(-1) = +1`, `-(0) = 0`. -/
def Level.negate : Level → Level
  | .neg  => .pos
  | .zero => .zero
  | .pos  => .neg

/-- The 2-bit two's-complement code of a level (R23): 0 is `00`, +1 is `01`, -1 is `11`. -/
def Level.code : Level → BitVec 2
  | .neg  => 0b11#2
  | .zero => 0b00#2
  | .pos  => 0b01#2

/-- The level as an integer, for statements that add or count levels. -/
def Level.toInt : Level → Int
  | .neg  => -1
  | .zero => 0
  | .pos  => 1

/-- A symbol of the palindrome detector's interleaved sequence (43_analyzers.md R183): a bit, or a symbol that is
neither bit 0 nor bit 1, of which there is one for each number. -/
inductive Symbol where
  | bit (b : Bit)
  | other (number : Nat)
deriving DecidableEq, Repr

/-- The value of a sample is a rational number (R9, R22). -/
abbrev Sample := Rat

/-- A buffer (R60): its elements by element index, as a list of (index, element) pairs with indexes strictly
rising. An index that is not listed holds NO VALUE (R42 (a), R43: "no value (unspecified)"). -/
abbrev Buffer (α : Type) := List (Nat × α)

end Sys2Proof
end

