-- ==== Sys2Proof/Config.lean ====
section
/-!
DEFINITION. The implementation parameters of 00_scope.md R7, and the free values: the values the spec leaves open
("any value", 93_implementation_defined.md U7 and U9), as constants with no body.
-/

namespace Sys2Proof

/-- `NUMERICS` (R7, R101): exact rational arithmetic, or IEEE binary64. -/
inductive Numerics where
  | exact
  | binary64
deriving DecidableEq, Repr

/-- `SAMPLE_FORMAT` (R7, R22): what `SAMP_PUSH` and a read of `SAMP` carry. -/
inductive SampleFormat where
  | binary64
  | rational
deriving DecidableEq, Repr

/-- A host-visible name (20_memory.md R60, R62 to R64): the three buffers, the two push ports and the registers. -/
inductive HostName where
  | bits
  | samp
  | sig
  | bitsPush
  | sampPush
  | nbits
  | nsamp
  | nsig
  | cmd
  | status
  | flags
  | palStart
  | palLen
  | zrStart
  | zrCount
deriving DecidableEq, Repr

/-- Every host-visible name, once. -/
def HostName.all : List HostName :=
  [.bits, .samp, .sig, .bitsPush, .sampPush, .nbits, .nsamp, .nsig, .cmd, .status, .flags, .palStart, .palLen,
    .zrStart, .zrCount]

/-- A map from host-visible names to bus addresses (R7), as the list of its pairs in the order of `HostName.all`. -/
abbrev AddrMap := List (HostName × Nat)

/-- The map is total and injective (R7). -/
abbrev AddrMap.wf (m : AddrMap) : Prop := m.map Prod.fst = HostName.all ∧ (m.map Prod.snd).Nodup

/-- The parameters a model of LCE takes as arguments (R7). A state carries its own, and no step changes them (log
entry 17), so a statement about every state is a statement about every implementation. `IDXW` is derived
(`Params.idxw`). -/
structure Params where
  /-- `MAX_LEN`, at least 1, OPEN -/
  maxLen : Nat
  /-- `BPS_MAX`, 1 to 255, default 16 -/
  bpsMax : Nat
  /-- `NUMERICS`, default `EXACT` -/
  numerics : Numerics
  /-- `SAMPLE_FORMAT`, default `BINARY64` -/
  sampleFormat : SampleFormat
  /-- `SEP`, OPEN: which of the symbols that are no bit; every value names one (`Symbol.other`, log entry 4) -/
  sep : Nat
  /-- `ADDR_MAP`, OPEN; no rule reads it (R70, log entry 5) -/
  addrMap : AddrMap
deriving DecidableEq, Repr

/-- The range R7 gives each parameter. -/
abbrev Params.wf (p : Params) : Prop := 1 ≤ p.maxLen ∧ 1 ≤ p.bpsMax ∧ p.bpsMax ≤ 255 ∧ p.addrMap.wf

/-- `IDXW`: the least `w` with `2^w > 2*MAX_LEN` (R7). -/
def Params.idxw (p : Params) : Nat := Nat.log2 (2 * p.maxLen) + 1

/-- Capacity of `SIG` (R23): `2*MAX_LEN` elements. -/
def Params.sigCap (p : Params) : Nat := 2 * p.maxLen

/-- The parameters of the model's reset state: R7's defaults, and for the OPEN ones `MAX_LEN` 256, the separator
numbered 0, and the addresses from 0 up (DESIGN CHOICE, log entries 1, 4 and 5; every statement is made for every
`Params`). -/
def Params.default : Params :=
  { maxLen := 256, bpsMax := 16, numerics := .exact, sampleFormat := .binary64, sep := 0
    addrMap := HostName.all.zipIdx }

/-! Free values. Each is applied to the counter `State.freeCtr`, which every use advances, so two reads need not
give the same value. Nothing in Lean can evaluate them. -/

/-- What a read of `BITS` beyond the sequence returns (R61, U7). -/
opaque Config.anyBit : Nat → Bit
/-- What a read of `SIG` beyond the sequence returns: any value of 2 bits (R61, U7; `0b10` included, U6). -/
opaque Config.anyLevelCode : Nat → BitVec 2
/-- What a read of `SAMP` beyond the sequence returns under `SAMPLE_FORMAT = BINARY64` (R61, U7). -/
opaque Config.anySamplePattern : Nat → BitVec 64
/-- What a read of `SAMP` beyond the sequence returns under `SAMPLE_FORMAT = RATIONAL` (R61, U7). -/
opaque Config.anySample : Nat → Sample
/-- The sign bit of the zero pattern a read of a stored 0 returns (R64: "the sign of zero returned is not specified"). -/
opaque Config.anyZeroSign : Nat → BitVec 1
/-- What a read of `CMD` returns (R35, U7). -/
opaque Config.anyCommandWord : Nat → Word
/-- The `BINARY64` level index (R101, U9) for a minimum, a maximum and a number of levels: any order-preserving function
from samples to `0 .. levels-1`, with no other property; `none` stands for the one that is 0 everywhere. -/
opaque Config.binary64Index (min max : Sample) (levels : Nat) : Option (Sample →o Fin levels)

end Sys2Proof
end

