-- ==== Sys2Proof/Syntax.lean ====
section
/-!
DEFINITION. The fifteen commands of 30_encoding.md R84, one constructor per row of spec/opcode_table.json, and the
enumerations they select from (R83).
-/

namespace Sys2Proof

/-- The five line-coding schemes (R3, R83). There is no RZ scheme (90_conflicts.md C1). -/
inductive Scheme where
  | nrzL
  | nrzI
  | manchester
  | diffManchester
  | ami
deriving DecidableEq, Repr

/-- ScrambleKind (R83): `None`, `B8ZS`, `HDB3`. -/
inductive ScrambleKind where
  | none
  | b8zs
  | hdb3
deriving DecidableEq, Repr

/-- A command (R84). Only `QPCM` carries an operand, the 8-bit immediate `bps` (R82). -/
inductive Instr where
  /-- NOP, 0x0000 (R200) -/
  | nop
  /-- CLRB, 0x0100 (R201) -/
  | clrb
  /-- CLRS, 0x0200 (R202) -/
  | clrs
  /-- QPCM bps, 0x10 in the high byte and `bps` in the low byte (R102) -/
  | qpcm (bps : BitVec 8)
  /-- QDM, 0x1100 (R106) -/
  | qdm
  /-- ENL, 0x2000 (R128) -/
  | enl
  /-- ENI, 0x2100 (R129) -/
  | eni
  /-- EMAN, 0x2200 (R130) -/
  | eman
  /-- EDMAN, 0x2300 (R131) -/
  | edman
  /-- EAMI, 0x2400 (R132) -/
  | eami
  /-- SNONE, 0x3000 (R152) -/
  | snone
  /-- SB8ZS, 0x3100 (R153) -/
  | sb8zs
  /-- SHDB3, 0x3200 (R157) -/
  | shdb3
  /-- APAL, 0x4000 (R181) -/
  | apal
  /-- AZRUN, 0x4100 (R187) -/
  | azrun
deriving DecidableEq, Repr

end Sys2Proof
end

