-- ==== Sys2Proof/WellFormed.lean ====
section
/-!
DEFINITION. Which commands are legal selections. Every command but `QPCM` always is; `QPCM bps` is when `bps` is in
`1 .. BPS_MAX` (30_encoding.md R82, 40_quantizers.md R102). An illegal `QPCM` still decodes (R85): it is the command
itself that raises InvalidSelection.
-/

namespace Sys2Proof

/-- `bps` is legal: 1 to `BPS_MAX` (R82). -/
def legalBps (p : Params) (bps : Nat) : Bool := decide (1 ≤ bps) && decide (bps ≤ p.bpsMax)

/-- A command is a legal selection for the parameters `p` (R82, R85). -/
def Instr.wf (p : Params) : Instr → Bool
  | .nop => true
  | .clrb => true
  | .clrs => true
  | .qpcm bps => legalBps p bps.toNat
  | .qdm => true
  | .enl => true
  | .eni => true
  | .eman => true
  | .edman => true
  | .eami => true
  | .snone => true
  | .sb8zs => true
  | .shdb3 => true
  | .apal => true
  | .azrun => true

end Sys2Proof
end

