-- ==== Sys2Proof/Decode.lean ====
section
/-!
DEFINITION. The decoder and the encoder of 30_encoding.md, format C: `GRP` in bits 15:12, `SEL` in bits 11:8, `IMM8`
in bits 7:0 (R81), with the opcode map of R84. The decoder is total on 16-bit words and reads nothing but the word
(R87); a word it answers `none` for is reserved (R85).
-/

namespace Sys2Proof

/-- `GRP`, bits 15:12 (R81). -/
def Word.grp (w : Word) : BitVec 4 := w.extractLsb' 12 4

/-- `SEL`, bits 11:8 (R81). -/
def Word.sel (w : Word) : BitVec 4 := w.extractLsb' 8 4

/-- `IMM8`, bits 7:0 (R81). -/
def Word.imm8 (w : Word) : BitVec 8 := w.extractLsb' 0 8

/-- A word from its three fields (R81). -/
def Word.ofFields (grp sel : BitVec 4) (imm8 : BitVec 8) : Word := (grp ++ sel ++ imm8 : BitVec 16)

/-- The commands that take no operand, by group and selection (R84). -/
def decodePlain (grp sel : BitVec 4) : Option Instr :=
  match grp.toNat, sel.toNat with
  | 0, 0 => some .nop
  | 0, 1 => some .clrb
  | 0, 2 => some .clrs
  | 1, 1 => some .qdm
  | 2, 0 => some .enl
  | 2, 1 => some .eni
  | 2, 2 => some .eman
  | 2, 3 => some .edman
  | 2, 4 => some .eami
  | 3, 0 => some .snone
  | 3, 1 => some .sb8zs
  | 3, 2 => some .shdb3
  | 4, 0 => some .apal
  | 4, 1 => some .azrun
  | _, _ => none

/-- Decoding (R84, R85, R87): `QPCM` takes any `IMM8`; every other command needs `IMM8 = 0`; `none` is a reserved
word. -/
def decode (w : Word) : Option Instr :=
  if w.grp = 1 ∧ w.sel = 0 then some (.qpcm w.imm8)
  else if w.imm8 = 0 then decodePlain w.grp w.sel
  else none

/-- The word of a command (R84's columns `GRP`, `SEL`, `IMM8`). -/
def encode : Instr → Word
  | .nop => Word.ofFields 0 0 0
  | .clrb => Word.ofFields 0 1 0
  | .clrs => Word.ofFields 0 2 0
  | .qpcm bps => Word.ofFields 1 0 bps
  | .qdm => Word.ofFields 1 1 0
  | .enl => Word.ofFields 2 0 0
  | .eni => Word.ofFields 2 1 0
  | .eman => Word.ofFields 2 2 0
  | .edman => Word.ofFields 2 3 0
  | .eami => Word.ofFields 2 4 0
  | .snone => Word.ofFields 3 0 0
  | .sb8zs => Word.ofFields 3 1 0
  | .shdb3 => Word.ofFields 3 2 0
  | .apal => Word.ofFields 4 0 0
  | .azrun => Word.ofFields 4 1 0

/-- R84's `match` and `mask` of a command's row, kept beside the decoder as the table's own form of it. -/
def rowMatchMask : Instr → Word × Word
  | .nop => (0x0000#16, 0xFFFF#16)
  | .clrb => (0x0100#16, 0xFFFF#16)
  | .clrs => (0x0200#16, 0xFFFF#16)
  | .qpcm _ => (0x1000#16, 0xFF00#16)
  | .qdm => (0x1100#16, 0xFFFF#16)
  | .enl => (0x2000#16, 0xFFFF#16)
  | .eni => (0x2100#16, 0xFFFF#16)
  | .eman => (0x2200#16, 0xFFFF#16)
  | .edman => (0x2300#16, 0xFFFF#16)
  | .eami => (0x2400#16, 0xFFFF#16)
  | .snone => (0x3000#16, 0xFFFF#16)
  | .sb8zs => (0x3100#16, 0xFFFF#16)
  | .shdb3 => (0x3200#16, 0xFFFF#16)
  | .apal => (0x4000#16, 0xFFFF#16)
  | .azrun => (0x4100#16, 0xFFFF#16)

/-- R84's test: a word is the command of a row when `(w AND mask) = match`. -/
def matchesRow (i : Instr) (w : Word) : Prop := w &&& (rowMatchMask i).2 = (rowMatchMask i).1

/-- The command the decoder reads from a table row's word of `nbits` bits; the bits above `nbits` are 0. A command is
one 16-bit word (R80), so a word that needs more bits is none. -/
def decodeTableWord (nbits w : Nat) : Option Instr :=
  if w % 2 ^ nbits < 2 ^ 16 then decode (BitVec.ofNat 16 (w % 2 ^ nbits)) else none

end Sys2Proof
end

