-- ==== Sys2Proof/Machine/State.lean ====
section
/-!
DEFINITION. The machine's state as plain data: every piece of state of 10_state.md, the parameters it runs with, and
the model's own three fields (the host's pending accesses, the data of the last host read, and the counter of free
values). Reset values: R43.
-/

namespace Sys2Proof.Machine

open Sys2Proof

/-- The fault codes recorded in `STATUS.ERRCODE` (60_exceptions.md R211). -/
inductive ErrCode where
  /-- 1, InvalidSelection -/
  | invalidSelection
  /-- 2, CapacityExceeded -/
  | capacityExceeded
  /-- 3, PreconditionViolated -/
  | preconditionViolated
deriving DecidableEq, Repr

/-- What `SAMP_PUSH` carries (20_memory.md R63): a 64-bit pattern, or with `SAMPLE_FORMAT = RATIONAL` one rational. -/
inductive SampleWord where
  | binary64 (w : BitVec 64)
  | rational (q : Sample)
deriving DecidableEq, Repr

/-- What a host read names (R61, R64, R35): a buffer and an element index, or a register. -/
inductive ReadTarget where
  | bits (i : Nat)
  | samp (i : Nat)
  | sig (i : Nat)
  | nbits
  | nsamp
  | nsig
  | cmd
  | status
  | flags
  | palStart
  | palLen
  | zrStart
  | zrCount
deriving DecidableEq, Repr

/-- What a host read returns, each in its own width (R60, R64). -/
inductive ReadValue where
  /-- an element of `BITS`, 1 bit -/
  | bit (b : Bit)
  /-- an element of `SIG`, its 2-bit code (R23) -/
  | level (code : BitVec 2)
  /-- an element of `SAMP` under `SAMPLE_FORMAT = BINARY64` -/
  | pattern (w : BitVec 64)
  /-- an element of `SAMP` under `SAMPLE_FORMAT = RATIONAL` -/
  | rational (q : Sample)
  /-- a length or result register, `IDXW` bits unsigned -/
  | count (n : Nat)
  /-- `STATUS` -/
  | status (v : BitVec 8)
  /-- `FLAGS` -/
  | flags (v : BitVec 16)
  /-- `CMD`: any value (R35) -/
  | command (w : Word)
deriving DecidableEq, Repr

/-- One access of the host (R62 to R65, R91, 70_reset_and_hazards.md R240): LCE has no other input. -/
inductive HostAccess where
  /-- a write of a word to `CMD` -/
  | cmd (w : Word)
  /-- a write to `BITS_PUSH` -/
  | bitsPush (b : Bit)
  /-- a write to `SAMP_PUSH` -/
  | sampPush (v : SampleWord)
  /-- a read -/
  | read (t : ReadTarget)
  /-- the reset input, applied between accesses -/
  | reset
deriving DecidableEq, Repr

/-- Why the MODEL stops with a fault. LCE's own faults are no stops: they are next states with `STATUS.FAULT` set
(R214). -/
inductive Fault where
  /-- An operation, a push or a read touched a buffer element that does not exist: an index at or above the buffer's
  capacity (R60), or an element below the length register that holds no value (R42 (a)). Raised by the reads and
  writes of Machine/Ops.lean. No state with the invariants of R24 and R42 reaches it. Safe (log entry 12). -/
  | invalidElement
deriving DecidableEq, Repr

/-- Why the model has no meaning for a host access. -/
inductive Refusal where
  /-- A command whose meaning is not in the model yet. Raised by `exec` only. Safe. -/
  | notModelled (mnemonic : String)
  /-- A `SAMP_PUSH` in the format the port of this implementation does not carry (a rational under
  `SAMPLE_FORMAT = BINARY64`, a pattern under `RATIONAL`): the case "cannot be expressed" (R63,
  93_implementation_defined.md U8). Raised by `sampPush`, by no command. Safe (log entry 13). -/
  | portFormat
deriving DecidableEq, Repr

/-- The state. -/
structure State where
  /-- the implementation's parameters (00_scope.md R7); no step changes them (log entry 17) -/
  params : Params
  /-- `BITS` (R21) -/
  bits : Buffer Bit
  /-- `NBITS` (R24) -/
  nbits : Nat
  /-- `SAMP` (R22) -/
  samp : Buffer Sample
  /-- `NSAMP` (R24) -/
  nsamp : Nat
  /-- `SIG` (R23) -/
  sig : Buffer Level
  /-- `NSIG` (R24) -/
  nsig : Nat
  /-- `STATUS`, layout R36 -/
  status : BitVec 8
  /-- `FLAGS`, layout R37 -/
  flags : BitVec 16
  /-- `PAL_START` (R38) -/
  palStart : Nat
  /-- `PAL_LEN` (R38) -/
  palLen : Nat
  /-- `ZR_START` (R39) -/
  zrStart : Nat
  /-- `ZR_COUNT` (R39) -/
  zrCount : Nat
  /-- `RUNVAR`, one register with the aliases `LEVEL` and `POLARITY` (R26, R45) -/
  runvar : Level
  /-- `IDX` (R27) -/
  idx : Nat
  /-- `ZC` (R28) -/
  zc : Nat
  /-- `OC` (R29) -/
  oc : Nat
  /-- `SUBPOL` (R30) -/
  subpol : Level
  /-- `PRED` (R31) -/
  pred : Sample
  /-- `QMIN` (R32) -/
  qmin : Sample
  /-- `QMAX` (R32) -/
  qmax : Sample
  /-- `P[0 .. 2*MAX_LEN]` (R33), a register array of fixed length, index 0 first -/
  radius : List Nat
  /-- `CEN` (R33) -/
  cen : Nat
  /-- `RGT` (R33) -/
  rgt : Nat
  /-- `CURSTART` (R34) -/
  curStart : Nat
  /-- `CURLEN` (R34) -/
  curLen : Nat
  /-- MODEL: the accesses the host has issued that have not taken effect, in issue order (R71, R74; log entry 6) -/
  pending : List HostAccess
  /-- MODEL: the data of the host's last read, `none` before the first (R64; log entry 7) -/
  readData : Option ReadValue
  /-- MODEL: how many free values have been used (log entry 7) -/
  freeCtr : Nat
deriving DecidableEq, Repr

/-- The state after reset for the parameters `p` (R43). Buffers: nothing listed, no element holds a value. `QMIN`,
`QMAX` and the entries of `P` have no value in R43; here they are 0 (DESIGN CHOICE, log entry 2). -/
def State.resetWith (p : Params) : State :=
  { params := p
    bits := [], nbits := 0, samp := [], nsamp := 0, sig := [], nsig := 0
    status := 0x00#8, flags := 0x0007#16
    palStart := 0, palLen := 0, zrStart := 0, zrCount := 0
    runvar := .neg, idx := 0, zc := 0, oc := 0, subpol := .pos
    pred := 0, qmin := 0, qmax := 0
    radius := List.replicate (2 * p.maxLen + 1) 0, cen := 0, rgt := 0, curStart := 0, curLen := 0
    pending := [], readData := none, freeCtr := 0 }

/-- The machine right after reset, with the parameters of `Params.default`. -/
def State.reset : State := State.resetWith Params.default

/-- What a step, a command or a host access answers. -/
abbrev Result := Host.Outcome State Fault Refusal

end Sys2Proof.Machine
end

