-- ==== Sys2Proof/Machine/Flags.lean ====
section
/-!
DEFINITION. The fields of `STATUS` (10_state.md R36) and `FLAGS` (R37): each register's layout in one place, and
every flag update a command makes (R37's "written by" column). LCE has no arithmetic condition codes (R40).
-/

namespace Sys2Proof.Machine

open Sys2Proof

/-- The code of a fault in `ERRCODE` (60_exceptions.md R211). -/
def ErrCode.code : ErrCode → BitVec 2
  | .invalidSelection => 1#2
  | .capacityExceeded => 2#2
  | .preconditionViolated => 3#2

/-- `STATUS` from its fields (R36): `BUSY` bit 0, `FAULT` bit 1, `ERRCODE` bits 3:2, reserved bits 7:4. -/
def statusPack (busy fault : Bool) (errcode : BitVec 2) (reserved : BitVec 4) : BitVec 8 :=
  (reserved ++ errcode ++ BitVec.ofBool fault ++ BitVec.ofBool busy : BitVec 8)

/-- `STATUS.BUSY`. -/
def statusBusy (v : BitVec 8) : Bool := v.getLsbD 0
/-- `STATUS.FAULT`. -/
def statusFault (v : BitVec 8) : Bool := v.getLsbD 1
/-- `STATUS.ERRCODE`. -/
def statusErrcode (v : BitVec 8) : BitVec 2 := v.extractLsb' 2 2
/-- `STATUS` bits 7:4. -/
def statusReserved (v : BitVec 8) : BitVec 4 := v.extractLsb' 4 4

/-- The fault-entry write of `STATUS` (60_exceptions.md R214): `FAULT <- 1`, `ERRCODE <- code`. -/
def statusAfterFault (code : ErrCode) (v : BitVec 8) : BitVec 8 :=
  statusPack (statusBusy v) true code.code (statusReserved v)

/-- `FLAGS` from its fields (R37): `SIG_SCHEME` bits 2:0, `SIG_SCR` bits 4:3, `DOUBLE` bit 5, `PAL_VALID` bit 6,
`ZR_VALID` bit 7, reserved bits 15:8, which no command writes. -/
def flagsPack (scheme : BitVec 3) (scr : BitVec 2) (double pal zr : Bool) (reserved : BitVec 8) : BitVec 16 :=
  (reserved ++ BitVec.ofBool zr ++ BitVec.ofBool pal ++ BitVec.ofBool double ++ scr ++ scheme : BitVec 16)

/-- `FLAGS.SIG_SCHEME`. -/
def flagsScheme (f : BitVec 16) : BitVec 3 := f.extractLsb' 0 3
/-- `FLAGS.SIG_SCR`. -/
def flagsScr (f : BitVec 16) : BitVec 2 := f.extractLsb' 3 2
/-- `FLAGS.DOUBLE`. -/
def flagsDouble (f : BitVec 16) : Bool := f.getLsbD 5
/-- `FLAGS.PAL_VALID`. -/
def flagsPalValid (f : BitVec 16) : Bool := f.getLsbD 6
/-- `FLAGS.ZR_VALID`. -/
def flagsZrValid (f : BitVec 16) : Bool := f.getLsbD 7
/-- `FLAGS` bits 15:8. -/
def flagsReserved (f : BitVec 16) : BitVec 8 := f.extractLsb' 8 8

/-- The Scheme code (30_encoding.md R83), the value of `SIG_SCHEME`. -/
def schemeCode : Scheme → BitVec 3
  | .nrzL => 0#3
  | .nrzI => 1#3
  | .manchester => 2#3
  | .diffManchester => 3#3
  | .ami => 4#3

/-- `SIG_SCHEME` when no encoder has run since reset (R37). -/
def schemeNone : BitVec 3 := 7#3

/-- The ScrambleKind code (R83), the value of `SIG_SCR`. -/
def scrambleCode : ScrambleKind → BitVec 2
  | .none => 0#2
  | .b8zs => 1#2
  | .hdb3 => 2#2

/-- A scheme's output-length multiplier (00_scope.md R8, R15): 2 for the two Manchester schemes, else 1. -/
def schemeMultiplier : Scheme → Nat
  | .nrzL => 1
  | .nrzI => 1
  | .manchester => 2
  | .diffManchester => 2
  | .ami => 1

/-- The flag writes of an encoder command (41_line_encoder.md R120); `PAL_VALID` is kept. -/
def flagsAfterEncode (c : Scheme) (f : BitVec 16) : BitVec 16 :=
  flagsPack (schemeCode c) (scrambleCode .none) (decide (schemeMultiplier c = 2)) (flagsPalValid f) false
    (flagsReserved f)

/-- The flag writes of a scrambler pass (42_scramblers.md R161): `SIG_SCR`, and `ZR_VALID <- 0`. -/
def flagsAfterScramble (k : ScrambleKind) (f : BitVec 16) : BitVec 16 :=
  flagsPack (flagsScheme f) (scrambleCode k) (flagsDouble f) (flagsPalValid f) false
    (flagsReserved f)

/-- `FLAGS.PAL_VALID <- v`: 1 by APAL; 0 by `BITS_PUSH`, CLRB, QPCM and QDM (R37). -/
def flagsSetPalValid (v : Bool) (f : BitVec 16) : BitVec 16 :=
  flagsPack (flagsScheme f) (flagsScr f) (flagsDouble f) v (flagsZrValid f) (flagsReserved f)

/-- `FLAGS.ZR_VALID <- v`: 1 by AZRUN (R37). -/
def flagsSetZrValid (v : Bool) (f : BitVec 16) : BitVec 16 :=
  flagsPack (flagsScheme f) (flagsScr f) (flagsDouble f) (flagsPalValid f) v (flagsReserved f)

end Sys2Proof.Machine
end

