-- ==== Sys2Proof/Machine/Ops.lean ====
section
/-!
DEFINITION. The named operations over buffers and registers that the commands share: reading and writing elements
(20_memory.md), raising a fault and the one way out of it (60_exceptions.md), and the gate every write passes.
-/

namespace Sys2Proof.Machine

open Sys2Proof

/-! ## Buffers -/

/-- `MemRead(B, i)` (00_scope.md R11): the element at index `i`; `none` where no value is held. -/
def bufRead {α : Type} : Buffer α → Nat → Option α
  | [], _ => none
  | (j, v) :: m, i => if i = j then some v else bufRead m i

/-- `MemWrite(B, i, v)` (R11): the listing stays strictly rising. -/
def bufWrite {α : Type} : Buffer α → Nat → α → Buffer α
  | [], i, v => [(i, v)]
  | (j, u) :: m, i, v =>
    if i < j then (i, v) :: (j, u) :: m
    else if i = j then (i, v) :: m
    else (j, u) :: bufWrite m i v

/-- The `n` elements from index `i` up, if every one holds a value. -/
def bufReadFrom {α : Type} (m : Buffer α) : Nat → Nat → Option (List α)
  | _, 0 => some []
  | i, n + 1 =>
    match bufRead m i, bufReadFrom m (i + 1) n with
    | some v, some vs => some (v :: vs)
    | _, _ => none

/-- Writing elements in ascending order from index `i` up. -/
def bufWriteFrom {α : Type} : Buffer α → Nat → List α → Buffer α
  | m, _, [] => m
  | m, i, v :: vs => bufWriteFrom (bufWrite m i v) (i + 1) vs

/-- The sequence `B[0 .. n)` of a buffer of capacity `cap` (R60, R61); `none` if it runs past the capacity or an
element of it holds no value. -/
def bufReadSeq {α : Type} (cap n : Nat) (m : Buffer α) : Option (List α) :=
  if n ≤ cap then bufReadFrom m 0 n else none

/-- Writing `B[0 .. vs.length)` in a buffer of capacity `cap`; `none` if it runs past the capacity. -/
def bufWriteSeq {α : Type} (cap : Nat) (vs : List α) (m : Buffer α) : Option (Buffer α) :=
  if vs.length ≤ cap then some (bufWriteFrom m 0 vs) else none

/-- Writing one element in a buffer of capacity `cap`; `none` if the index is not one of the buffer's. -/
def bufWriteAt {α : Type} (cap i : Nat) (v : α) (m : Buffer α) : Option (Buffer α) :=
  if i < cap then some (bufWrite m i v) else none

/-- The canonical form of a buffer of capacity `cap`: indexes strictly rising, and below the capacity (R60; log entry 3). -/
abbrev bufWf {α : Type} (cap : Nat) (m : Buffer α) : Prop :=
  (m.map Prod.fst).Pairwise (· < ·) ∧ ∀ i ∈ m.map Prod.fst, i < cap

/-- The three buffers are in canonical form. -/
abbrev Memory.wf (s : State) : Prop :=
  bufWf s.params.maxLen s.bits ∧ bufWf s.params.maxLen s.samp ∧ bufWf s.params.sigCap s.sig

/-- The bit sequence `BITS[0 .. NBITS)` (R21). -/
def bitSeq (s : State) : Option (List Bit) := bufReadSeq s.params.maxLen s.nbits s.bits
/-- The sample sequence `SAMP[0 .. NSAMP)` (R22). -/
def sampSeq (s : State) : Option (List Sample) := bufReadSeq s.params.maxLen s.nsamp s.samp
/-- The signal sequence `SIG[0 .. NSIG)` (R23). -/
def sigSeq (s : State) : Option (List Level) := bufReadSeq s.params.sigCap s.nsig s.sig

/-- A next state, or the model's fault where an element that does not exist was touched. -/
def orInvalid : Option State → Result
  | some t => .next t
  | none => .fault .invalidElement

/-- A quantizer's output replaces the bit sequence (40_quantizers.md R100): the elements, `NBITS`, and
`PAL_VALID <- 0`. -/
def replaceBits (out : List Bit) (s : State) : Option State :=
  (bufWriteSeq s.params.maxLen out s.bits).map fun m =>
    { s with bits := m, nbits := out.length, flags := flagsSetPalValid false s.flags }

/-! ## Faults and reset -/

/-- `raise Fault(code)` (R214): `FAULT <- 1`, `ERRCODE <- code` and nothing else; when `FAULT` is already 1 the first
code is kept (R217, R219). -/
def raiseFault (code : ErrCode) (s : State) : State :=
  if statusFault s.status then s else { s with status := statusAfterFault code s.status }

/-- Every write to `CMD`, `BITS_PUSH` and `SAMP_PUSH` is ignored while `STATUS.FAULT = 1` (R219). -/
def unlessFaulted (s : State) (r : Result) : Result :=
  if statusFault s.status then .next s else r

/-- The reset input (70_reset_and_hazards.md R240), the only return from the fault state (R219, R241): every piece of
LCE's state takes its value of R43. The parameters, the accesses still to come and the model's host side stay (log entry 15). -/
def resetBlock (s : State) : State :=
  { State.resetWith s.params with pending := s.pending, readData := s.readData, freeCtr := s.freeCtr }

end Sys2Proof.Machine
end

