-- ==== Sys2Proof/Machine/Analyzer.lean ====
section
/-!
DEFINITION. The analyzer commands APAL and AZRUN (43_analyzers.md): Manacher's algorithm as R183 gives it, with its
hidden registers, and the zero-run pass of R188. R182's and R189's definitions of the results stand in Safety.lean.
-/

namespace Sys2Proof.Machine

open Sys2Proof

/-- `T[j]` (R183): the interleaved sequence, the separator `SEP` at even `j`, the bit `b[(j-1)/2]` at odd `j`. The
separator is a symbol that is no bit, whichever it is (log entry 4). -/
def interleaved (sep : Nat) (b : List Bit) (j : Nat) : Option Symbol :=
  if j % 2 = 0 then some (.other sep) else (b[(j - 1) / 2]?).map .bit

/-- The `while` of R183: expanding around the center `c` from radius `r`. The first argument bounds the number of
expansions; `2n+1` is enough, since each is bounded by the sequence's ends. -/
def palExpand (sep : Nat) (b : List Bit) (c : Nat) : Nat → Nat → Nat
  | 0, r => r
  | fuel + 1, r =>
    if r + 1 ≤ c ∧ c + r + 1 ≤ 2 * b.length ∧ interleaved sep b (c - r - 1) = interleaved sep b (c + r + 1) then
      palExpand sep b c fuel (r + 1)
    else r

/-- What the center scan works on: the radii found so far (`P[0 .. c)`, index 0 first), `CEN`, `RGT`, and the best
length and center (R183, 10_state.md R33). -/
structure PalScan where
  radii : List Nat
  cen : Nat
  rgt : Nat
  bestLen : Nat
  bestCen : Nat
deriving DecidableEq, Repr

/-- The radius at center `c` (R183): from the mirror position inside the right boundary, else from 0, then expanded. -/
def palRadius (sep : Nat) (b : List Bit) (x : PalScan) (c : Nat) : Nat :=
  palExpand sep b c (2 * b.length + 1) (if c < x.rgt then min (x.rgt - c) (x.radii.getD (2 * x.cen - c) 0) else 0)

/-- One center of the scan (R183): the radius, the right boundary, the strictly greater maximum. -/
def palStep (sep : Nat) (b : List Bit) (x : PalScan) (c : Nat) : PalScan :=
  let r := palRadius sep b x c
  { radii := x.radii ++ [r]
    cen := if c + r > x.rgt then c else x.cen
    rgt := if c + r > x.rgt then c + r else x.rgt
    bestLen := if r > x.bestLen then r else x.bestLen
    bestCen := if r > x.bestLen then c else x.bestCen }

/-- The center scan of R183 over `c` from 0 to `2n`; no center is visited when `n = 0`. -/
def palScan (sep : Nat) (b : List Bit) : PalScan :=
  (List.range (if b.length = 0 then 0 else 2 * b.length + 1)).foldl (palStep sep b)
    { radii := [], cen := 0, rgt := 0, bestLen := 0, bestCen := 0 }

/-- `(PAL_START, PAL_LEN)` (R183); (0, 0) for the empty input (R184). -/
def longestPalindrome (sep : Nat) (b : List Bit) : Nat × Nat :=
  (((palScan sep b).bestCen - (palScan sep b).bestLen) / 2, (palScan sep b).bestLen)

/-- APAL (R181). `P` is rewritten from entry 0 up; on the empty input no entry is written and `IDX`, `CEN`, `RGT` hold
their initial values (DEDUCED, log entry 9). The hidden registers are those of R183's algorithm (log entry 20). -/
def execApal (s : State) : Result :=
  unlessFaulted s
    (match bitSeq s with
    | none => .fault .invalidElement
    | some b =>
      .next
        { s with
          palStart := (longestPalindrome s.params.sep b).1
          palLen := (longestPalindrome s.params.sep b).2
          radius := (palScan s.params.sep b).radii ++ s.radius.drop (palScan s.params.sep b).radii.length
          cen := (palScan s.params.sep b).cen
          rgt := (palScan s.params.sep b).rgt
          idx := (palScan s.params.sep b).radii.length
          flags := flagsSetPalValid true s.flags })

/-- What the zero-run pass works on: `ZR_START`, `ZR_COUNT`, `CURSTART`, `CURLEN` (R187). -/
structure ZeroScan where
  start : Nat
  count : Nat
  curStart : Nat
  curLen : Nat
deriving DecidableEq, Repr

/-- `zrun_step(i)` on the level read at position `i` (R188). -/
def zrunStep (x : ZeroScan) (i : Nat) (l : Level) : ZeroScan :=
  if l = .zero then
    let curStart := if x.curLen = 0 then i else x.curStart
    { start := if x.curLen + 1 > x.count then curStart else x.start
      count := if x.curLen + 1 > x.count then x.curLen + 1 else x.count
      curStart := curStart
      curLen := x.curLen + 1 }
  else { x with curLen := 0 }

/-- The pass from position `i` up (R187). -/
def zrunFrom : ZeroScan → Nat → List Level → ZeroScan
  | x, _, [] => x
  | x, i, l :: ls => zrunFrom (zrunStep x i l) (i + 1) ls

/-- The pass over a whole signal from the initial values (R187). -/
def zrunScan (sig : List Level) : ZeroScan :=
  zrunFrom { start := 0, count := 0, curStart := 0, curLen := 0 } 0 sig

/-- AZRUN (R187): no precondition. -/
def execAzrun (s : State) : Result :=
  unlessFaulted s
    (match sigSeq s with
    | none => .fault .invalidElement
    | some x =>
      .next
        { s with
          zrStart := (zrunScan x).start
          zrCount := (zrunScan x).count
          curStart := (zrunScan x).curStart
          curLen := (zrunScan x).curLen
          idx := s.nsig
          flags := flagsSetZrValid true s.flags })

end Sys2Proof.Machine
end

