-- ==== Sys2Proof/Machine/Control.lean ====
section
/-!
DEFINITION. The control commands NOP, CLRB and CLRS (44_control.md R200 to R202).
-/

namespace Sys2Proof.Machine

open Sys2Proof

/-- NOP (R200): no state changes. -/
def execNop (s : State) : Result := unlessFaulted s (.next s)

/-- CLRB (R201): `NBITS <- 0`, `PAL_VALID <- 0`; the elements are not written. -/
def execClrb (s : State) : Result :=
  unlessFaulted s (.next { s with nbits := 0, flags := flagsSetPalValid false s.flags })

/-- CLRS (R202): `NSAMP <- 0`; the elements are not written, no flag changes. -/
def execClrs (s : State) : Result := unlessFaulted s (.next { s with nsamp := 0 })

end Sys2Proof.Machine
end

