-- ==== Sys2Proof/Machine/Encoder.lean ====
section
/-!
DEFINITION. The line-code state machine and the encoder commands ENL, ENI, EMAN, EDMAN, EAMI (41_line_encoder.md).
-/

namespace Sys2Proof.Machine

open Sys2Proof

/-- `enc_step` (R121 to R127): from the running variable and one bit, the next running variable and the one or two
levels emitted. -/
def encStep : Scheme → Level → Bit → Level × List Level
  | .nrzL, v, true => (v, [.pos])
  | .nrzL, v, false => (v, [.neg])
  | .nrzI, v, true => (v.negate, [v.negate])
  | .nrzI, v, false => (v, [v])
  | .manchester, v, false => (v, [.pos, .neg])
  | .manchester, v, true => (v, [.neg, .pos])
  | .diffManchester, v, false => (v.negate.negate, [v.negate, v.negate.negate])
  | .diffManchester, v, true => (v.negate, [v, v.negate])
  | .ami, v, false => (v, [.zero])
  | .ami, v, true => (v.negate, [v])

/-- The running variable before the first step (R26, R129, R131, R132): -1 as `LEVEL`, +1 as `POLARITY`; NRZ-L and
Manchester have no state and leave the register as it is (log entry 18). -/
def encInit : Scheme → Level → Level
  | .nrzL, v => v
  | .nrzI, _ => .neg
  | .manchester, v => v
  | .diffManchester, _ => .neg
  | .ami, _ => .pos

/-- The encoder over a whole bit sequence (R13, R121): the last running variable and the signal. -/
def encRun (c : Scheme) : Level → List Bit → Level × List Level
  | v, [] => (v, [])
  | v, b :: bs => ((encRun c (encStep c v b).1 bs).1, (encStep c v b).2 ++ (encRun c (encStep c v b).1 bs).2)

/-- What the five encoder commands share (R120): the signal from element 0, `NSIG`, the flags, `RUNVAR` and `IDX`. -/
def encodeSignal (c : Scheme) (s : State) : Result :=
  match bitSeq s with
  | none => .fault .invalidElement
  | some b =>
    orInvalid ((bufWriteSeq s.params.sigCap (encRun c (encInit c s.runvar) b).2 s.sig).map fun m =>
      { s with
        sig := m
        nsig := schemeMultiplier c * s.nbits
        flags := flagsAfterEncode c s.flags
        runvar := (encRun c (encInit c s.runvar) b).1
        idx := s.nbits })

/-- ENL, NRZ-L (R128). -/
def execEnl (s : State) : Result := unlessFaulted s (encodeSignal .nrzL s)

/-- ENI, NRZ-I (R129). -/
def execEni (s : State) : Result := unlessFaulted s (encodeSignal .nrzI s)

/-- EMAN, Manchester (R130). -/
def execEman (s : State) : Result := unlessFaulted s (encodeSignal .manchester s)

/-- EDMAN, Differential Manchester (R131). -/
def execEdman (s : State) : Result := unlessFaulted s (encodeSignal .diffManchester s)

/-- EAMI, AMI (R132). -/
def execEami (s : State) : Result := unlessFaulted s (encodeSignal .ami s)

end Sys2Proof.Machine
end

