-- ==== Sys2Proof/Machine/Operands.lean ====
section
/-!
DEFINITION. The operand forms: the immediate `bps` of QPCM (30_encoding.md R82), and a sample at its port, a 64-bit
binary64 pattern and the rational it denotes (10_state.md R22, 20_memory.md R63, R64, R67).
-/

namespace Sys2Proof.Machine

open Sys2Proof

/-- `bps = zext(IMM8)`: not scaled, not shifted, not sign-extended (R82). -/
def bpsOperand (imm8 : BitVec 8) : Nat := imm8.toNat

/-- Bit 63 of a pattern, the sign (R67). -/
def patternSign (w : BitVec 64) : Bool := w.getLsbD 63
/-- Bits 62:52 of a pattern, the exponent (R67). -/
def patternExponent (w : BitVec 64) : Nat := (w.extractLsb' 52 11).toNat
/-- Bits 51:0 of a pattern, the fraction (R67). -/
def patternFraction (w : BitVec 64) : Nat := (w.extractLsb' 0 52).toNat

/-- The magnitude a finite pattern with exponent field `e` and fraction field `f` denotes (R22, the binary64 layout,
PRESUMED, log entry 14):
`f * 2^-1074` when `e = 0`, else `(2^52 + f) * 2^(e - 1075)`. -/
def patternMagnitude (e f : Nat) : Sample :=
  if e = 0 then mkRat f (2 ^ 1074)
  else if 1075 ≤ e then ((2 ^ 52 + f) * 2 ^ (e - 1075) : Nat)
  else mkRat ((2 ^ 52 + f : Nat)) (2 ^ (1075 - e))

/-- `value(w)` (R63): the rational a finite pattern denotes, both zeros denoting 0; `none` for an infinity or a NaN
(exponent field all ones). -/
def sampleValue (w : BitVec 64) : Option Sample :=
  if patternExponent w = 2047 then none
  else if patternSign w then some (-patternMagnitude (patternExponent w) (patternFraction w))
  else some (patternMagnitude (patternExponent w) (patternFraction w))

/-- A pattern from its three fields (R67). -/
def patternOfFields (sign : Bool) (e f : Nat) : BitVec 64 :=
  (BitVec.ofBool sign ++ BitVec.ofNat 11 e ++ BitVec.ofNat 52 f : BitVec 64)

/-- The exponent and fraction fields of the magnitude `n / 2^k`, for `n` not 0 and the fraction in lowest terms. -/
def magnitudeFields (n k : Nat) : Nat × Nat :=
  if n.log2 + 1022 < k then (0, n * 2 ^ (1074 - k))
  else (n.log2 + 1023 - k, (if n.log2 ≤ 52 then n * 2 ^ (52 - n.log2) else n / 2 ^ (n.log2 - 52)) - 2 ^ 52)

/-- The pattern that denotes a non-zero sample, if one does: what a read of the element returns (R64). -/
def samplePattern (q : Sample) : Option (BitVec 64) :=
  let fields := magnitudeFields q.num.natAbs q.den.log2
  let w := patternOfFields (decide (q < 0)) fields.1 fields.2
  if sampleValue w = some q then some w else none

end Sys2Proof.Machine
end

