-- ==== Sys2Proof/Machine/Quantizer.lean ====
section
/-!
DEFINITION. The quantizer commands QPCM and QDM (40_quantizers.md).
-/

namespace Sys2Proof.Machine

open Sys2Proof

/-- `pcm_index` under `NUMERICS = EXACT` (R103), the document's formulas on rationals: step, floor, clamp; level 0
when `max = min` (R104). -/
def pcmIndexExact (s min max : Sample) (levels : Nat) : Nat :=
  if max = min then 0
  else
    let step := (max - min) / (levels : Sample)
    let q := ((s - min) / step).floor
    if q > (levels : Int) - 1 then levels - 1 else q.toNat

/-- `pcm_index` under `NUMERICS = BINARY64` (R101, U9): a free index with three properties and no more: it is in
`0 .. levels-1`, it is 0 when `max = min`, and it is non-decreasing in the sample (log entry 8). -/
def pcmIndexBinary64 (s min max : Sample) (levels : Nat) : Nat :=
  if max = min then 0
  else
    match Config.binary64Index min max levels with
    | none => 0
    | some index => (index s).val

/-- The level index function (R103, R101). -/
def pcmIndex : Numerics → Sample → Sample → Sample → Nat → Nat
  | .exact, s, min, max, levels => pcmIndexExact s min max levels
  | .binary64, s, min, max, levels => pcmIndexBinary64 s min max levels

/-- The `bps`-bit expansion of a level index, most significant bit first (R102, R67). -/
def pcmCode (bps q : Nat) : List Bit := (List.range bps).map fun j => q.testBit (bps - 1 - j)

/-- The first pass (R102): the minimum and maximum of a non-empty sample sequence. -/
def sampleRange (x : Sample) (xs : List Sample) : Sample × Sample := (xs.foldl min x, xs.foldl max x)

/-- QPCM as a function of the whole input (R108); the empty sequence for an empty input (R104 (b)). -/
def pcmBits (numerics : Numerics) (bps : Nat) : List Sample → List Bit
  | [] => []
  | x :: xs =>
    (x :: xs).flatMap fun v =>
      pcmCode bps (pcmIndex numerics v (sampleRange x xs).1 (sampleRange x xs).2 (2 ^ bps))

/-- The working registers QPCM leaves (R102): `QMIN`, `QMAX` (kept when there is no sample) and `IDX`. -/
def pcmRegisters (xs : List Sample) (s : State) : State :=
  match xs with
  | [] => { s with idx := 0 }
  | y :: ys => { s with qmin := (sampleRange y ys).1, qmax := (sampleRange y ys).2, idx := (y :: ys).length }

/-- QPCM (R102): InvalidSelection is checked first, then CapacityExceeded (60_exceptions.md R217), both before
anything is written. -/
def execQpcm (imm8 : BitVec 8) (s : State) : Result :=
  unlessFaulted s
    (if legalBps s.params (bpsOperand imm8) = false then .next (raiseFault .invalidSelection s)
    else if s.nsamp * bpsOperand imm8 > s.params.maxLen then .next (raiseFault .capacityExceeded s)
    else
      match sampSeq s with
      | none => .fault .invalidElement
      | some xs => orInvalid (replaceBits (pcmBits s.params.numerics (bpsOperand imm8) xs) (pcmRegisters xs s)))

/-- `delta = 0.5` (00_scope.md R8). -/
def dmDelta : Sample := 1 / 2

/-- `dm_step` (R107): the next prediction and the bit; the comparison is strict. -/
def dmStep (pred s : Sample) : Sample × Bit :=
  if s > pred then (pred + dmDelta, true) else (pred - dmDelta, false)

/-- The Delta Modulation pass (R106): the last prediction and the bits. -/
def dmRun : Sample → List Sample → Sample × List Bit
  | pred, [] => (pred, [])
  | pred, s :: ss => ((dmRun (dmStep pred s).1 ss).1, (dmStep pred s).2 :: (dmRun (dmStep pred s).1 ss).2)

/-- QDM (R106), from the initial prediction 0. -/
def execQdm (s : State) : Result :=
  unlessFaulted s
    (match sampSeq s with
    | none => .fault .invalidElement
    | some xs => orInvalid (replaceBits (dmRun 0 xs).2 { s with pred := (dmRun 0 xs).1, idx := s.nsamp }))

end Sys2Proof.Machine
end

