-- ==== Sys2Proof/Machine/Scrambler.lean ====
section
/-!
DEFINITION. The scrambler commands SNONE, SB8ZS and SHDB3 (42_scramblers.md): the in-place policy with the toggling
substitution polarity (90_conflicts.md C2, C3, C7).
-/

namespace Sys2Proof.Machine

open Sys2Proof

/-- What a scrambler pass works on: the signal and the registers `ZC`, `OC`, `SUBPOL` (10_state.md R28 to R30). -/
structure ScramblePass where
  sig : List Level
  zc : Nat
  oc : Nat
  subpol : Level
deriving DecidableEq, Repr

/-- `b8zs_step(i)` (R154). -/
def b8zsStep (x : ScramblePass) (i : Nat) : ScramblePass :=
  let zc := if x.sig[i]? = some .zero then x.zc + 1 else 0
  if zc = 8 then
    { x with
      sig := (((x.sig.set (i - 3) .zero).set (i - 2) x.subpol).set (i - 1) .zero).set i x.subpol.negate
      zc := 0
      subpol := x.subpol.negate }
  else { x with zc := zc }

/-- `hdb3_step(i)` (R158). -/
def hdb3Step (x : ScramblePass) (i : Nat) : ScramblePass :=
  if x.sig[i]? = some .zero then
    if x.zc + 1 = 4 then
      { sig := if x.oc % 2 = 0 then (x.sig.set (i - 3) x.subpol).set i x.subpol else x.sig.set i x.subpol
        zc := 0
        oc := 0
        subpol := x.subpol.negate }
    else { x with zc := x.zc + 1 }
  else { x with oc := x.oc + 1, zc := 0 }

/-- A pass over positions `0 .. sig.length - 1` from the initial state `ZC = 0`, `SUBPOL = +1` (R164). The pass is R164's
fold, so a second pass over its own output changes nothing, although a sentence of R164 says that neither function is
idempotent (DEDUCED, log entry 19). -/
def scrambleRun (step : ScramblePass → Nat → ScramblePass) (sig : List Level) (oc : Nat) : ScramblePass :=
  (List.range sig.length).foldl step { sig := sig, zc := 0, oc := oc, subpol := .pos }

/-- `SB8ZS(x)` as a function of the whole signal (R164). B8ZS does not use `OC` (R29): it passes through. -/
def b8zsRun (sig : List Level) (oc : Nat) : ScramblePass := scrambleRun b8zsStep sig oc

/-- `SHDB3(x)` as a function of the whole signal (R164), from `OC = 0`. -/
def hdb3Run (sig : List Level) : ScramblePass := scrambleRun hdb3Step sig 0

/-- The precondition of both scramblers (R151): `SIG_SCHEME = 4` (AMI) and `SIG_SCR = 0`. -/
def scramblable (f : BitVec 16) : Bool := flagsScheme f == schemeCode .ami && flagsScr f == scrambleCode .none

/-- What both scramblers share (R151, R161): the precondition, the pass, the rewritten signal and the registers. -/
def scrambleSignal (k : ScrambleKind) (run : List Level → ScramblePass) (s : State) : Result :=
  if scramblable s.flags = false then .next (raiseFault .preconditionViolated s)
  else
    match sigSeq s with
    | none => .fault .invalidElement
    | some x =>
      orInvalid ((bufWriteSeq s.params.sigCap (run x).sig s.sig).map fun m =>
        { s with
          sig := m
          zc := (run x).zc
          oc := (run x).oc
          subpol := (run x).subpol
          idx := s.nsig
          flags := flagsAfterScramble k s.flags })

/-- SNONE (R152): no state changes, no precondition. -/
def execSnone (s : State) : Result := unlessFaulted s (.next s)

/-- SB8ZS (R153). -/
def execSb8zs (s : State) : Result :=
  unlessFaulted s (scrambleSignal .b8zs (fun x => b8zsRun x s.oc) s)

/-- SHDB3 (R157). -/
def execShdb3 (s : State) : Result := unlessFaulted s (scrambleSignal .hdb3 hdb3Run s)

end Sys2Proof.Machine
end

