-- ==== Sys2Proof/Machine/Dispatch.lean ====
section
/-!
DEFINITION. Which meaning each command has (30_encoding.md R84, R91).
-/

namespace Sys2Proof.Machine

open Sys2Proof

def exec (i : Instr) (s : State) : Host.Outcome State Fault Refusal :=
  match i with
  | .nop => Sys2Proof.Machine.execNop s
  | .clrb => Sys2Proof.Machine.execClrb s
  | .clrs => Sys2Proof.Machine.execClrs s
  | .qpcm bps => Sys2Proof.Machine.execQpcm bps s
  | .qdm => Sys2Proof.Machine.execQdm s
  | .enl => Sys2Proof.Machine.execEnl s
  | .eni => Sys2Proof.Machine.execEni s
  | .eman => Sys2Proof.Machine.execEman s
  | .edman => Sys2Proof.Machine.execEdman s
  | .eami => Sys2Proof.Machine.execEami s
  | .snone => Sys2Proof.Machine.execSnone s
  | .sb8zs => Sys2Proof.Machine.execSb8zs s
  | .shdb3 => Sys2Proof.Machine.execShdb3 s
  | .apal => Sys2Proof.Machine.execApal s
  | .azrun => Sys2Proof.Machine.execAzrun s

end Sys2Proof.Machine
end

