-- ==== Sys2Proof/Machine/HostPort.lean ====
section
/-!
DEFINITION. The host's accesses other than commands: the two push ports and the reads (20_memory.md R61 to R65).
-/

namespace Sys2Proof.Machine

open Sys2Proof

/-- A write to `BITS_PUSH` (R62): appends a bit, or raises CapacityExceeded when `BITS` is full; ignored while
`FAULT = 1`. -/
def bitsPush (b : Bit) (s : State) : Result :=
  unlessFaulted s
    (if s.nbits = s.params.maxLen then .next (raiseFault .capacityExceeded s)
    else
      orInvalid ((bufWriteAt s.params.maxLen s.nbits b s.bits).map fun m =>
        { s with bits := m, nbits := s.nbits + 1, flags := flagsSetPalValid false s.flags }))

/-- Appending a sample (R63): CapacityExceeded when `SAMP` is full. No flag changes. -/
def appendSample (q : Sample) (s : State) : Result :=
  if s.nsamp = s.params.maxLen then .next (raiseFault .capacityExceeded s)
  else
    orInvalid ((bufWriteAt s.params.maxLen s.nsamp q s.samp).map fun m =>
      { s with samp := m, nsamp := s.nsamp + 1 })

/-- A write to `SAMP_PUSH` (R63): an infinity or a NaN raises PreconditionViolated, checked before the capacity
(60_exceptions.md R217); ignored while `FAULT = 1`. A word in the other format cannot be expressed at the port. -/
def sampPush (v : SampleWord) (s : State) : Result :=
  match s.params.sampleFormat, v with
  | .binary64, .binary64 w =>
    unlessFaulted s
      (match sampleValue w with
      | none => .next (raiseFault .preconditionViolated s)
      | some q => appendSample q s)
  | .rational, .rational q => unlessFaulted s (appendSample q s)
  | .binary64, .rational _ => .refused .portFormat
  | .rational, .binary64 _ => .refused .portFormat

/-- A read's data reaches the host; LCE's own state does not change (R64). -/
def deliver (v : ReadValue) (s : State) : State := { s with readData := some v }

/-- A read whose data is any value (R61, R35): the next free value, nothing else changes. -/
def deliverAny (v : ReadValue) (s : State) : State := { s with readData := some v, freeCtr := s.freeCtr + 1 }

/-- A read of an element below the length register, which holds a value (R42 (a)). -/
def readHeld {α : Type} (m : Buffer α) (i : Nat) (f : α → State) : Result :=
  orInvalid ((bufRead m i).map f)

/-- The data of a read of a stored sample (R64): the pattern that denotes it, the sign of a zero being free; under
`SAMPLE_FORMAT = RATIONAL` the rational itself. -/
def deliverSample (q : Sample) (s : State) : State :=
  match s.params.sampleFormat with
  | .rational => deliver (.rational q) s
  | .binary64 =>
    if q = 0 then deliverAny (.pattern (Config.anyZeroSign s.freeCtr ++ 0#63 : BitVec 64)) s
    else
      match samplePattern q with
      | some w => deliver (.pattern w) s
      | none => deliverAny (.pattern (Config.anySamplePattern s.freeCtr)) s

/-- The data of a read of `SAMP` beyond the sequence (R61). -/
def deliverAnySample (s : State) : State :=
  match s.params.sampleFormat with
  | .rational => deliverAny (.rational (Config.anySample s.freeCtr)) s
  | .binary64 => deliverAny (.pattern (Config.anySamplePattern s.freeCtr)) s

/-- A host read (R61, R64): it works whether or not `FAULT` is set. -/
def hostRead (t : ReadTarget) (s : State) : Result :=
  match t with
  | .bits i =>
    if i < s.nbits then readHeld s.bits i fun b => deliver (.bit b) s
    else .next (deliverAny (.bit (Config.anyBit s.freeCtr)) s)
  | .samp i =>
    if i < s.nsamp then readHeld s.samp i fun q => deliverSample q s
    else .next (deliverAnySample s)
  | .sig i =>
    if i < s.nsig then readHeld s.sig i fun l => deliver (.level l.code) s
    else .next (deliverAny (.level (Config.anyLevelCode s.freeCtr)) s)
  | .nbits => .next (deliver (.count s.nbits) s)
  | .nsamp => .next (deliver (.count s.nsamp) s)
  | .nsig => .next (deliver (.count s.nsig) s)
  | .cmd => .next (deliverAny (.command (Config.anyCommandWord s.freeCtr)) s)
  | .status => .next (deliver (.status s.status) s)
  | .flags => .next (deliver (.flags s.flags) s)
  | .palStart => .next (deliver (.count s.palStart) s)
  | .palLen => .next (deliver (.count s.palLen) s)
  | .zrStart => .next (deliver (.count s.zrStart) s)
  | .zrCount => .next (deliver (.count s.zrCount) s)

end Sys2Proof.Machine
end

