-- ==== Sys2Proof/Machine/Issue.lean ====
section
/-!
DEFINITION. How a host access takes effect: the issue of a command (30_encoding.md R91), the pushes, the reads and
reset; and the next access in issue order (20_memory.md R71, R74).
-/

namespace Sys2Proof.Machine

open Sys2Proof

/-- A write of `w` to `CMD` (R91): no effect while `FAULT = 1`; a reserved word raises InvalidSelection; else the
operation runs to completion. -/
def issueCommand (w : Word) (s : State) : Result :=
  unlessFaulted s
    (match decode w with
    | none => .next (raiseFault .invalidSelection s)
    | some i => exec i s)

/-- The effect of one host access. -/
def hostAccess (a : HostAccess) (s : State) : Result :=
  match a with
  | .cmd w => issueCommand w s
  | .bitsPush b => bitsPush b s
  | .sampPush v => sampPush v s
  | .read t => hostRead t s
  | .reset => .next (resetBlock s)

/-- The host's oldest access that has not taken effect, and the rest (R74: held accesses take effect in issue order). -/
def takeAccess : List HostAccess → Option (HostAccess × List HostAccess)
  | [] => none
  | a :: rest => some (a, rest)

/-- One access takes effect; with none to take, LCE is idle and keeps all its state (60_exceptions.md R225, R226). -/
def accessStep (s : State) : Result :=
  match takeAccess s.pending with
  | none => .next s
  | some (a, rest) => hostAccess a { s with pending := rest }

/-- The host's next access is a write of the low `nbits` bits of `w` to `CMD`. -/
def queueCommand (s : State) (nbits w : Nat) : State :=
  { s with pending := .cmd (BitVec.ofNat 16 (w % 2 ^ nbits)) :: s.pending }

end Sys2Proof.Machine
end

