-- ==== Sys2Proof/Machine/Step.lean ====
section
/-!
DEFINITION. One step of the machine: the host's next access takes effect, whole (20_memory.md R71, R74). LCE fetches
nothing (R73): a command exists only as the value the host writes to `CMD`.
-/

namespace Sys2Proof.Machine

open Sys2Proof

/-- One step. -/
def step (s : State) : Host.Outcome State Fault Refusal := accessStep s

/-- `s` with the command whose bits are `w` as the host's next access. -/
def State.withFetchWord (s : State) (nbits w : Nat) : State := queueCommand s nbits w

end Sys2Proof.Machine
end

