-- ==== Sys2Proof/Machine/Reports.lean ====
section
/-!
DEFINITION. What the host reads out as wholes: the two report strings, functions of the state (43_analyzers.md R185,
R186, R190, R191), and the EncodingResult (10_state.md R41). No command builds or stores them (log entry 16).
-/

namespace Sys2Proof.Machine

open Sys2Proof

/-- `dec(v)` (R191): the decimal numeral, no sign, no leading zeros. -/
def dec (v : Nat) : String := Nat.repr v

/-- A bit as a character (R185). -/
def bitChar (b : Bit) : Char := if b then '1' else '0'

/-- The text of the palindrome result (R185): the characters of `BITS[PAL_START .. PAL_START + PAL_LEN)`. -/
def palText (s : State) : Option String :=
  (bufReadFrom s.bits s.palStart s.palLen).map fun bs => String.ofList (bs.map bitChar)

/-- The palindrome report (R186), defined while `PAL_VALID = 1`. -/
def palReport (s : State) : Option String :=
  if flagsPalValid s.flags then
    (palText s).map fun t => "Longest Palindrome: " ++ t ++ " (Length: " ++ dec s.palLen ++ ")"
  else none

/-- `zr_report_emitted` (R190). -/
def zrReportEmitted (s : State) : Bool :=
  flagsZrValid s.flags && flagsScr s.flags != scrambleCode .none && decide (1 ≤ s.zrCount)

/-- The zero-run report (R190): `none` when nothing is reported. -/
def zrReport (s : State) : Option String :=
  if zrReportEmitted s then
    some ("Longest zero sequence: " ++ dec s.zrCount ++ " zeros starting at position " ++ dec s.zrStart)
  else none

/-- The EncodingResult as the host reads it (R41): the signal, the title code's scheme and scrambling, `DOUBLE`. -/
structure EncodingResult where
  signal : List Level
  scheme : BitVec 3
  scramble : BitVec 2
  double : Bool
deriving DecidableEq, Repr

/-- The EncodingResult of a state (R41). -/
def encodingResult (s : State) : Option EncodingResult :=
  (sigSeq s).map fun x =>
    { signal := x, scheme := flagsScheme s.flags, scramble := flagsScr s.flags, double := flagsDouble s.flags }

end Sys2Proof.Machine
end

