-- ==== Sys2Proof/Safety.lean ====
section
/-!
DEFINITION. What counts as a good run and a good state, and the spec's definitions of results that name no algorithm,
in the terms the statements use: the longest palindrome (43_analyzers.md R182), the longest zero run (R189), the
substitution windows of the scramblers (42_scramblers.md R156, R159), and the invariants of 10_state.md.
-/

namespace Sys2Proof.Machine

open Sys2Proof

/-- A run has gone wrong if and only if `STATUS.FAULT = 1` at its end (60_exceptions.md R227). -/
abbrev faulted (s : State) : Prop := statusFault s.status = true
/-- `STATUS.FAULT = 0`, the premise of every claim about a result (R219). -/
abbrev unfaulted (s : State) : Prop := statusFault s.status = false

/-! ## Registers and buffers, field by field -/

/-- The fields of a `FLAGS` word (10_state.md R37). -/
structure FlagsAre (f : BitVec 16) (scheme : BitVec 3) (scr : BitVec 2) (double pal zr : Bool)
    (reserved : BitVec 8) : Prop where
  scheme : flagsScheme f = scheme
  scr : flagsScr f = scr
  double : flagsDouble f = double
  pal : flagsPalValid f = pal
  zr : flagsZrValid f = zr
  reserved : flagsReserved f = reserved

/-- `v` is the `STATUS` word `u` after a fault with this code (60_exceptions.md R214): the other fields are kept. -/
structure StatusFaulted (u v : BitVec 8) (code : BitVec 2) : Prop where
  fault : statusFault v = true
  errcode : statusErrcode v = code
  busy : statusBusy v = statusBusy u
  reserved : statusReserved v = statusReserved u

/-- Buffer `m` is buffer `m0` with the sequence `out` written from element 0: below its length an element reads as
`out` says, and every other element reads as before. -/
def WrittenFromZero {α : Type} (m0 m : Buffer α) (out : List α) : Prop :=
  ∀ i, bufRead m i = if i < out.length then out[i]? else bufRead m0 i

/-- Buffer `m` is buffer `m0` with the one element at index `at_` written. -/
def WrittenAt {α : Type} (m0 m : Buffer α) (at_ : Nat) (v : α) : Prop :=
  ∀ i, bufRead m i = if i = at_ then some v else bufRead m0 i

/-- The write that a host access or a command turned into a fault (60_exceptions.md R214, R218): a next state that
differs from `s` in `STATUS` alone, with `FAULT` 1 and this code. -/
def RaisesOnly (r : Result) (s : State) (code : BitVec 2) : Prop :=
  ∃ v, r = .next { s with status := v } ∧ StatusFaulted s.status v code

/-- The one word of a command without operand (30_encoding.md R84: mask 0xFFFF). -/
def HasTheWord (i : Instr) (w : Word) : Prop := ∀ v : Word, decode v = some i ↔ v = w

/-- The values 10_state.md R43 states: every row of its table but those that say "no value". -/
def HasResetTable (s : State) : Prop :=
  s.nbits = 0 ∧ s.nsamp = 0 ∧ s.nsig = 0 ∧ s.status = 0x00#8 ∧ s.flags = 0x0007#16 ∧
  s.palStart = 0 ∧ s.palLen = 0 ∧ s.zrStart = 0 ∧ s.zrCount = 0 ∧ s.runvar = .neg ∧ s.subpol = .pos ∧
  s.idx = 0 ∧ s.zc = 0 ∧ s.oc = 0 ∧ s.curStart = 0 ∧ s.curLen = 0 ∧ s.cen = 0 ∧ s.rgt = 0 ∧ s.pred = 0

/-- What every encoder command does (41_line_encoder.md R120), for the signal `out` and the last running variable `v`:
`SIG` from element 0, `NSIG`, the flags, `RUNVAR` and `IDX`, and nothing else. -/
def EncodesAs (i : Instr) (s : State) (scheme : BitVec 3) (double : Bool) (nsig : Nat) (out : List Level)
    (v : Level) : Prop :=
  ∃ sig f,
    exec i s = .next { s with sig := sig, nsig := nsig, runvar := v, idx := s.nbits, flags := f } ∧
    out.length = nsig ∧ WrittenFromZero s.sig sig out ∧
    FlagsAre f scheme 0 double (flagsPalValid s.flags) false (flagsReserved s.flags)

/-- The number of 1 bits in `BITS[0 .. i)`. -/
def onesBefore (b : List Bit) (i : Nat) : Nat := (b.take i).count true

/-! ## Results defined without an algorithm -/

/-- `b[start .. start+len)` is a palindrome (R182). -/
def IsPalindromeAt (b : List Bit) (start len : Nat) : Prop :=
  start + len ≤ b.length ∧ ∀ k, k < len → b[start + k]? = b[start + len - 1 - k]?

/-- `(start, len)` is the result R182 defines: the greatest length of a palindromic substring and the least start of
one of that length; (0, 0) for the empty sequence. -/
def IsLongestPalindrome (b : List Bit) (start len : Nat) : Prop :=
  (b = [] → start = 0 ∧ len = 0) ∧
  (b ≠ [] → IsPalindromeAt b start len ∧
    (∀ start' len', IsPalindromeAt b start' len' → len' ≤ len) ∧
    (∀ start', IsPalindromeAt b start' len → start ≤ start'))

/-- `r` is the radius at center `c` of the interleaved sequence with separator `sep` (R183): the greatest `r` such that the sequence reads
the same both ways around `c` out to distance `r`. -/
def IsRadiusAt (sep : Nat) (b : List Bit) (c r : Nat) : Prop :=
  (r ≤ c ∧ c + r ≤ 2 * b.length ∧ ∀ k, k ≤ r → interleaved sep b (c - k) = interleaved sep b (c + k)) ∧
  ∀ r', r' ≤ c → c + r' ≤ 2 * b.length → (∀ k, k ≤ r' → interleaved sep b (c - k) = interleaved sep b (c + k)) → r' ≤ r

/-- `x[start .. start+len)` is all level 0. -/
def IsZeroRun (x : List Level) (start len : Nat) : Prop :=
  start + len ≤ x.length ∧ ∀ k, k < len → x[start + k]? = some .zero

/-- `(start, len)` is the result R189 defines: the longest run of level 0 and the first element of the leftmost run of
that length; (0, 0) when there is no level 0. -/
def IsLongestZeroRun (x : List Level) (start len : Nat) : Prop :=
  (Level.zero ∉ x → start = 0 ∧ len = 0) ∧
  (Level.zero ∈ x → 1 ≤ len ∧ IsZeroRun x start len ∧
    (∀ start' len', IsZeroRun x start' len' → len' ≤ len) ∧
    (∀ start', IsZeroRun x start' len → start ≤ start'))

/-- `c` is the index of the first element of the last maximal zero run of `x`, or 0 when there is no level 0: what
`CURSTART` holds after the pass of R188. -/
def IsLastZeroRunStart (x : List Level) (c : Nat) : Prop :=
  (Level.zero ∉ x → c = 0) ∧
  (Level.zero ∈ x → x[c]? = some .zero ∧ (c = 0 ∨ x[c - 1]? ≠ some .zero) ∧
    ∀ k, c < k → x[k]? = some .zero → x[k - 1]? = some .zero)

/-- The lengths of the maximal zero runs of a signal, in order, empty ones among them (they add nothing to a sum of
quotients). The first argument is the length of the run that is open at the left end. -/
def zeroRunsFrom : Nat → List Level → List Nat
  | n, [] => [n]
  | n, .zero :: x => zeroRunsFrom (n + 1) x
  | n, .neg :: x => n :: zeroRunsFrom 0 x
  | n, .pos :: x => n :: zeroRunsFrom 0 x

/-- The sum, over the maximal zero runs of `x`, of run length div `window` (R156 (d), R159 (d)). -/
def fullWindows (window : Nat) (x : List Level) : Nat := ((zeroRunsFrom 0 x).map (· / window)).sum

/-- The length of the zero run at the end of a signal. -/
def trailingZeros (x : List Level) : Nat := (x.reverse.takeWhile fun l => l == .zero).length

/-- The number of marks (non-zero levels) in `x[lo .. hi)`. -/
def marksIn (x : List Level) (lo hi : Nat) : Nat := ((x.drop lo).take (hi - lo)).countP fun l => l != .zero

/-- The polarity of the `k`-th substitution of a pass, counted from 0: +1, -1, +1, ... (R155, R163). -/
def substitutionPolarity (k : Nat) : Level := if k % 2 = 0 then .pos else .neg

/-- Where the marks of the `k`-th HDB3 window begin to count: after the window before it (R158). -/
def countStart (ends : List Nat) (k : Nat) : Nat :=
  match k with
  | 0 => 0
  | k + 1 => (ends[k]?.getD 0) + 1

/-- Signal `y` is signal `x` with B8ZS substitutions in the windows that end at the positions `ends` (R154 to R156):
eight zeros each, in order and apart, each window ending where the zeros of its run up to there are a multiple of
eight (so counted from the run's first element, R153); the `k`-th writes `s` two before its end and `-s` at its end, `s` alternating
from +1; nothing else changes; and there are as many as R156 (d) says. -/
structure IsB8zsOf (x y : List Level) (ends : List Nat) : Prop where
  zeros : ∀ e ∈ ends, 7 ≤ e ∧ ∀ k, k < 8 → x[e - k]? = some .zero
  apart : ends.Pairwise fun a b => a + 8 ≤ b
  place : ∀ e ∈ ends, trailingZeros (x.take (e + 1)) % 8 = 0
  written : ∀ k e, ends[k]? = some e →
    y[e - 2]? = some (substitutionPolarity k) ∧ y[e]? = some (substitutionPolarity k).negate
  kept : ∀ i, (∀ e ∈ ends, i ≠ e ∧ i + 2 ≠ e) → y[i]? = x[i]?
  count : ends.length = fullWindows 8 x

/-- Signal `y` is signal `x` with HDB3 substitutions in the windows that end at the positions `ends` (R158, R159,
R163): four zeros each, in order and apart, each window ending where the zeros of its run up to there are a multiple of four
(so counted from the run's first element); the `k`-th writes `s` at its end, and at its first position too if the
marks since the substitution before it are even in number, `s` alternating from +1; nothing else changes; and there
are as many as R159 (d) says. -/
structure IsHdb3Of (x y : List Level) (ends : List Nat) : Prop where
  zeros : ∀ e ∈ ends, 3 ≤ e ∧ ∀ k, k < 4 → x[e - k]? = some .zero
  apart : ends.Pairwise fun a b => a + 4 ≤ b
  place : ∀ e ∈ ends, trailingZeros (x.take (e + 1)) % 4 = 0
  written : ∀ k e, ends[k]? = some e →
    y[e]? = some (substitutionPolarity k) ∧
    y[e - 3]? = some (if marksIn x (countStart ends k) e % 2 = 0 then substitutionPolarity k else .zero)
  kept : ∀ i, (∀ e ∈ ends, i ≠ e ∧ i + 3 ≠ e) → y[i]? = x[i]?
  count : ends.length = fullWindows 4 x

/-! ## Invariants -/

/-- R24: the range of each length register. -/
def LengthsOk (s : State) : Prop :=
  s.nbits ≤ s.params.maxLen ∧ s.nsamp ≤ s.params.maxLen ∧ s.nsig ≤ s.params.sigCap

/-- R42 (a): every element below a length register holds a value. -/
def ElementsHeld (s : State) : Prop :=
  (bitSeq s).isSome = true ∧ (sampSeq s).isSome = true ∧ (sigSeq s).isSome = true

/-- R42 (c): a level 0 occurs only in a signal of the scheme AMI. -/
def ZeroOnlyInAmi (s : State) : Prop :=
  flagsScheme s.flags ≠ schemeCode .ami → ∀ x, sigSeq s = some x → Level.zero ∉ x

/-- R36: never busy between accesses, `ERRCODE` 0 if and only if `FAULT` is 0, reserved bits 0. -/
def StatusOk (s : State) : Prop :=
  statusBusy s.status = false ∧ (statusErrcode s.status = 0 ↔ statusFault s.status = false) ∧
  statusReserved s.status = 0

/-- R37: `SIG_SCHEME` is 0 to 4 or 7, `SIG_SCR` is not 3 and is 0 unless the scheme is AMI (R151), `DOUBLE` is 1 if
and only if the scheme is 2 or 3, reserved bits 0. -/
def FlagsOk (s : State) : Prop :=
  (flagsScheme s.flags ≠ 5 ∧ flagsScheme s.flags ≠ 6) ∧
  flagsScr s.flags ≠ 3 ∧
  (flagsScr s.flags ≠ 0 → flagsScheme s.flags = schemeCode .ami) ∧
  (flagsDouble s.flags = true ↔ flagsScheme s.flags = 2 ∨ flagsScheme s.flags = 3) ∧
  flagsReserved s.flags = 0

/-- R26, R28, R30, R31: `RUNVAR` and `SUBPOL` only ever hold +1 or -1, `ZC` is at most 8, and `PRED` is an integer
multiple of 0.5 of absolute value at most `MAX_LEN/2`. -/
def RunningVarsOk (s : State) : Prop :=
  s.runvar ≠ .zero ∧ s.subpol ≠ .zero ∧ s.zc ≤ 8 ∧
  ∃ k : Int, s.pred = (k : Rat) / 2 ∧ k.natAbs ≤ s.params.maxLen

/-- R24, R27, R29, R33, R34, R38, R39: every index, length and count register fits in `IDXW` bits, and `P` has its
`2*MAX_LEN+1` entries. -/
def WidthsOk (s : State) : Prop :=
  (∀ v ∈ [s.nbits, s.nsamp, s.nsig, s.palStart, s.palLen, s.zrStart, s.zrCount, s.idx, s.oc, s.cen, s.rgt,
      s.curStart, s.curLen], v < 2 ^ s.params.idxw) ∧
  (∀ v ∈ s.radius, v < 2 ^ s.params.idxw) ∧
  s.radius.length = 2 * s.params.maxLen + 1

/-- The invariants of 10_state.md that hold in every state reachable from reset. -/
structure State.Inv (s : State) : Prop where
  params : s.params.wf
  memory : Memory.wf s
  lengths : LengthsOk s
  elements : ElementsHeld s
  zeros : ZeroOnlyInAmi s
  status : StatusOk s
  flags : FlagsOk s
  running : RunningVarsOk s
  widths : WidthsOk s

/-- R37, `PAL_VALID` and `ZR_VALID`: while the flag is 1 the result registers hold the analysis of the current
sequence. -/
def ResultsFresh (s : State) : Prop :=
  (flagsPalValid s.flags = true → ∀ b, bitSeq s = some b → (s.palStart, s.palLen) = longestPalindrome s.params.sep b) ∧
  (flagsZrValid s.flags = true → ∀ x, sigSeq s = some x →
    s.zrStart = (zrunScan x).start ∧ s.zrCount = (zrunScan x).count)

end Sys2Proof.Machine
end

