-- ==== Sys2Proof/Certificates/Slice0/Obligations.lean ====
section
/-!
DEFINITION. The statements for the provers. Each `def Obligations.<Name> : Prop` names the rule of spec/ it formalises.
-/

open Sys2Proof Sys2Proof.Machine

/-! ## Encoding -/

/-- R84, R85, R87: a word decodes to a command exactly when it is that command's word; so every command decodes from
its own word with every operand, and no other word decodes to it. -/
def Obligations.DecodeInvertsEncode : Prop :=
  ∀ (w : Word) (i : Instr), decode w = some i ↔ encode i = w

/-- R84: a word `w` is the command of a row if and only if `(w AND mask) = match`, and no word matches two rows. -/
def Obligations.DecodeFollowsMatchAndMask : Prop :=
  ∀ w : Word,
    (∀ i, matchesRow i w ↔ ∃ j, decode w = some j ∧ rowMatchMask j = rowMatchMask i) ∧
    (∀ i j, matchesRow i w → matchesRow j w → rowMatchMask i = rowMatchMask j)

/-- R85: a word decodes to no command exactly when it is in R85's list: group by group, and any word of a command other
than QPCM with `IMM8` not 0. -/
def Obligations.ReservedWordsAreTheListed : Prop :=
  ∀ w : Word,
    decode w = none ↔
      5 ≤ w.toNat / 4096 ∨
      (w.toNat / 4096 = 0 ∧ 3 ≤ w.toNat / 256 % 16) ∨
      (w.toNat / 4096 = 1 ∧ 2 ≤ w.toNat / 256 % 16) ∨
      (w.toNat / 4096 = 2 ∧ 5 ≤ w.toNat / 256 % 16) ∨
      (w.toNat / 4096 = 3 ∧ 3 ≤ w.toNat / 256 % 16) ∨
      (w.toNat / 4096 = 4 ∧ 2 ≤ w.toNat / 256 % 16) ∨
      (w.toNat / 256 ≠ 0x10 ∧ w.toNat % 256 ≠ 0)

/-- R84, R85: words of 95_test_vectors.md section 2.1 decode as the table there says. -/
def Obligations.ListedWordsDecode : Prop :=
  decode 0x0000#16 = some .nop ∧ decode 0x0100#16 = some .clrb ∧ decode 0x1003#16 = some (.qpcm 3) ∧
  decode 0x10FF#16 = some (.qpcm 255) ∧ decode 0x2300#16 = some .edman ∧ decode 0x3200#16 = some .shdb3 ∧
  decode 0x4100#16 = some .azrun ∧ decode 0x1101#16 = none ∧ decode 0x2500#16 = none ∧ decode 0xFFFF#16 = none

/-! ## Steps and the issue of commands -/

/-- R71, R74, R226: the host's accesses take effect one at a time in issue order; with none to take, LCE is idle and
keeps all its state. That the accesses stand in a list in the state is the model's choice (log entry 6). -/
def Obligations.StepTakesTheNextAccess : Prop :=
  (∀ (s : State) (a : HostAccess) (rest : List HostAccess),
    s.pending = a :: rest → step s = hostAccess a { s with pending := rest }) ∧
  (∀ s : State, s.pending = [] → step s = .next s)

/-- R91: when the next access writes a word that decodes to `i`, the step is the operation of `i` on the state with
that access taken; and `withFetchWord` places exactly such an access (the list is the model's choice, log entry 6). -/
def Obligations.StepRunsTheDecodedCommand : Prop :=
  (∀ (s : State) (w : Word) (rest : List HostAccess) (i : Instr),
    s.pending = .cmd w :: rest → decode w = some i → step s = exec i { s with pending := rest }) ∧
  (∀ (s : State) (w : Word) (i : Instr), decode w = some i → step (s.withFetchWord 16 w.toNat) = exec i s)

/-- R85, R91, R212 (a): a write of a reserved word to `CMD` raises InvalidSelection with no other effect; while
`FAULT = 1` it has no effect. -/
def Obligations.ReservedWordRaisesInvalidSelection : Prop :=
  ∀ (s : State) (w : Word), decode w = none →
    (unfaulted s → RaisesOnly (hostAccess (.cmd w) s) s 1) ∧
    (faulted s → hostAccess (.cmd w) s = .next s)

/-! ## Faults -/

/-- R214: raising a fault sets `FAULT` and `ERRCODE` and nothing else. -/
def Obligations.RaiseFaultWritesStatusAlone : Prop :=
  ∀ (code : ErrCode) (s : State), unfaulted s →
    ∃ v, raiseFault code s = { s with status := v } ∧ StatusFaulted s.status v code.code

/-- R219: once `FAULT = 1` every command is ignored, with no effect at all. -/
def Obligations.EveryCommandIgnoredWhileFaulted : Prop :=
  ∀ (i : Instr) (s : State), faulted s → exec i s = .next s

/-- R219: in a faulted state no access but reset changes anything of LCE: a step leaves everything but the host's own
side (the access taken, the data read, the free-value counter: the model's own fields, log entries 6 and 7). -/
def Obligations.OnlyResetLeavesTheFaultState : Prop :=
  ∀ (s t : State) (a : HostAccess) (rest : List HostAccess),
    faulted s → s.pending = a :: rest → a ≠ .reset → step s = .next t →
    t = { s with pending := rest, readData := t.readData, freeCtr := t.freeCtr }

/-- R218: faults are precise: an access that turns `FAULT` from 0 to 1 leaves all state other than `STATUS` exactly as
it was. -/
def Obligations.FaultsArePrecise : Prop :=
  ∀ (a : HostAccess) (s t : State),
    unfaulted s → hostAccess a s = .next t → faulted t → t = { s with status := t.status }

/-- R102, R151, R212 (b), R213 (c), R215 (a): a command that answers a next state from `FAULT = 0` has raised a fault if
and only if it is QPCM with `bps` 0, `bps` above `BPS_MAX` or `NSAMP*bps > MAX_LEN`, or a scrambler on a signal that is
not AMI or is already scrambled. -/
def Obligations.CommandFaultsExactlyWhen : Prop :=
  ∀ (i : Instr) (s t : State), unfaulted s → exec i s = .next t →
    (faulted t ↔
      (∃ bps, i = .qpcm bps ∧
        (bps.toNat = 0 ∨ bps.toNat > s.params.bpsMax ∨ s.nsamp * bps.toNat > s.params.maxLen)) ∨
      ((i = .sb8zs ∨ i = .shdb3) ∧ (flagsScheme s.flags ≠ 4 ∨ flagsScr s.flags ≠ 0)))

/-- R102, R212 (b), R213 (c), R217: QPCM with `bps` 0 or above `BPS_MAX` raises InvalidSelection, too many samples or
not; with a legal `bps` and `NSAMP*bps > MAX_LEN` it raises CapacityExceeded. -/
def Obligations.QpcmFaultsAndTheirPriority : Prop :=
  ∀ (s : State) (bps : BitVec 8), unfaulted s →
    ((bps.toNat = 0 ∨ bps.toNat > s.params.bpsMax) → RaisesOnly (exec (.qpcm bps) s) s 1) ∧
    (1 ≤ bps.toNat → bps.toNat ≤ s.params.bpsMax → s.nsamp * bps.toNat > s.params.maxLen →
      RaisesOnly (exec (.qpcm bps) s) s 2)

/-- R151: SB8ZS and SHDB3 on a signal that is not AMI, or is already scrambled, raise PreconditionViolated and change
nothing else; so they do after reset, where `SIG_SCHEME` is 7; SNONE has no precondition. -/
def Obligations.ScramblerPreconditionFault : Prop :=
  (∀ s : State, unfaulted s → (flagsScheme s.flags ≠ 4 ∨ flagsScr s.flags ≠ 0) →
    RaisesOnly (exec .sb8zs s) s 3 ∧ RaisesOnly (exec .shdb3 s) s 3) ∧
  (∀ p : Params, flagsScheme (State.resetWith p).flags = 7 ∧
    RaisesOnly (exec .sb8zs (State.resetWith p)) (State.resetWith p) 3 ∧
    RaisesOnly (exec .shdb3 (State.resetWith p)) (State.resetWith p) 3) ∧
  (∀ s : State, exec .snone s = .next s)

/-! ## Control commands -/

/-- R86, R200, R152: NOP and SNONE, each of one word, complete and change no state. -/
def Obligations.NopAndSnoneChangeNothing : Prop :=
  HasTheWord .nop 0x0000#16 ∧ HasTheWord .snone 0x3000#16 ∧
  ∀ s : State, exec .nop s = .next s ∧ exec .snone s = .next s

/-- R201: CLRB writes `NBITS <- 0` and `PAL_VALID <- 0` and nothing else; the elements are not written. -/
def Obligations.ClrbEmptiesTheBitSequence : Prop :=
  HasTheWord .clrb 0x0100#16 ∧ ∀ s : State, unfaulted s →
    ∃ f, exec .clrb s = .next { s with nbits := 0, flags := f } ∧
      FlagsAre f (flagsScheme s.flags) (flagsScr s.flags) (flagsDouble s.flags) false (flagsZrValid s.flags)
        (flagsReserved s.flags)

/-- R202: CLRS writes `NSAMP <- 0` and nothing else. -/
def Obligations.ClrsEmptiesTheSampleSequence : Prop :=
  HasTheWord .clrs 0x0200#16 ∧ ∀ s : State, unfaulted s → exec .clrs s = .next { s with nsamp := 0 }

/-! ## Quantizers -/

/-- R102, R103, R104 (a): QPCM in exact arithmetic: the minimum and maximum of the samples, and for each sample its
level index, most significant bit first, into `BITS[k*bps + j]`; the elements beyond and everything else are kept. -/
def Obligations.QpcmQuantizesExactly : Prop :=
  ∀ (s : State) (bps : BitVec 8) (xs : List Sample) (lo hi : Sample),
    unfaulted s → 1 ≤ bps.toNat → bps.toNat ≤ s.params.bpsMax → s.nsamp * bps.toNat ≤ s.params.maxLen →
    s.params.numerics = .exact → sampSeq s = some xs →
    lo ∈ xs → hi ∈ xs → (∀ x ∈ xs, lo ≤ x ∧ x ≤ hi) →
    ∃ bits f,
      exec (.qpcm bps) s = .next { s with
        bits := bits, nbits := s.nsamp * bps.toNat, qmin := lo, qmax := hi, idx := s.nsamp, flags := f } ∧
      FlagsAre f (flagsScheme s.flags) (flagsScr s.flags) (flagsDouble s.flags) false (flagsZrValid s.flags)
        (flagsReserved s.flags) ∧
      (∀ k j x, xs[k]? = some x → j < bps.toNat →
        bufRead bits (k * bps.toNat + j) =
          some (Nat.testBit
            (if hi = lo then 0
             else min (2 ^ bps.toNat - 1) ((x - lo) * ((2 ^ bps.toNat : Nat) : Rat) / (hi - lo)).floor.toNat)
            (bps.toNat - 1 - j))) ∧
      (∀ i, s.nsamp * bps.toNat ≤ i → bufRead bits i = bufRead s.bits i)

/-- R101, R102, U9: QPCM in binary64 arithmetic completes the same way, with a level index that has R101's three
properties: it is in `0 .. levels-1`, it is 0 when `max = min`, and it is non-decreasing in the sample (log entry 8). -/
def Obligations.QpcmBinary64IndexProperties : Prop :=
  ∀ (s : State) (bps : BitVec 8) (xs : List Sample) (lo hi : Sample),
    unfaulted s → 1 ≤ bps.toNat → bps.toNat ≤ s.params.bpsMax → s.nsamp * bps.toNat ≤ s.params.maxLen →
    s.params.numerics = .binary64 → sampSeq s = some xs →
    lo ∈ xs → hi ∈ xs → (∀ x ∈ xs, lo ≤ x ∧ x ≤ hi) →
    ∃ bits f, ∃ index : Sample → Nat,
      exec (.qpcm bps) s = .next { s with
        bits := bits, nbits := s.nsamp * bps.toNat, qmin := lo, qmax := hi, idx := s.nsamp, flags := f } ∧
      FlagsAre f (flagsScheme s.flags) (flagsScr s.flags) (flagsDouble s.flags) false (flagsZrValid s.flags)
        (flagsReserved s.flags) ∧
      (∀ x, index x ≤ 2 ^ bps.toNat - 1) ∧ (hi = lo → ∀ x, index x = 0) ∧
      (∀ x y, x ≤ y → index x ≤ index y) ∧
      (∀ k j x, xs[k]? = some x → j < bps.toNat →
        bufRead bits (k * bps.toNat + j) = some (Nat.testBit (index x) (bps.toNat - 1 - j))) ∧
      (∀ i, s.nsamp * bps.toNat ≤ i → bufRead bits i = bufRead s.bits i)

/-- R104 (b): QPCM on the empty sample sequence gives the empty bit sequence, no fault, in either arithmetic; `QMIN`
and `QMAX` are kept. -/
def Obligations.QpcmOfNoSamples : Prop :=
  ∀ (s : State) (bps : BitVec 8), unfaulted s → 1 ≤ bps.toNat → bps.toNat ≤ s.params.bpsMax → s.nsamp = 0 →
    ∃ f, exec (.qpcm bps) s = .next { s with nbits := 0, idx := 0, flags := f } ∧
      FlagsAre f (flagsScheme s.flags) (flagsScr s.flags) (flagsDouble s.flags) false (flagsZrValid s.flags)
        (flagsReserved s.flags)

/-- R103: under `EXACT` the document's step, floor and clamp equal
`min(levels-1, floor((s - min) * levels / (max - min)))`. -/
def Obligations.PcmIndexHasTheClosedForm : Prop :=
  ∀ (x lo hi : Sample) (levels : Nat), 2 ≤ levels → lo ≤ x → x ≤ hi → lo < hi →
    pcmIndex .exact x lo hi levels = min (levels - 1) ((x - lo) * (levels : Rat) / (hi - lo)).floor.toNat

/-- R105: the level index is non-decreasing in the sample, for both arithmetics (binary64: log entry 8). -/
def Obligations.PcmIndexIsMonotone : Prop :=
  ∀ (numerics : Numerics) (x y lo hi : Sample) (levels : Nat),
    lo ≤ x → x ≤ y → y ≤ hi → pcmIndex numerics x lo hi levels ≤ pcmIndex numerics y lo hi levels

/-- R105, R103: in exact arithmetic the minimum has index 0, the maximum has index `levels-1`, and no sample below the
maximum is clamped. -/
def Obligations.PcmIndexEndPoints : Prop :=
  ∀ (lo hi : Sample) (levels : Nat), 2 ≤ levels → lo < hi →
    pcmIndex .exact lo lo hi levels = 0 ∧ pcmIndex .exact hi lo hi levels = levels - 1 ∧
    ∀ x, lo ≤ x → x < hi → ((x - lo) / ((hi - lo) / (levels : Rat))).floor < levels

/-- R106, R108: QDM emits 1 exactly where the sample exceeds the running prediction, which starts at 0 and moves by
1/2, up on a 1 and down on a 0; it completes, and writes nothing else but the registers named. That this holds under
`BINARY64` too, with no bound on `MAX_LEN`, is the model's choice (log entry 8). -/
def Obligations.QdmTracksThePrediction : Prop :=
  HasTheWord .qdm 0x1100#16 ∧ ∀ (s : State) (xs : List Sample) (prediction : Nat → Sample),
    unfaulted s → sampSeq s = some xs → prediction 0 = 0 →
    (∀ k x, xs[k]? = some x →
      prediction (k + 1) = if x > prediction k then prediction k + 1 / 2 else prediction k - 1 / 2) →
    ∃ bits f,
      exec .qdm s = .next { s with
        bits := bits, nbits := s.nsamp, pred := prediction s.nsamp, idx := s.nsamp, flags := f } ∧
      FlagsAre f (flagsScheme s.flags) (flagsScr s.flags) (flagsDouble s.flags) false (flagsZrValid s.flags)
        (flagsReserved s.flags) ∧
      (∀ k x, xs[k]? = some x → bufRead bits k = some (decide (x > prediction k))) ∧
      (∀ i, s.nsamp ≤ i → bufRead bits i = bufRead s.bits i)

/-- R107: the prediction after QDM is (ones - zeros)/2 of the bits it wrote; under `BINARY64` too, with no bound on
`MAX_LEN`, by the model's choice (log entry 8). -/
def Obligations.QdmPredictionCountsItsBits : Prop :=
  ∀ (s t : State) (b : List Bit), unfaulted s → exec .qdm s = .next t → bitSeq t = some b →
    t.pred = ((b.count true : Rat) - (b.count false : Rat)) / 2

/-! ## Line encoder -/

/-- R127: the complete transition table of the line-code state machine. -/
def Obligations.TransitionTable : Prop :=
  (∀ v, encStep .nrzL v false = (v, [.neg]) ∧ encStep .nrzL v true = (v, [.pos])) ∧
  (encStep .nrzI .neg false = (.neg, [.neg]) ∧ encStep .nrzI .neg true = (.pos, [.pos]) ∧
    encStep .nrzI .pos false = (.pos, [.pos]) ∧ encStep .nrzI .pos true = (.neg, [.neg])) ∧
  (∀ v, encStep .manchester v false = (v, [.pos, .neg]) ∧ encStep .manchester v true = (v, [.neg, .pos])) ∧
  (encStep .diffManchester .neg false = (.neg, [.pos, .neg]) ∧
    encStep .diffManchester .neg true = (.pos, [.neg, .pos]) ∧
    encStep .diffManchester .pos false = (.pos, [.neg, .pos]) ∧
    encStep .diffManchester .pos true = (.neg, [.pos, .neg])) ∧
  (encStep .ami .neg false = (.neg, [.zero]) ∧ encStep .ami .neg true = (.pos, [.neg]) ∧
    encStep .ami .pos false = (.pos, [.zero]) ∧ encStep .ami .pos true = (.neg, [.pos]))

/-- R128, R122, R26, R120: ENL completes; `SIG[i]` is +1 if and only if `BITS[i]` is 1, else -1; `RUNVAR` is not written,
on the empty sequence too (log entry 18). -/
def Obligations.EnlEncodes : Prop :=
  HasTheWord .enl 0x2000#16 ∧ ∀ (s : State) (b : List Bit), unfaulted s → bitSeq s = some b →
    ∃ out : List Level, EncodesAs .enl s 0 false s.nbits out s.runvar ∧
      ∀ (i : Nat) (bit : Bit), b[i]? = some bit → out[i]? = some (if bit then .pos else .neg)

/-- R129, R120: ENI completes; `SIG[i] = -1 * (-1)^(number of 1 bits in BITS[0 .. i])`, and `LEVEL` ends at the same
expression over the whole input. -/
def Obligations.EniEncodes : Prop :=
  HasTheWord .eni 0x2100#16 ∧ ∀ (s : State) (b : List Bit), unfaulted s → bitSeq s = some b →
    ∃ out : List Level, EncodesAs .eni s 1 false s.nbits out (if onesBefore b b.length % 2 = 0 then .neg else .pos) ∧
      ∀ i : Nat, i < b.length → out[i]? = some (if onesBefore b (i + 1) % 2 = 0 then .neg else .pos)

/-- R130, R133, R120: EMAN completes; bit `i` occupies `SIG[2i]` and `SIG[2i+1]`, (+1, -1) for 0 and (-1, +1) for 1;
`RUNVAR` is not written, on the empty sequence too (log entry 18). -/
def Obligations.EmanEncodes : Prop :=
  HasTheWord .eman 0x2200#16 ∧ ∀ (s : State) (b : List Bit), unfaulted s → bitSeq s = some b →
    ∃ out : List Level, EncodesAs .eman s 2 true (2 * s.nbits) out s.runvar ∧
      ∀ (i : Nat) (bit : Bit), b[i]? = some bit →
        out[2 * i]? = some (if bit then .neg else .pos) ∧ out[2 * i + 1]? = some (if bit then .pos else .neg)

/-- R125, R131, R133, R120: EDMAN completes; with the state before bit `i` at -1 if the 1 bits before it are even in
number and +1 if odd, a 0 bit emits (-state, state) and a 1 bit (state, -state). -/
def Obligations.EdmanEncodes : Prop :=
  HasTheWord .edman 0x2300#16 ∧ ∀ (s : State) (b : List Bit), unfaulted s → bitSeq s = some b →
    ∃ out : List Level,
      EncodesAs .edman s 3 true (2 * s.nbits) out (if onesBefore b b.length % 2 = 0 then .neg else .pos) ∧
      ∀ (i : Nat) (bit : Bit), b[i]? = some bit →
        out[2 * i]? = some (if (onesBefore b i % 2 = 0 ↔ bit = true) then .neg else .pos) ∧
        out[2 * i + 1]? = some (if (onesBefore b i % 2 = 0 ↔ bit = true) then .pos else .neg)

/-- R132, R120: EAMI completes; `SIG[i]` is 0 if `BITS[i]` is 0, else +1 if the 1 bits in `BITS[0 .. i)` are even in
number, else -1; `POLARITY` ends at +1 or -1 by the same count over the whole input. -/
def Obligations.EamiEncodes : Prop :=
  HasTheWord .eami 0x2400#16 ∧ ∀ (s : State) (b : List Bit), unfaulted s → bitSeq s = some b →
    ∃ out : List Level, EncodesAs .eami s 4 false s.nbits out (if onesBefore b b.length % 2 = 0 then .pos else .neg) ∧
      ∀ (i : Nat) (bit : Bit), b[i]? = some bit →
        out[i]? = some (if bit then (if onesBefore b i % 2 = 0 then .pos else .neg) else .zero)

/-- R135: running an encoder command twice on the same bit sequence yields identical signals, lengths, flags and
running variable. -/
def Obligations.EncodingTwiceGivesTheSameSignal : Prop :=
  ∀ (i : Instr) (s t : State), i ∈ [Instr.enl, .eni, .eman, .edman, .eami] → exec i s = .next t →
    ∃ u, exec i t = .next u ∧
      sigSeq u = sigSeq t ∧ u.nsig = t.nsig ∧ u.flags = t.flags ∧ u.runvar = t.runvar

/-! ## Scramblers -/

/-- R153, R161, R162: on an unscrambled AMI signal SB8ZS completes; it sets `SIG_SCR` 1 and clears `ZR_VALID`, keeps
`NSIG`, every element beyond the signal and everything else but `ZC`, `SUBPOL` and `IDX`. -/
def Obligations.Sb8zsCompletes : Prop :=
  ∀ (s : State) (x : List Level),
    unfaulted s → flagsScheme s.flags = 4 → flagsScr s.flags = 0 → sigSeq s = some x →
    ∃ sig f zc subpol, exec .sb8zs s = .next { s with
        sig := sig, flags := f, zc := zc, subpol := subpol, idx := s.nsig } ∧
      FlagsAre f 4 1 (flagsDouble s.flags) (flagsPalValid s.flags) false (flagsReserved s.flags) ∧
      zc = trailingZeros x % 8 ∧ subpol = substitutionPolarity (fullWindows 8 x) ∧
      (∀ i, s.nsig ≤ i → bufRead sig i = bufRead s.sig i) ∧
      (∀ i l, x[i]? = some l → l ≠ .zero → bufRead sig i = some l)

/-- R153 to R155, R156 (b) to (d): the signal SB8ZS leaves is its input with the substitution of R154 in the last four
places of each full window of eight zeros, the windows of a run counted from its first zero, the codes alternating from (0,+,0,-), and no other change. -/
def Obligations.Sb8zsSubstitutes : Prop :=
  ∀ (s t : State) (x y : List Level),
    unfaulted s → flagsScheme s.flags = 4 → flagsScr s.flags = 0 → sigSeq s = some x →
    exec .sb8zs s = .next t → sigSeq t = some y → ∃ ends, IsB8zsOf x y ends

/-- R157, R161, R162: on an unscrambled AMI signal SHDB3 completes; it sets `SIG_SCR` 2 and clears `ZR_VALID`, keeps
`NSIG`, every element beyond the signal and everything else but `ZC`, `OC`, `SUBPOL` and `IDX`. -/
def Obligations.Shdb3Completes : Prop :=
  ∀ (s : State) (x : List Level),
    unfaulted s → flagsScheme s.flags = 4 → flagsScr s.flags = 0 → sigSeq s = some x →
    ∃ sig f zc oc subpol, exec .shdb3 s = .next { s with
        sig := sig, flags := f, zc := zc, oc := oc, subpol := subpol, idx := s.nsig } ∧
      FlagsAre f 4 2 (flagsDouble s.flags) (flagsPalValid s.flags) false (flagsReserved s.flags) ∧
      zc = trailingZeros x % 4 ∧ subpol = substitutionPolarity (fullWindows 4 x) ∧
      (∀ i, s.nsig ≤ i → bufRead sig i = bufRead s.sig i) ∧
      (∀ i l, x[i]? = some l → l ≠ .zero → bufRead sig i = some l)

/-- R158, R163, R159 (b) to (d): the signal SHDB3 leaves is its input with the substitution of R158 in each full window
of four zeros, the windows of a run counted from its first zero, both ends or the last position only by the parity of the marks since the substitution before it, the
polarity alternating from +1, and no other change; `OC` ends as the marks after the last window. -/
def Obligations.Shdb3Substitutes : Prop :=
  ∀ (s t : State) (x y : List Level),
    unfaulted s → flagsScheme s.flags = 4 → flagsScr s.flags = 0 → sigSeq s = some x →
    exec .shdb3 s = .next t → sigSeq t = some y →
    ∃ ends, IsHdb3Of x y ends ∧ t.oc = marksIn x (countStart ends ends.length) x.length

/-- R156 (a), R159 (a): after SB8ZS no 8 consecutive elements of the signal are all 0, after SHDB3 no 4. -/
def Obligations.ScramblersBoundTheZeroRuns : Prop :=
  ∀ (s t : State) (y : List Level), unfaulted s → unfaulted t → sigSeq t = some y →
    (exec .sb8zs s = .next t → ∀ start len, IsZeroRun y start len → len ≤ 7) ∧
    (exec .shdb3 s = .next t → ∀ start len, IsZeroRun y start len → len ≤ 3)

/-- R151, R90: after EAMI either scrambler runs, once: a second scrambler command raises PreconditionViolated and
changes nothing else. -/
def Obligations.ScrambleOnceAfterEami : Prop :=
  ∀ (s t u : State) (i j : Instr), i ∈ [Instr.sb8zs, .shdb3] → j ∈ [Instr.sb8zs, .shdb3] →
    unfaulted s → exec .eami s = .next t → exec i t = .next u →
    unfaulted u ∧ RaisesOnly (exec j u) u 3

/-! ## Analyzers -/

/-- R181, R184: APAL completes; it writes the palindrome result, `PAL_VALID` and its hidden registers, and nothing
else; (0, 0) for the empty input, a length of at least 1 for any other and at least 2 from three bits on. -/
def Obligations.ApalCompletes : Prop :=
  ∀ (s : State) (b : List Bit), unfaulted s → bitSeq s = some b →
    ∃ start len radius cen rgt idx f,
      exec .apal s = .next { s with
        palStart := start, palLen := len, radius := radius, cen := cen, rgt := rgt, idx := idx, flags := f } ∧
      FlagsAre f (flagsScheme s.flags) (flagsScr s.flags) (flagsDouble s.flags) true (flagsZrValid s.flags)
        (flagsReserved s.flags) ∧
      (b = [] → start = 0 ∧ len = 0) ∧ (b ≠ [] → 1 ≤ len) ∧ (3 ≤ b.length → 2 ≤ len)

/-- R182: APAL reports the greatest length of any palindromic substring and the least start of one of that length. -/
def Obligations.ApalFindsTheLongestPalindrome : Prop :=
  ∀ (s t : State) (b : List Bit), unfaulted s → bitSeq s = some b → exec .apal s = .next t →
    IsLongestPalindrome b t.palStart t.palLen

/-- R183, R27: after APAL on a non-empty sequence entry `c` of `P` is the radius of the palindrome centered at `c` of
the interleaved sequence, for every center; entries beyond are kept, and `IDX` has reached `2*NBITS+1`. `P` and `IDX` are
those of R183's algorithm, which the spec marks as general knowledge and R181 allows to differ (log entry 20). -/
def Obligations.ApalRadiiAreMaximal : Prop :=
  ∀ (s t : State) (b : List Bit), unfaulted s → bitSeq s = some b → b ≠ [] → exec .apal s = .next t →
    t.idx = 2 * b.length + 1 ∧
    (∀ c, c ≤ 2 * b.length → ∃ r, t.radius[c]? = some r ∧ IsRadiusAt s.params.sep b c r) ∧
    (∀ c, 2 * b.length < c → t.radius[c]? = s.radius[c]?)

/-- R187, R189, R188: AZRUN completes on whatever `SIG` holds; it reports the longest zero run, leftmost on ties, (0, 0)
when there is none; `CURLEN` is the length of the zero run at the signal's end and `CURSTART` the start of its last zero
run, 0 when there is none; it writes nothing else but `IDX` and `ZR_VALID`. -/
def Obligations.AzrunFindsTheLongestZeroRun : Prop :=
  ∀ (s : State) (x : List Level), unfaulted s → sigSeq s = some x →
    ∃ start count curStart f,
      exec .azrun s = .next { s with
        zrStart := start, zrCount := count, curStart := curStart, curLen := trailingZeros x, idx := s.nsig,
        flags := f } ∧
      FlagsAre f (flagsScheme s.flags) (flagsScr s.flags) (flagsDouble s.flags) (flagsPalValid s.flags) true
        (flagsReserved s.flags) ∧
      IsLongestZeroRun x start count ∧ IsLastZeroRunStart x curStart

/-- R156 (a), R159 (a), R187: AZRUN after a scrambler pass reports at most 7 zeros after SB8ZS and at most 3 after
SHDB3. -/
def Obligations.ScramblingBoundsTheReportedRun : Prop :=
  ∀ s t u : State, unfaulted s → unfaulted t → exec .azrun t = .next u →
    (exec .sb8zs s = .next t → u.zrCount ≤ 7) ∧ (exec .shdb3 s = .next t → u.zrCount ≤ 3)

/-- R185, R186: the palindrome report is the template with the bits of the result as characters and its length. -/
def Obligations.PalindromeReportText : Prop :=
  ∀ (s : State) (b : List Bit),
    flagsPalValid s.flags = true → bitSeq s = some b → s.palStart + s.palLen ≤ b.length →
    palReport s = some ("Longest Palindrome: " ++
      String.ofList (((b.drop s.palStart).take s.palLen).map fun bit => if bit then '1' else '0') ++
      " (Length: " ++ toString s.palLen ++ ")")

/-- R190: the zero-run report is emitted only when a scrambling pass ran, the zero-run result is valid and it found at
least one zero; its text is the template. -/
def Obligations.ZeroRunReportText : Prop :=
  ∀ s : State,
    (zrReport s ≠ none ↔ flagsZrValid s.flags = true ∧ flagsScr s.flags ≠ 0 ∧ 1 ≤ s.zrCount) ∧
    (∀ text, zrReport s = some text → text =
      "Longest zero sequence: " ++ toString s.zrCount ++ " zeros starting at position " ++ toString s.zrStart)

/-! ## The host's pushes and reads -/

/-- R62, R213 (a), R219: `BITS_PUSH` appends one bit and clears `PAL_VALID`; on a full buffer it raises
CapacityExceeded; while `FAULT = 1` it has no effect. -/
def Obligations.BitsPushAppends : Prop :=
  ∀ (s : State) (b : Bit),
    (faulted s → hostAccess (.bitsPush b) s = .next s) ∧
    (unfaulted s → s.nbits = s.params.maxLen → RaisesOnly (hostAccess (.bitsPush b) s) s 2) ∧
    (unfaulted s → s.nbits < s.params.maxLen →
      ∃ bits f, hostAccess (.bitsPush b) s = .next { s with bits := bits, nbits := s.nbits + 1, flags := f } ∧
        WrittenAt s.bits bits s.nbits b ∧
        FlagsAre f (flagsScheme s.flags) (flagsScr s.flags) (flagsDouble s.flags) false (flagsZrValid s.flags)
          (flagsReserved s.flags))

/-- R63, R213 (b), R215 (b), R217, R219: `SAMP_PUSH` of a pattern: an infinity or a NaN raises PreconditionViolated even
when the buffer is full; a finite sample into a full buffer raises CapacityExceeded; else its value is appended and no
flag changes. -/
def Obligations.SampPushAppends : Prop :=
  ∀ (s : State) (w : BitVec 64), s.params.sampleFormat = .binary64 →
    (faulted s → hostAccess (.sampPush (.binary64 w)) s = .next s) ∧
    (unfaulted s → sampleValue w = none → RaisesOnly (hostAccess (.sampPush (.binary64 w)) s) s 3) ∧
    (∀ q, unfaulted s → sampleValue w = some q → s.nsamp = s.params.maxLen →
      RaisesOnly (hostAccess (.sampPush (.binary64 w)) s) s 2) ∧
    (∀ q, unfaulted s → sampleValue w = some q → s.nsamp < s.params.maxLen →
      ∃ samp, hostAccess (.sampPush (.binary64 w)) s = .next { s with samp := samp, nsamp := s.nsamp + 1 } ∧
        WrittenAt s.samp samp s.nsamp q)

/-- R63, U8: with `SAMPLE_FORMAT = RATIONAL` the port carries one rational, which is appended; a word in the format the
port does not carry is refused, in either direction (the refusal is the model's choice, log entry 13). -/
def Obligations.SampPushOfRationals : Prop :=
  ∀ (s : State) (q : Sample) (w : BitVec 64),
    (s.params.sampleFormat = .rational → faulted s → hostAccess (.sampPush (.rational q)) s = .next s) ∧
    (s.params.sampleFormat = .rational → unfaulted s → s.nsamp = s.params.maxLen →
      RaisesOnly (hostAccess (.sampPush (.rational q)) s) s 2) ∧
    (s.params.sampleFormat = .rational → unfaulted s → s.nsamp < s.params.maxLen →
      ∃ samp, hostAccess (.sampPush (.rational q)) s = .next { s with samp := samp, nsamp := s.nsamp + 1 } ∧
        WrittenAt s.samp samp s.nsamp q) ∧
    (s.params.sampleFormat = .rational → hostAccess (.sampPush (.binary64 w)) s = .refused .portFormat) ∧
    (s.params.sampleFormat = .binary64 → hostAccess (.sampPush (.rational q)) s = .refused .portFormat)

/-- R22, R67: a pattern with exponent field `e` and fraction `f` denotes `± f * 2^-1074` when `e = 0`,
`± (2^52 + f) * 2^(e-1075)` when `0 < e < 2047`, and no sample when `e = 2047` (log entry 14). -/
def Obligations.SampleValueIsBinary64 : Prop :=
  ∀ w : BitVec 64,
    (w.toNat / 2 ^ 52 % 2048 = 2047 → sampleValue w = none) ∧
    (w.toNat / 2 ^ 52 % 2048 = 0 → sampleValue w =
      some ((-1) ^ (w.toNat / 2 ^ 63) * ((w.toNat % 2 ^ 52 : Nat) : Rat) * (2 : Rat) ^ (-1074 : Int))) ∧
    (w.toNat / 2 ^ 52 % 2048 ≠ 0 → w.toNat / 2 ^ 52 % 2048 ≠ 2047 → sampleValue w =
      some ((-1) ^ (w.toNat / 2 ^ 63) * ((2 ^ 52 + w.toNat % 2 ^ 52 : Nat) : Rat) *
        (2 : Rat) ^ (((w.toNat / 2 ^ 52 % 2048 : Nat) : Int) - 1075)))

/-- R64, R69: a read of an element below the length register returns it (a level as its 2-bit code; a sample, under
`SAMPLE_FORMAT = BINARY64`, as a pattern that denotes it, the one there is but for the sign of a zero, a free value), a
read of a register returns its value whole, and neither changes anything but the data the host has read (the model's own field, log
entry 7), whether or not `FAULT` is set. -/
def Obligations.ReadReturnsTheElementOrRegister : Prop :=
  ∀ (s : State) (i : Nat),
    (∀ b, i < s.nbits → bufRead s.bits i = some b →
      hostAccess (.read (.bits i)) s = .next { s with readData := some (.bit b) }) ∧
    (∀ l, i < s.nsig → bufRead s.sig i = some l →
      hostAccess (.read (.sig i)) s = .next { s with readData := some (.level l.code) }) ∧
    (∀ q, i < s.nsamp → bufRead s.samp i = some q → s.params.sampleFormat = .rational →
      hostAccess (.read (.samp i)) s = .next { s with readData := some (.rational q) }) ∧
    (∀ q w, i < s.nsamp → bufRead s.samp i = some q → s.params.sampleFormat = .binary64 → sampleValue w = some q →
      ∃ v ctr, sampleValue v = some q ∧ (q ≠ 0 → v = w ∧ ctr = s.freeCtr) ∧
        hostAccess (.read (.samp i)) s = .next { s with readData := some (.pattern v), freeCtr := ctr }) ∧
    hostAccess (.read .nbits) s = .next { s with readData := some (.count s.nbits) } ∧
    hostAccess (.read .nsamp) s = .next { s with readData := some (.count s.nsamp) } ∧
    hostAccess (.read .nsig) s = .next { s with readData := some (.count s.nsig) } ∧
    hostAccess (.read .status) s = .next { s with readData := some (.status s.status) } ∧
    hostAccess (.read .flags) s = .next { s with readData := some (.flags s.flags) } ∧
    hostAccess (.read .palStart) s = .next { s with readData := some (.count s.palStart) } ∧
    hostAccess (.read .palLen) s = .next { s with readData := some (.count s.palLen) } ∧
    hostAccess (.read .zrStart) s = .next { s with readData := some (.count s.zrStart) } ∧
    hostAccess (.read .zrCount) s = .next { s with readData := some (.count s.zrCount) }

/-- R64: a finite pattern pushed to `SAMP_PUSH` is read back as the same pattern, unless it denotes 0; then the pattern
read is one of the two zeros, the sign a free value (log entry 7). -/
def Obligations.PushedSampleReadsBack : Prop :=
  ∀ (s t : State) (w : BitVec 64) (q : Sample),
    unfaulted s → s.params.sampleFormat = .binary64 → sampleValue w = some q → s.nsamp < s.params.maxLen →
    hostAccess (.sampPush (.binary64 w)) s = .next t →
    (q ≠ 0 → hostAccess (.read (.samp s.nsamp)) t = .next { t with readData := some (.pattern w) }) ∧
    (q = 0 → ∃ z, sampleValue z = some 0 ∧ hostAccess (.read (.samp s.nsamp)) t =
      .next { t with readData := some (.pattern z), freeCtr := t.freeCtr + 1 })

/-- R61, R35, U7: a read of an element at or above the length register, and a read of `CMD`, returns some value of the
right width, raises nothing and changes nothing of LCE; the value is free (log entry 7). -/
def Obligations.ReadBeyondTheSequenceChangesNothing : Prop :=
  ∀ (s : State) (i : Nat),
    (s.nbits ≤ i → ∃ b, hostAccess (.read (.bits i)) s =
      .next { s with readData := some (.bit b), freeCtr := s.freeCtr + 1 }) ∧
    (s.nsig ≤ i → ∃ c, hostAccess (.read (.sig i)) s =
      .next { s with readData := some (.level c), freeCtr := s.freeCtr + 1 }) ∧
    (s.nsamp ≤ i → s.params.sampleFormat = .binary64 → ∃ w, hostAccess (.read (.samp i)) s =
      .next { s with readData := some (.pattern w), freeCtr := s.freeCtr + 1 }) ∧
    (s.nsamp ≤ i → s.params.sampleFormat = .rational → ∃ q, hostAccess (.read (.samp i)) s =
      .next { s with readData := some (.rational q), freeCtr := s.freeCtr + 1 }) ∧
    (∃ w, hostAccess (.read .cmd) s = .next { s with readData := some (.command w), freeCtr := s.freeCtr + 1 })

/-! ## Reset -/

/-- R240, R43: reset from any state makes the three sequences empty, clears `STATUS`, makes `FLAGS` 0x0007 and the
result registers 0, and gives each working register for which R43 lists a value that value; the machine's reset state
has the same values. -/
def Obligations.ResetGivesTheTableOfR43 : Prop :=
  (∀ s : State, ∃ t, hostAccess .reset s = .next t ∧ HasResetTable t) ∧
  HasResetTable State.reset

/-! ## Invariants of every step -/

/-- R12, R24, R26 to R31, R36, R37, R42: every step keeps the invariants of 10_state.md, with the buffers in canonical
form (the form is the model's choice, log entry 3; the registers as bounded naturals, log entry 11). -/
def Obligations.EveryStepKeepsTheInvariants : Prop :=
  ∀ s t : State, s.Inv → step s = .next t → t.Inv

/-- R43, R42: the reset state of every implementation has the invariants (with the values of log entries 1 and 2). -/
def Obligations.ResetHasTheInvariants : Prop :=
  (∀ p : Params, p.wf → (State.resetWith p).Inv) ∧ State.reset.Inv

/-- R218, R91, R42 (a): a step from a state with the invariants never ends in the model's fault, and is refused only for
a sample push in a format the port does not carry (log entries 12 and 13). -/
def Obligations.EveryStepAnswers : Prop :=
  ∀ s : State, s.Inv →
    (∃ t, step s = .next t) ∨
    (step s = .refused .portFormat ∧ ∃ v rest, s.pending = .sampPush v :: rest)

/-- R37: while `PAL_VALID` or `ZR_VALID` is 1 the result registers describe the current sequence: every step keeps
this, and it holds at reset. -/
def Obligations.ValidFlagsTellTheTruth : Prop :=
  (∀ s t : State, ResultsFresh s → step s = .next t → ResultsFresh t) ∧ ∀ p, ResultsFresh (State.resetWith p)

/-- R44, R7: no step changes the parameters (which the state carries by the model's choice, log entry 17). -/
def Obligations.NoStepChangesTheParameters : Prop :=
  ∀ s t : State, step s = .next t → t.params = s.params

/-! ## The hidden registers of APAL -/

/-- R183: after APAL on a non-empty sequence `RGT` is the right end `2*NBITS` of the interleaved sequence, and `CEN` the
leftmost center whose palindrome reaches it. They are those of R183's algorithm, which the spec marks as general
knowledge and R181 allows to differ (log entry 20). -/
def Obligations.ApalLeavesTheLongestSuffixPalindrome : Prop :=
  ∀ (s t : State) (b : List Bit), unfaulted s → bitSeq s = some b → b ≠ [] → exec .apal s = .next t →
    t.rgt = 2 * b.length ∧ t.cen ≤ 2 * b.length ∧
    IsRadiusAt s.params.sep b t.cen (2 * b.length - t.cen) ∧
    ∀ c r, c < t.cen → IsRadiusAt s.params.sep b c r → c + r < 2 * b.length

/-- R7, U10: the palindrome result does not depend on which symbol the separator is. -/
def Obligations.PalindromeResultIgnoresTheSeparator : Prop :=
  ∀ (sep sep' : Nat) (b : List Bit), longestPalindrome sep b = longestPalindrome sep' b
end

