-- ==== Sys2Proof/Laws/Flags.lean ====
section
/-!
SUPPORT. The fields of `STATUS` and `FLAGS` after each update: every getter of a packed word, and what each command's
flag write leaves.
-/

namespace Sys2Proof.Machine

open Sys2Proof

section Status
variable (busy fault : Bool) (errcode : BitVec 2) (reserved : BitVec 4)

/-- The layout of `STATUS`, bit by bit. -/
theorem getLsbD_statusPack (i : Nat) :
    (statusPack busy fault errcode reserved).getLsbD i =
      if i = 0 then busy else if i = 1 then fault else if i < 4 then errcode.getLsbD (i - 2)
      else reserved.getLsbD (i - 4) := by
  change BitVec.getLsbD (w := 4 + 2 + 1 + 1) (reserved ++ errcode ++ BitVec.ofBool fault ++ BitVec.ofBool busy) i = _
  simp only [BitVec.getLsbD_append]
  rcases i with _ | _ | _ | _ | i <;> simp

@[simp] theorem statusBusy_pack : statusBusy (statusPack busy fault errcode reserved) = busy :=
  getLsbD_statusPack busy fault errcode reserved 0
@[simp] theorem statusFault_pack : statusFault (statusPack busy fault errcode reserved) = fault :=
  getLsbD_statusPack busy fault errcode reserved 1
@[simp] theorem statusErrcode_pack : statusErrcode (statusPack busy fault errcode reserved) = errcode := by
  refine BitVec.eq_of_getLsbD_eq fun i hi => ?_
  rw [statusErrcode, BitVec.getLsbD_extractLsb', getLsbD_statusPack, if_neg (by omega), if_neg (by omega),
    if_pos (by omega)]
  simp [hi]
@[simp] theorem statusReserved_pack : statusReserved (statusPack busy fault errcode reserved) = reserved := by
  refine BitVec.eq_of_getLsbD_eq fun i hi => ?_
  rw [statusReserved, BitVec.getLsbD_extractLsb', getLsbD_statusPack, if_neg (by omega), if_neg (by omega),
    if_neg (by omega)]
  simp [hi]

end Status

section Flags
variable (scheme : BitVec 3) (scr : BitVec 2) (double pal zr : Bool) (reserved : BitVec 8)

/-- The layout of `FLAGS`, bit by bit. -/
theorem getLsbD_flagsPack (i : Nat) :
    (flagsPack scheme scr double pal zr reserved).getLsbD i =
      if i < 3 then scheme.getLsbD i else if i < 5 then scr.getLsbD (i - 3) else if i = 5 then double
      else if i = 6 then pal else if i = 7 then zr else reserved.getLsbD (i - 8) := by
  change BitVec.getLsbD (w := 8 + 1 + 1 + 1 + 2 + 3) (reserved ++ BitVec.ofBool zr ++ BitVec.ofBool pal ++
    BitVec.ofBool double ++ scr ++ scheme) i = _
  simp only [BitVec.getLsbD_append]
  rcases i with _ | _ | _ | _ | _ | _ | _ | _ | i <;> simp
  have h3 : ¬ i + 1 + 1 + 1 + 1 + 1 + 1 + 1 + 1 < 3 := by omega
  have h5 : ¬ i + 1 + 1 + 1 + 1 + 1 + 1 + 1 + 1 < 5 := by omega
  simp [h3, h5]

@[simp] theorem flagsScheme_pack : flagsScheme (flagsPack scheme scr double pal zr reserved) = scheme := by
  refine BitVec.eq_of_getLsbD_eq fun i hi => ?_
  rw [flagsScheme, BitVec.getLsbD_extractLsb', getLsbD_flagsPack, if_pos (by omega)]
  simp [hi]
@[simp] theorem flagsScr_pack : flagsScr (flagsPack scheme scr double pal zr reserved) = scr := by
  refine BitVec.eq_of_getLsbD_eq fun i hi => ?_
  rw [flagsScr, BitVec.getLsbD_extractLsb', getLsbD_flagsPack, if_neg (by omega), if_pos (by omega)]
  simp [hi]
@[simp] theorem flagsDouble_pack : flagsDouble (flagsPack scheme scr double pal zr reserved) = double :=
  getLsbD_flagsPack scheme scr double pal zr reserved 5
@[simp] theorem flagsPalValid_pack : flagsPalValid (flagsPack scheme scr double pal zr reserved) = pal :=
  getLsbD_flagsPack scheme scr double pal zr reserved 6
@[simp] theorem flagsZrValid_pack : flagsZrValid (flagsPack scheme scr double pal zr reserved) = zr :=
  getLsbD_flagsPack scheme scr double pal zr reserved 7
@[simp] theorem flagsReserved_pack : flagsReserved (flagsPack scheme scr double pal zr reserved) = reserved := by
  refine BitVec.eq_of_getLsbD_eq fun i hi => ?_
  rw [flagsReserved, BitVec.getLsbD_extractLsb', getLsbD_flagsPack, if_neg (by omega), if_neg (by omega),
    if_neg (by omega), if_neg (by omega), if_neg (by omega)]
  simp [hi]

/-- The fields of a packed word. -/
theorem flagsAre_pack :
    FlagsAre (flagsPack scheme scr double pal zr reserved) scheme scr double pal zr reserved := by
  constructor <;> simp

end Flags

/-- The fault entry's write of `STATUS`. -/
theorem statusFaulted_statusAfterFault (code : ErrCode) (v : BitVec 8) :
    StatusFaulted v (statusAfterFault code v) code.code := by
  constructor <;> simp [statusAfterFault]

@[simp] theorem statusFault_statusAfterFault (code : ErrCode) (v : BitVec 8) :
    statusFault (statusAfterFault code v) = true := (statusFaulted_statusAfterFault code v).fault

/-- An encoder's flag writes. -/
theorem flagsAre_flagsAfterEncode (c : Scheme) (f : BitVec 16) :
    FlagsAre (flagsAfterEncode c f) (schemeCode c) 0 (decide (schemeMultiplier c = 2)) (flagsPalValid f) false
      (flagsReserved f) := flagsAre_pack ..

/-- A scrambler pass's flag writes. -/
theorem flagsAre_flagsAfterScramble (k : ScrambleKind) (f : BitVec 16) :
    FlagsAre (flagsAfterScramble k f) (flagsScheme f) (scrambleCode k) (flagsDouble f) (flagsPalValid f) false
      (flagsReserved f) := flagsAre_pack ..

/-- The write of `PAL_VALID`. -/
theorem flagsAre_flagsSetPalValid (v : Bool) (f : BitVec 16) :
    FlagsAre (flagsSetPalValid v f) (flagsScheme f) (flagsScr f) (flagsDouble f) v (flagsZrValid f)
      (flagsReserved f) := flagsAre_pack ..

/-- The write of `ZR_VALID`. -/
theorem flagsAre_flagsSetZrValid (v : Bool) (f : BitVec 16) :
    FlagsAre (flagsSetZrValid v f) (flagsScheme f) (flagsScr f) (flagsDouble f) (flagsPalValid f) v
      (flagsReserved f) := flagsAre_pack ..

/-- The scramblers' precondition, field by field. -/
theorem scramblable_iff (f : BitVec 16) : scramblable f = true ↔ flagsScheme f = 4 ∧ flagsScr f = 0 := by
  simp [scramblable, schemeCode, scrambleCode]

end Sys2Proof.Machine
end

