-- ==== Sys2Proof/Laws/Memory.lean ====
section
/-!
SUPPORT. The laws of buffers: a read after a write, sequences, and the canonical form, which every write keeps.
-/

namespace Sys2Proof.Machine

open Sys2Proof

variable {α : Type}

@[simp] theorem bufRead_nil (i : Nat) : bufRead ([] : Buffer α) i = none := rfl

/-- A write decides the element it writes and leaves every other element alone. -/
theorem bufRead_bufWrite (m : Buffer α) (i k : Nat) (v : α) :
    bufRead (bufWrite m i v) k = if k = i then some v else bufRead m k := by
  induction m with
  | nil => simp [bufWrite, bufRead]
  | cons p m ih =>
    obtain ⟨j, u⟩ := p
    by_cases h1 : i < j
    · simp [bufWrite, h1, bufRead]
    · by_cases h2 : i = j
      · subst h2
        simp only [bufWrite, lt_irrefl, if_false, if_true, bufRead]
        split <;> rfl
      · simp only [bufWrite, h1, h2, if_false, bufRead, ih]
        by_cases hk : k = i
        · subst hk; simp [h2]
        · simp [hk]

/-- What the elements read as after a run of writes from index `i` up. -/
theorem bufRead_bufWriteFrom (m : Buffer α) (i k : Nat) (vs : List α) :
    bufRead (bufWriteFrom m i vs) k = if i ≤ k ∧ k < i + vs.length then vs[k - i]? else bufRead m k := by
  induction vs generalizing m i with
  | nil => simp [bufWriteFrom]
  | cons v vs ih =>
    rw [bufWriteFrom, ih, bufRead_bufWrite, List.length_cons]
    rcases Nat.lt_trichotomy k i with h | h | h
    · rw [if_neg (by omega), if_neg (by omega), if_neg (by omega)]
    · subst h; rw [if_neg (by omega), if_pos rfl, if_pos (by omega)]; simp
    · by_cases h2 : k < i + 1 + vs.length
      · rw [if_pos (by omega), if_pos (by omega), show k - i = (k - (i + 1)) + 1 by omega]; simp
      · rw [if_neg (by omega), if_neg (by omega), if_neg (by omega)]

/-- Reading `n` elements gives `vs` exactly when `vs` has `n` elements and each holds its value. -/
theorem bufReadFrom_eq_some_iff (m : Buffer α) (i n : Nat) (vs : List α) :
    bufReadFrom m i n = some vs ↔ vs.length = n ∧ ∀ k, k < n → bufRead m (i + k) = vs[k]? := by
  induction n generalizing i vs with
  | zero => simp [bufReadFrom, eq_comm, List.length_eq_zero_iff]
  | succ n ih =>
    constructor
    · intro h
      rw [bufReadFrom] at h
      split at h
      next v us hv hus =>
        obtain ⟨hl, hk⟩ := (ih (i + 1) us).1 hus
        simp only [Option.some.injEq] at h
        subst h
        refine ⟨by simp [hl], fun k hkn => ?_⟩
        cases k with
        | zero => simpa using hv
        | succ k => simpa [Nat.add_assoc, Nat.add_comm 1] using hk k (by omega)
      next => exact absurd h (by simp)
    · rintro ⟨hl, hk⟩
      cases vs with
      | nil => simp at hl
      | cons v us =>
        have h0 : bufRead m i = some v := by simpa using hk 0 (by omega)
        have ht : bufReadFrom m (i + 1) n = some us := by
          refine (ih (i + 1) us).2 ⟨by simpa using hl, fun k hkn => ?_⟩
          simpa [Nat.add_assoc, Nat.add_comm 1] using hk (k + 1) (by omega)
        rw [bufReadFrom, h0, ht]

/-- A sequence is held exactly when its length is within the capacity and each of its elements holds its value. -/
theorem bufReadSeq_eq_some_iff (cap n : Nat) (m : Buffer α) (vs : List α) :
    bufReadSeq cap n m = some vs ↔ n ≤ cap ∧ vs.length = n ∧ ∀ k, k < n → bufRead m k = vs[k]? := by
  unfold bufReadSeq
  split
  · rename_i h
    rw [bufReadFrom_eq_some_iff]
    simp [h]
  · rename_i h
    simp [h]

/-- A sequence is held when each of its elements holds some value. -/
theorem bufReadSeq_isSome_iff (cap n : Nat) (m : Buffer α) :
    (bufReadSeq cap n m).isSome = true ↔ n ≤ cap ∧ ∀ k, k < n → (bufRead m k).isSome = true := by
  constructor
  · intro h
    obtain ⟨vs, hvs⟩ := Option.isSome_iff_exists.1 h
    obtain ⟨hn, hl, hk⟩ := (bufReadSeq_eq_some_iff cap n m vs).1 hvs
    refine ⟨hn, fun k hkn => ?_⟩
    rw [hk k hkn, List.getElem?_eq_getElem (by omega)]
    rfl
  · rintro ⟨hn, hk⟩
    refine Option.isSome_iff_exists.2
      ⟨(List.range n).pmap (fun k hkn => (bufRead m k).get (hk k (List.mem_range.1 hkn))) (fun _ h => h), ?_⟩
    refine (bufReadSeq_eq_some_iff cap n m _).2 ⟨hn, by simp, fun k hkn => ?_⟩
    simp [hkn]

/-- Writing a sequence answers the written buffer exactly when it fits. -/
theorem bufWriteSeq_eq_some_iff (cap : Nat) (vs : List α) (m m' : Buffer α) :
    bufWriteSeq cap vs m = some m' ↔ vs.length ≤ cap ∧ m' = bufWriteFrom m 0 vs := by
  unfold bufWriteSeq
  split <;> simp_all [eq_comm]

/-- What the elements read as after a sequence is written. -/
theorem bufRead_of_bufWriteSeq {cap : Nat} {vs : List α} {m m' : Buffer α} (h : bufWriteSeq cap vs m = some m')
    (k : Nat) : bufRead m' k = if k < vs.length then vs[k]? else bufRead m k := by
  obtain ⟨-, rfl⟩ := (bufWriteSeq_eq_some_iff cap vs m m').1 h
  simpa using bufRead_bufWriteFrom m 0 k vs

/-- The sequence written is the sequence read. -/
theorem bufReadSeq_of_bufWriteSeq {cap : Nat} {vs : List α} {m m' : Buffer α}
    (h : bufWriteSeq cap vs m = some m') : bufReadSeq cap vs.length m' = some vs := by
  refine (bufReadSeq_eq_some_iff cap _ m' vs).2 ⟨((bufWriteSeq_eq_some_iff cap vs m m').1 h).1, rfl, fun k hk => ?_⟩
  rw [bufRead_of_bufWriteSeq h, if_pos hk]

/-- Appending one element to a held sequence. -/
theorem bufReadSeq_append {cap n : Nat} {m : Buffer α} {vs : List α} (h : bufReadSeq cap n m = some vs)
    (hn : n < cap) (v : α) : bufReadSeq cap (n + 1) (bufWrite m n v) = some (vs ++ [v]) := by
  obtain ⟨-, hl, hk⟩ := (bufReadSeq_eq_some_iff cap n m vs).1 h
  refine (bufReadSeq_eq_some_iff cap _ _ _).2 ⟨hn, by simp [hl], fun k hkn => ?_⟩
  rw [bufRead_bufWrite]
  by_cases he : k = n
  · subst he; simp [← hl]
  · rw [if_neg he, hk k (by omega), List.getElem?_append_left (by omega)]

/-- The indexes after a write are the indexes before it and the one written. -/
theorem mem_keys_bufWrite (m : Buffer α) (i k : Nat) (v : α) :
    k ∈ (bufWrite m i v).map Prod.fst ↔ k = i ∨ k ∈ m.map Prod.fst := by
  induction m with
  | nil => simp [bufWrite]
  | cons p m ih =>
    obtain ⟨j, u⟩ := p
    by_cases h1 : i < j
    · simp [bufWrite, h1]
    · by_cases h2 : i = j
      · subst h2; simp [bufWrite]
      · simp only [bufWrite, h1, h2, if_false, List.map_cons, List.mem_cons, ih]
        tauto

/-- A write inside the capacity keeps the canonical form. -/
theorem bufWf_bufWrite {cap : Nat} {m : Buffer α} (h : bufWf cap m) {i : Nat} (hi : i < cap) (v : α) :
    bufWf cap (bufWrite m i v) := by
  refine ⟨?_, fun k hk => ?_⟩
  · replace h := h.1
    induction m with
    | nil => simp [bufWrite]
    | cons p m ih =>
      obtain ⟨j, u⟩ := p
      simp only [List.map_cons, List.pairwise_cons] at h
      by_cases h1 : i < j
      · simp only [bufWrite, h1, if_true, List.map_cons, List.pairwise_cons, List.mem_cons]
        exact ⟨fun a ha => ha.elim (fun e => e ▸ h1) (fun e => lt_trans h1 (h.1 a e)), h.1, h.2⟩
      · by_cases h2 : i = j
        · subst h2
          simpa only [bufWrite, lt_irrefl, if_false, if_true, List.map_cons, List.pairwise_cons] using h
        · simp only [bufWrite, h1, h2, if_false, List.map_cons, List.pairwise_cons]
          refine ⟨fun a ha => ?_, ih h.2⟩
          rcases (mem_keys_bufWrite m i a v).1 ha with e | e
          · omega
          · exact h.1 a e
  · rcases (mem_keys_bufWrite m i k v).1 hk with e | e
    · exact e ▸ hi
    · exact h.2 k e

/-- A run of writes inside the capacity keeps the canonical form. -/
theorem bufWf_bufWriteFrom {cap : Nat} {m : Buffer α} (h : bufWf cap m) (i : Nat) (vs : List α)
    (hi : i + vs.length ≤ cap) : bufWf cap (bufWriteFrom m i vs) := by
  induction vs generalizing m i with
  | nil => exact h
  | cons v vs ih =>
    rw [List.length_cons] at hi
    exact ih (bufWf_bufWrite h (by omega) v) (i + 1) (by omega)

/-- Writing a sequence keeps the canonical form. -/
theorem bufWf_of_bufWriteSeq {cap : Nat} {vs : List α} {m m' : Buffer α} (h : bufWf cap m)
    (hw : bufWriteSeq cap vs m = some m') : bufWf cap m' := by
  obtain ⟨hl, rfl⟩ := (bufWriteSeq_eq_some_iff cap vs m m').1 hw
  exact bufWf_bufWriteFrom h 0 vs (by omega)

/-- Writing one element keeps the canonical form. -/
theorem bufWf_of_bufWriteAt {cap i : Nat} {v : α} {m m' : Buffer α} (h : bufWf cap m)
    (hw : bufWriteAt cap i v m = some m') : bufWf cap m' := by
  unfold bufWriteAt at hw
  split at hw
  · rename_i hi
    cases hw
    exact bufWf_bufWrite h hi v
  · cases hw

/-- Nothing listed is in canonical form. -/
theorem bufWf_nil (cap : Nat) : bufWf cap ([] : Buffer α) := ⟨List.Pairwise.nil, by simp⟩

/-- An index below every listed one holds no value. -/
theorem bufRead_eq_none_of_lt {m : Buffer α} {i : Nat} (h : ∀ k ∈ m.map Prod.fst, i < k) : bufRead m i = none := by
  induction m with
  | nil => rfl
  | cons p m ih =>
    obtain ⟨j, u⟩ := p
    have hj : i < j := h j (by simp)
    rw [bufRead, if_neg (by omega)]
    exact ih fun k hk => h k (by simp only [List.map_cons, List.mem_cons]; exact Or.inr hk)

/-- Two buffers in canonical form that read the same everywhere are the same data. -/
theorem buf_ext {cap : Nat} {m m' : Buffer α} (h : bufWf cap m) (h' : bufWf cap m')
    (he : ∀ i, bufRead m i = bufRead m' i) : m = m' := by
  replace h := h.1
  replace h' := h'.1
  induction m generalizing m' with
  | nil =>
    cases m' with
    | nil => rfl
    | cons p m' => have := he p.1; simp [bufRead] at this
  | cons p m ih =>
    obtain ⟨j, u⟩ := p
    cases m' with
    | nil => have := he j; simp [bufRead] at this
    | cons p' m' =>
      obtain ⟨j', u'⟩ := p'
      simp only [List.map_cons, List.pairwise_cons] at h h'
      have hj : j = j' := by
        rcases Nat.lt_trichotomy j j' with hlt | heq | hlt
        · have := he j
          rw [bufRead, if_pos rfl, bufRead, if_neg (by omega),
            bufRead_eq_none_of_lt fun k hk => lt_trans hlt (h'.1 k hk)] at this
          cases this
        · exact heq
        · have := he j'
          rw [bufRead, if_neg (by omega), bufRead_eq_none_of_lt fun k hk => lt_trans hlt (h.1 k hk), bufRead,
            if_pos rfl] at this
          cases this
      subst hj
      have hu : u = u' := by simpa [bufRead] using he j
      subst hu
      congr 1
      refine ih (fun i => ?_) h.2 h'.2
      by_cases hi : i = j
      · subst hi
        rw [bufRead_eq_none_of_lt h.1, bufRead_eq_none_of_lt h'.1]
      · simpa [bufRead, hi] using he i

/-- The reset state's buffers are in canonical form. -/
theorem memory_wf_resetWith (p : Params) : Memory.wf (State.resetWith p) :=
  ⟨bufWf_nil _, bufWf_nil _, bufWf_nil _⟩

end Sys2Proof.Machine
end

