-- ==== Sys2Proof/Laws/State.lean ====
section
/-!
SUPPORT. What each state-valued operation leaves in each field, so that no later proof unfolds a record update.
-/

namespace Sys2Proof.Machine

open Sys2Proof

/-! ## Raising a fault writes `STATUS` alone -/

theorem raiseFault_of_unfaulted (code : ErrCode) (s : State) (h : statusFault s.status = false) :
    raiseFault code s = { s with status := statusAfterFault code s.status } := by simp [raiseFault, h]

theorem raiseFault_of_faulted (code : ErrCode) (s : State) (h : statusFault s.status = true) :
    raiseFault code s = s := by simp [raiseFault, h]

@[simp] theorem raiseFault_params (code : ErrCode) (s : State) : (raiseFault code s).params = s.params := by
  unfold raiseFault; split <;> rfl
@[simp] theorem raiseFault_bits (code : ErrCode) (s : State) : (raiseFault code s).bits = s.bits := by
  unfold raiseFault; split <;> rfl
@[simp] theorem raiseFault_nbits (code : ErrCode) (s : State) : (raiseFault code s).nbits = s.nbits := by
  unfold raiseFault; split <;> rfl
@[simp] theorem raiseFault_samp (code : ErrCode) (s : State) : (raiseFault code s).samp = s.samp := by
  unfold raiseFault; split <;> rfl
@[simp] theorem raiseFault_nsamp (code : ErrCode) (s : State) : (raiseFault code s).nsamp = s.nsamp := by
  unfold raiseFault; split <;> rfl
@[simp] theorem raiseFault_sig (code : ErrCode) (s : State) : (raiseFault code s).sig = s.sig := by
  unfold raiseFault; split <;> rfl
@[simp] theorem raiseFault_nsig (code : ErrCode) (s : State) : (raiseFault code s).nsig = s.nsig := by
  unfold raiseFault; split <;> rfl
@[simp] theorem raiseFault_flags (code : ErrCode) (s : State) : (raiseFault code s).flags = s.flags := by
  unfold raiseFault; split <;> rfl
@[simp] theorem raiseFault_palStart (code : ErrCode) (s : State) : (raiseFault code s).palStart = s.palStart := by
  unfold raiseFault; split <;> rfl
@[simp] theorem raiseFault_palLen (code : ErrCode) (s : State) : (raiseFault code s).palLen = s.palLen := by
  unfold raiseFault; split <;> rfl
@[simp] theorem raiseFault_zrStart (code : ErrCode) (s : State) : (raiseFault code s).zrStart = s.zrStart := by
  unfold raiseFault; split <;> rfl
@[simp] theorem raiseFault_zrCount (code : ErrCode) (s : State) : (raiseFault code s).zrCount = s.zrCount := by
  unfold raiseFault; split <;> rfl
@[simp] theorem raiseFault_runvar (code : ErrCode) (s : State) : (raiseFault code s).runvar = s.runvar := by
  unfold raiseFault; split <;> rfl
@[simp] theorem raiseFault_idx (code : ErrCode) (s : State) : (raiseFault code s).idx = s.idx := by
  unfold raiseFault; split <;> rfl
@[simp] theorem raiseFault_zc (code : ErrCode) (s : State) : (raiseFault code s).zc = s.zc := by
  unfold raiseFault; split <;> rfl
@[simp] theorem raiseFault_oc (code : ErrCode) (s : State) : (raiseFault code s).oc = s.oc := by
  unfold raiseFault; split <;> rfl
@[simp] theorem raiseFault_subpol (code : ErrCode) (s : State) : (raiseFault code s).subpol = s.subpol := by
  unfold raiseFault; split <;> rfl
@[simp] theorem raiseFault_pred (code : ErrCode) (s : State) : (raiseFault code s).pred = s.pred := by
  unfold raiseFault; split <;> rfl
@[simp] theorem raiseFault_qmin (code : ErrCode) (s : State) : (raiseFault code s).qmin = s.qmin := by
  unfold raiseFault; split <;> rfl
@[simp] theorem raiseFault_qmax (code : ErrCode) (s : State) : (raiseFault code s).qmax = s.qmax := by
  unfold raiseFault; split <;> rfl
@[simp] theorem raiseFault_radius (code : ErrCode) (s : State) : (raiseFault code s).radius = s.radius := by
  unfold raiseFault; split <;> rfl
@[simp] theorem raiseFault_cen (code : ErrCode) (s : State) : (raiseFault code s).cen = s.cen := by
  unfold raiseFault; split <;> rfl
@[simp] theorem raiseFault_rgt (code : ErrCode) (s : State) : (raiseFault code s).rgt = s.rgt := by
  unfold raiseFault; split <;> rfl
@[simp] theorem raiseFault_curStart (code : ErrCode) (s : State) : (raiseFault code s).curStart = s.curStart := by
  unfold raiseFault; split <;> rfl
@[simp] theorem raiseFault_curLen (code : ErrCode) (s : State) : (raiseFault code s).curLen = s.curLen := by
  unfold raiseFault; split <;> rfl
@[simp] theorem raiseFault_pending (code : ErrCode) (s : State) : (raiseFault code s).pending = s.pending := by
  unfold raiseFault; split <;> rfl
@[simp] theorem raiseFault_readData (code : ErrCode) (s : State) : (raiseFault code s).readData = s.readData := by
  unfold raiseFault; split <;> rfl
@[simp] theorem raiseFault_freeCtr (code : ErrCode) (s : State) : (raiseFault code s).freeCtr = s.freeCtr := by
  unfold raiseFault; split <;> rfl

/-! ## Reset -/

@[simp] theorem resetBlock_params (s : State) : (resetBlock s).params = s.params := rfl
@[simp] theorem resetBlock_bits (s : State) : (resetBlock s).bits = [] := rfl
@[simp] theorem resetBlock_nbits (s : State) : (resetBlock s).nbits = 0 := rfl
@[simp] theorem resetBlock_samp (s : State) : (resetBlock s).samp = [] := rfl
@[simp] theorem resetBlock_nsamp (s : State) : (resetBlock s).nsamp = 0 := rfl
@[simp] theorem resetBlock_sig (s : State) : (resetBlock s).sig = [] := rfl
@[simp] theorem resetBlock_nsig (s : State) : (resetBlock s).nsig = 0 := rfl
@[simp] theorem resetBlock_status (s : State) : (resetBlock s).status = 0x00#8 := rfl
@[simp] theorem resetBlock_flags (s : State) : (resetBlock s).flags = 0x0007#16 := rfl
@[simp] theorem resetBlock_palStart (s : State) : (resetBlock s).palStart = 0 := rfl
@[simp] theorem resetBlock_palLen (s : State) : (resetBlock s).palLen = 0 := rfl
@[simp] theorem resetBlock_zrStart (s : State) : (resetBlock s).zrStart = 0 := rfl
@[simp] theorem resetBlock_zrCount (s : State) : (resetBlock s).zrCount = 0 := rfl
@[simp] theorem resetBlock_runvar (s : State) : (resetBlock s).runvar = .neg := rfl
@[simp] theorem resetBlock_idx (s : State) : (resetBlock s).idx = 0 := rfl
@[simp] theorem resetBlock_zc (s : State) : (resetBlock s).zc = 0 := rfl
@[simp] theorem resetBlock_oc (s : State) : (resetBlock s).oc = 0 := rfl
@[simp] theorem resetBlock_subpol (s : State) : (resetBlock s).subpol = .pos := rfl
@[simp] theorem resetBlock_pred (s : State) : (resetBlock s).pred = 0 := rfl
@[simp] theorem resetBlock_qmin (s : State) : (resetBlock s).qmin = 0 := rfl
@[simp] theorem resetBlock_qmax (s : State) : (resetBlock s).qmax = 0 := rfl
@[simp] theorem resetBlock_radius (s : State) : (resetBlock s).radius = List.replicate (2 * s.params.maxLen + 1) 0 := rfl
@[simp] theorem resetBlock_cen (s : State) : (resetBlock s).cen = 0 := rfl
@[simp] theorem resetBlock_rgt (s : State) : (resetBlock s).rgt = 0 := rfl
@[simp] theorem resetBlock_curStart (s : State) : (resetBlock s).curStart = 0 := rfl
@[simp] theorem resetBlock_curLen (s : State) : (resetBlock s).curLen = 0 := rfl
@[simp] theorem resetBlock_pending (s : State) : (resetBlock s).pending = s.pending := rfl
@[simp] theorem resetBlock_readData (s : State) : (resetBlock s).readData = s.readData := rfl
@[simp] theorem resetBlock_freeCtr (s : State) : (resetBlock s).freeCtr = s.freeCtr := rfl

@[simp] theorem resetWith_params (p : Params) : (State.resetWith p).params = p := rfl
@[simp] theorem resetWith_bits (p : Params) : (State.resetWith p).bits = [] := rfl
@[simp] theorem resetWith_nbits (p : Params) : (State.resetWith p).nbits = 0 := rfl
@[simp] theorem resetWith_samp (p : Params) : (State.resetWith p).samp = [] := rfl
@[simp] theorem resetWith_nsamp (p : Params) : (State.resetWith p).nsamp = 0 := rfl
@[simp] theorem resetWith_sig (p : Params) : (State.resetWith p).sig = [] := rfl
@[simp] theorem resetWith_nsig (p : Params) : (State.resetWith p).nsig = 0 := rfl
@[simp] theorem resetWith_status (p : Params) : (State.resetWith p).status = 0x00#8 := rfl
@[simp] theorem resetWith_flags (p : Params) : (State.resetWith p).flags = 0x0007#16 := rfl
@[simp] theorem resetWith_palStart (p : Params) : (State.resetWith p).palStart = 0 := rfl
@[simp] theorem resetWith_palLen (p : Params) : (State.resetWith p).palLen = 0 := rfl
@[simp] theorem resetWith_zrStart (p : Params) : (State.resetWith p).zrStart = 0 := rfl
@[simp] theorem resetWith_zrCount (p : Params) : (State.resetWith p).zrCount = 0 := rfl
@[simp] theorem resetWith_runvar (p : Params) : (State.resetWith p).runvar = .neg := rfl
@[simp] theorem resetWith_idx (p : Params) : (State.resetWith p).idx = 0 := rfl
@[simp] theorem resetWith_zc (p : Params) : (State.resetWith p).zc = 0 := rfl
@[simp] theorem resetWith_oc (p : Params) : (State.resetWith p).oc = 0 := rfl
@[simp] theorem resetWith_subpol (p : Params) : (State.resetWith p).subpol = .pos := rfl
@[simp] theorem resetWith_pred (p : Params) : (State.resetWith p).pred = 0 := rfl
@[simp] theorem resetWith_qmin (p : Params) : (State.resetWith p).qmin = 0 := rfl
@[simp] theorem resetWith_qmax (p : Params) : (State.resetWith p).qmax = 0 := rfl
@[simp] theorem resetWith_radius (p : Params) : (State.resetWith p).radius = List.replicate (2 * p.maxLen + 1) 0 := rfl
@[simp] theorem resetWith_cen (p : Params) : (State.resetWith p).cen = 0 := rfl
@[simp] theorem resetWith_rgt (p : Params) : (State.resetWith p).rgt = 0 := rfl
@[simp] theorem resetWith_curStart (p : Params) : (State.resetWith p).curStart = 0 := rfl
@[simp] theorem resetWith_curLen (p : Params) : (State.resetWith p).curLen = 0 := rfl
@[simp] theorem resetWith_pending (p : Params) : (State.resetWith p).pending = [] := rfl
@[simp] theorem resetWith_readData (p : Params) : (State.resetWith p).readData = none := rfl
@[simp] theorem resetWith_freeCtr (p : Params) : (State.resetWith p).freeCtr = 0 := rfl

/-! ## A read's data changes the host's side alone -/

@[simp] theorem deliver_params (v : ReadValue) (s : State) : (deliver v s).params = s.params := rfl
@[simp] theorem deliver_bits (v : ReadValue) (s : State) : (deliver v s).bits = s.bits := rfl
@[simp] theorem deliver_nbits (v : ReadValue) (s : State) : (deliver v s).nbits = s.nbits := rfl
@[simp] theorem deliver_samp (v : ReadValue) (s : State) : (deliver v s).samp = s.samp := rfl
@[simp] theorem deliver_nsamp (v : ReadValue) (s : State) : (deliver v s).nsamp = s.nsamp := rfl
@[simp] theorem deliver_sig (v : ReadValue) (s : State) : (deliver v s).sig = s.sig := rfl
@[simp] theorem deliver_nsig (v : ReadValue) (s : State) : (deliver v s).nsig = s.nsig := rfl
@[simp] theorem deliver_status (v : ReadValue) (s : State) : (deliver v s).status = s.status := rfl
@[simp] theorem deliver_flags (v : ReadValue) (s : State) : (deliver v s).flags = s.flags := rfl
@[simp] theorem deliver_palStart (v : ReadValue) (s : State) : (deliver v s).palStart = s.palStart := rfl
@[simp] theorem deliver_palLen (v : ReadValue) (s : State) : (deliver v s).palLen = s.palLen := rfl
@[simp] theorem deliver_zrStart (v : ReadValue) (s : State) : (deliver v s).zrStart = s.zrStart := rfl
@[simp] theorem deliver_zrCount (v : ReadValue) (s : State) : (deliver v s).zrCount = s.zrCount := rfl
@[simp] theorem deliver_runvar (v : ReadValue) (s : State) : (deliver v s).runvar = s.runvar := rfl
@[simp] theorem deliver_idx (v : ReadValue) (s : State) : (deliver v s).idx = s.idx := rfl
@[simp] theorem deliver_zc (v : ReadValue) (s : State) : (deliver v s).zc = s.zc := rfl
@[simp] theorem deliver_oc (v : ReadValue) (s : State) : (deliver v s).oc = s.oc := rfl
@[simp] theorem deliver_subpol (v : ReadValue) (s : State) : (deliver v s).subpol = s.subpol := rfl
@[simp] theorem deliver_pred (v : ReadValue) (s : State) : (deliver v s).pred = s.pred := rfl
@[simp] theorem deliver_qmin (v : ReadValue) (s : State) : (deliver v s).qmin = s.qmin := rfl
@[simp] theorem deliver_qmax (v : ReadValue) (s : State) : (deliver v s).qmax = s.qmax := rfl
@[simp] theorem deliver_radius (v : ReadValue) (s : State) : (deliver v s).radius = s.radius := rfl
@[simp] theorem deliver_cen (v : ReadValue) (s : State) : (deliver v s).cen = s.cen := rfl
@[simp] theorem deliver_rgt (v : ReadValue) (s : State) : (deliver v s).rgt = s.rgt := rfl
@[simp] theorem deliver_curStart (v : ReadValue) (s : State) : (deliver v s).curStart = s.curStart := rfl
@[simp] theorem deliver_curLen (v : ReadValue) (s : State) : (deliver v s).curLen = s.curLen := rfl
@[simp] theorem deliver_pending (v : ReadValue) (s : State) : (deliver v s).pending = s.pending := rfl
@[simp] theorem deliver_freeCtr (v : ReadValue) (s : State) : (deliver v s).freeCtr = s.freeCtr := rfl
@[simp] theorem deliver_readData (v : ReadValue) (s : State) : (deliver v s).readData = some v := rfl

@[simp] theorem deliverAny_params (v : ReadValue) (s : State) : (deliverAny v s).params = s.params := rfl
@[simp] theorem deliverAny_bits (v : ReadValue) (s : State) : (deliverAny v s).bits = s.bits := rfl
@[simp] theorem deliverAny_nbits (v : ReadValue) (s : State) : (deliverAny v s).nbits = s.nbits := rfl
@[simp] theorem deliverAny_samp (v : ReadValue) (s : State) : (deliverAny v s).samp = s.samp := rfl
@[simp] theorem deliverAny_nsamp (v : ReadValue) (s : State) : (deliverAny v s).nsamp = s.nsamp := rfl
@[simp] theorem deliverAny_sig (v : ReadValue) (s : State) : (deliverAny v s).sig = s.sig := rfl
@[simp] theorem deliverAny_nsig (v : ReadValue) (s : State) : (deliverAny v s).nsig = s.nsig := rfl
@[simp] theorem deliverAny_status (v : ReadValue) (s : State) : (deliverAny v s).status = s.status := rfl
@[simp] theorem deliverAny_flags (v : ReadValue) (s : State) : (deliverAny v s).flags = s.flags := rfl
@[simp] theorem deliverAny_palStart (v : ReadValue) (s : State) : (deliverAny v s).palStart = s.palStart := rfl
@[simp] theorem deliverAny_palLen (v : ReadValue) (s : State) : (deliverAny v s).palLen = s.palLen := rfl
@[simp] theorem deliverAny_zrStart (v : ReadValue) (s : State) : (deliverAny v s).zrStart = s.zrStart := rfl
@[simp] theorem deliverAny_zrCount (v : ReadValue) (s : State) : (deliverAny v s).zrCount = s.zrCount := rfl
@[simp] theorem deliverAny_runvar (v : ReadValue) (s : State) : (deliverAny v s).runvar = s.runvar := rfl
@[simp] theorem deliverAny_idx (v : ReadValue) (s : State) : (deliverAny v s).idx = s.idx := rfl
@[simp] theorem deliverAny_zc (v : ReadValue) (s : State) : (deliverAny v s).zc = s.zc := rfl
@[simp] theorem deliverAny_oc (v : ReadValue) (s : State) : (deliverAny v s).oc = s.oc := rfl
@[simp] theorem deliverAny_subpol (v : ReadValue) (s : State) : (deliverAny v s).subpol = s.subpol := rfl
@[simp] theorem deliverAny_pred (v : ReadValue) (s : State) : (deliverAny v s).pred = s.pred := rfl
@[simp] theorem deliverAny_qmin (v : ReadValue) (s : State) : (deliverAny v s).qmin = s.qmin := rfl
@[simp] theorem deliverAny_qmax (v : ReadValue) (s : State) : (deliverAny v s).qmax = s.qmax := rfl
@[simp] theorem deliverAny_radius (v : ReadValue) (s : State) : (deliverAny v s).radius = s.radius := rfl
@[simp] theorem deliverAny_cen (v : ReadValue) (s : State) : (deliverAny v s).cen = s.cen := rfl
@[simp] theorem deliverAny_rgt (v : ReadValue) (s : State) : (deliverAny v s).rgt = s.rgt := rfl
@[simp] theorem deliverAny_curStart (v : ReadValue) (s : State) : (deliverAny v s).curStart = s.curStart := rfl
@[simp] theorem deliverAny_curLen (v : ReadValue) (s : State) : (deliverAny v s).curLen = s.curLen := rfl
@[simp] theorem deliverAny_pending (v : ReadValue) (s : State) : (deliverAny v s).pending = s.pending := rfl
@[simp] theorem deliverAny_readData (v : ReadValue) (s : State) : (deliverAny v s).readData = some v := rfl
@[simp] theorem deliverAny_freeCtr (v : ReadValue) (s : State) : (deliverAny v s).freeCtr = s.freeCtr + 1 := rfl

/-! ## QPCM's working registers -/

@[simp] theorem pcmRegisters_params (xs : List Sample) (s : State) : (pcmRegisters xs s).params = s.params := by
  cases xs <;> rfl
@[simp] theorem pcmRegisters_bits (xs : List Sample) (s : State) : (pcmRegisters xs s).bits = s.bits := by
  cases xs <;> rfl
@[simp] theorem pcmRegisters_nbits (xs : List Sample) (s : State) : (pcmRegisters xs s).nbits = s.nbits := by
  cases xs <;> rfl
@[simp] theorem pcmRegisters_samp (xs : List Sample) (s : State) : (pcmRegisters xs s).samp = s.samp := by
  cases xs <;> rfl
@[simp] theorem pcmRegisters_nsamp (xs : List Sample) (s : State) : (pcmRegisters xs s).nsamp = s.nsamp := by
  cases xs <;> rfl
@[simp] theorem pcmRegisters_sig (xs : List Sample) (s : State) : (pcmRegisters xs s).sig = s.sig := by
  cases xs <;> rfl
@[simp] theorem pcmRegisters_nsig (xs : List Sample) (s : State) : (pcmRegisters xs s).nsig = s.nsig := by
  cases xs <;> rfl
@[simp] theorem pcmRegisters_status (xs : List Sample) (s : State) : (pcmRegisters xs s).status = s.status := by
  cases xs <;> rfl
@[simp] theorem pcmRegisters_flags (xs : List Sample) (s : State) : (pcmRegisters xs s).flags = s.flags := by
  cases xs <;> rfl
@[simp] theorem pcmRegisters_palStart (xs : List Sample) (s : State) : (pcmRegisters xs s).palStart = s.palStart := by
  cases xs <;> rfl
@[simp] theorem pcmRegisters_palLen (xs : List Sample) (s : State) : (pcmRegisters xs s).palLen = s.palLen := by
  cases xs <;> rfl
@[simp] theorem pcmRegisters_zrStart (xs : List Sample) (s : State) : (pcmRegisters xs s).zrStart = s.zrStart := by
  cases xs <;> rfl
@[simp] theorem pcmRegisters_zrCount (xs : List Sample) (s : State) : (pcmRegisters xs s).zrCount = s.zrCount := by
  cases xs <;> rfl
@[simp] theorem pcmRegisters_runvar (xs : List Sample) (s : State) : (pcmRegisters xs s).runvar = s.runvar := by
  cases xs <;> rfl
@[simp] theorem pcmRegisters_zc (xs : List Sample) (s : State) : (pcmRegisters xs s).zc = s.zc := by
  cases xs <;> rfl
@[simp] theorem pcmRegisters_oc (xs : List Sample) (s : State) : (pcmRegisters xs s).oc = s.oc := by
  cases xs <;> rfl
@[simp] theorem pcmRegisters_subpol (xs : List Sample) (s : State) : (pcmRegisters xs s).subpol = s.subpol := by
  cases xs <;> rfl
@[simp] theorem pcmRegisters_pred (xs : List Sample) (s : State) : (pcmRegisters xs s).pred = s.pred := by
  cases xs <;> rfl
@[simp] theorem pcmRegisters_radius (xs : List Sample) (s : State) : (pcmRegisters xs s).radius = s.radius := by
  cases xs <;> rfl
@[simp] theorem pcmRegisters_cen (xs : List Sample) (s : State) : (pcmRegisters xs s).cen = s.cen := by
  cases xs <;> rfl
@[simp] theorem pcmRegisters_rgt (xs : List Sample) (s : State) : (pcmRegisters xs s).rgt = s.rgt := by
  cases xs <;> rfl
@[simp] theorem pcmRegisters_curStart (xs : List Sample) (s : State) : (pcmRegisters xs s).curStart = s.curStart := by
  cases xs <;> rfl
@[simp] theorem pcmRegisters_curLen (xs : List Sample) (s : State) : (pcmRegisters xs s).curLen = s.curLen := by
  cases xs <;> rfl
@[simp] theorem pcmRegisters_pending (xs : List Sample) (s : State) : (pcmRegisters xs s).pending = s.pending := by
  cases xs <;> rfl
@[simp] theorem pcmRegisters_readData (xs : List Sample) (s : State) : (pcmRegisters xs s).readData = s.readData := by
  cases xs <;> rfl
@[simp] theorem pcmRegisters_freeCtr (xs : List Sample) (s : State) : (pcmRegisters xs s).freeCtr = s.freeCtr := by
  cases xs <;> rfl
@[simp] theorem pcmRegisters_idx (xs : List Sample) (s : State) : (pcmRegisters xs s).idx = xs.length := by
  cases xs <;> rfl

/-! ## Placing a command as the host's next access -/

@[simp] theorem withFetchWord_params (s : State) (nbits w : Nat) : (s.withFetchWord nbits w).params = s.params := rfl
@[simp] theorem withFetchWord_bits (s : State) (nbits w : Nat) : (s.withFetchWord nbits w).bits = s.bits := rfl
@[simp] theorem withFetchWord_nbits (s : State) (nbits w : Nat) : (s.withFetchWord nbits w).nbits = s.nbits := rfl
@[simp] theorem withFetchWord_samp (s : State) (nbits w : Nat) : (s.withFetchWord nbits w).samp = s.samp := rfl
@[simp] theorem withFetchWord_nsamp (s : State) (nbits w : Nat) : (s.withFetchWord nbits w).nsamp = s.nsamp := rfl
@[simp] theorem withFetchWord_sig (s : State) (nbits w : Nat) : (s.withFetchWord nbits w).sig = s.sig := rfl
@[simp] theorem withFetchWord_nsig (s : State) (nbits w : Nat) : (s.withFetchWord nbits w).nsig = s.nsig := rfl
@[simp] theorem withFetchWord_status (s : State) (nbits w : Nat) : (s.withFetchWord nbits w).status = s.status := rfl
@[simp] theorem withFetchWord_flags (s : State) (nbits w : Nat) : (s.withFetchWord nbits w).flags = s.flags := rfl
@[simp] theorem withFetchWord_palStart (s : State) (nbits w : Nat) : (s.withFetchWord nbits w).palStart = s.palStart := rfl
@[simp] theorem withFetchWord_palLen (s : State) (nbits w : Nat) : (s.withFetchWord nbits w).palLen = s.palLen := rfl
@[simp] theorem withFetchWord_zrStart (s : State) (nbits w : Nat) : (s.withFetchWord nbits w).zrStart = s.zrStart := rfl
@[simp] theorem withFetchWord_zrCount (s : State) (nbits w : Nat) : (s.withFetchWord nbits w).zrCount = s.zrCount := rfl
@[simp] theorem withFetchWord_runvar (s : State) (nbits w : Nat) : (s.withFetchWord nbits w).runvar = s.runvar := rfl
@[simp] theorem withFetchWord_idx (s : State) (nbits w : Nat) : (s.withFetchWord nbits w).idx = s.idx := rfl
@[simp] theorem withFetchWord_zc (s : State) (nbits w : Nat) : (s.withFetchWord nbits w).zc = s.zc := rfl
@[simp] theorem withFetchWord_oc (s : State) (nbits w : Nat) : (s.withFetchWord nbits w).oc = s.oc := rfl
@[simp] theorem withFetchWord_subpol (s : State) (nbits w : Nat) : (s.withFetchWord nbits w).subpol = s.subpol := rfl
@[simp] theorem withFetchWord_pred (s : State) (nbits w : Nat) : (s.withFetchWord nbits w).pred = s.pred := rfl
@[simp] theorem withFetchWord_qmin (s : State) (nbits w : Nat) : (s.withFetchWord nbits w).qmin = s.qmin := rfl
@[simp] theorem withFetchWord_qmax (s : State) (nbits w : Nat) : (s.withFetchWord nbits w).qmax = s.qmax := rfl
@[simp] theorem withFetchWord_radius (s : State) (nbits w : Nat) : (s.withFetchWord nbits w).radius = s.radius := rfl
@[simp] theorem withFetchWord_cen (s : State) (nbits w : Nat) : (s.withFetchWord nbits w).cen = s.cen := rfl
@[simp] theorem withFetchWord_rgt (s : State) (nbits w : Nat) : (s.withFetchWord nbits w).rgt = s.rgt := rfl
@[simp] theorem withFetchWord_curStart (s : State) (nbits w : Nat) : (s.withFetchWord nbits w).curStart = s.curStart := rfl
@[simp] theorem withFetchWord_curLen (s : State) (nbits w : Nat) : (s.withFetchWord nbits w).curLen = s.curLen := rfl
@[simp] theorem withFetchWord_readData (s : State) (nbits w : Nat) : (s.withFetchWord nbits w).readData = s.readData := rfl
@[simp] theorem withFetchWord_freeCtr (s : State) (nbits w : Nat) : (s.withFetchWord nbits w).freeCtr = s.freeCtr := rfl

@[simp] theorem withFetchWord_pending (s : State) (nbits w : Nat) :
    (s.withFetchWord nbits w).pending = .cmd (BitVec.ofNat 16 (w % 2 ^ nbits)) :: s.pending := rfl

end Sys2Proof.Machine
end

