-- ==== Sys2Proof/Laws/Ops.lean ====
section
/-!
SUPPORT. For each shared operation, once, everything it can do: the cases in which it answers a next state, and that
state. Later proofs cite these instead of unfolding an operation.
-/

namespace Sys2Proof.Machine

open Sys2Proof

/-! ## The gate and the model's fault -/

@[simp] theorem unlessFaulted_of_faulted {s : State} (h : statusFault s.status = true) (r : Result) :
    unlessFaulted s r = .next s := by simp [unlessFaulted, h]

@[simp] theorem unlessFaulted_of_unfaulted {s : State} (h : statusFault s.status = false) (r : Result) :
    unlessFaulted s r = r := by simp [unlessFaulted, h]

/-- The gate answers `t`: the state itself while faulted, what stands behind the gate otherwise. -/
theorem unlessFaulted_eq_next_iff (s t : State) (r : Result) :
    unlessFaulted s r = .next t ↔ (faulted s ∧ t = s) ∨ (unfaulted s ∧ r = .next t) := by
  unfold unlessFaulted faulted unfaulted
  cases statusFault s.status <;> simp [eq_comm]

theorem orInvalid_eq_next_iff (o : Option State) (t : State) : orInvalid o = .next t ↔ o = some t := by
  cases o <;> simp [orInvalid]

/-- Raising a fault in an unfaulted state is a next state that differs in `STATUS` alone. -/
theorem raisesOnly_raiseFault {s : State} (h : unfaulted s) (code : ErrCode) :
    RaisesOnly (.next (raiseFault code s)) s code.code :=
  ⟨_, by rw [raiseFault_of_unfaulted code s h], statusFaulted_statusAfterFault code s.status⟩

/-! ## Lengths of what the units put out -/

theorem encStep_length (c : Scheme) (v : Level) (b : Bit) : (encStep c v b).2.length = schemeMultiplier c := by
  cases c <;> cases b <;> rfl

/-- The signal is as long as the scheme's multiplier says. -/
theorem encRun_length (c : Scheme) (v : Level) (b : List Bit) :
    (encRun c v b).2.length = schemeMultiplier c * b.length := by
  induction b generalizing v with
  | nil => rfl
  | cons x b ih =>
    rw [encRun, List.length_append, encStep_length, ih, List.length_cons, Nat.mul_succ, Nat.add_comm]

theorem schemeMultiplier_le (c : Scheme) : schemeMultiplier c ≤ 2 := by cases c <;> decide

theorem dmRun_length (pred : Sample) (xs : List Sample) : (dmRun pred xs).2.length = xs.length := by
  induction xs generalizing pred with
  | nil => rfl
  | cons x xs ih => simp [dmRun, ih]

@[simp] theorem pcmCode_length (bps q : Nat) : (pcmCode bps q).length = bps := by simp [pcmCode]

/-- All that is known of the `BINARY64` index (R101). -/
theorem pcmIndexBinary64_spec (min max : Sample) (levels : Nat) :
    (∀ x, pcmIndexBinary64 x min max levels ≤ levels - 1) ∧
      (max = min → ∀ x, pcmIndexBinary64 x min max levels = 0) ∧
      Monotone fun x => pcmIndexBinary64 x min max levels := by
  unfold pcmIndexBinary64
  refine ⟨fun x => ?_, fun h x => if_pos h, fun x y h => ?_⟩
  · split
    · exact Nat.zero_le _
    · cases Config.binary64Index min max levels with
      | none => exact Nat.zero_le _
      | some index => exact Nat.le_sub_one_of_lt (index x).isLt
  · show (if _ then _ else _) ≤ (if _ then _ else _)
    split
    · exact le_rfl
    · cases Config.binary64Index min max levels with
      | none => exact le_rfl
      | some index => exact index.monotone h

@[simp] theorem interleaved_even (sep : Nat) (b : List Bit) (k : Nat) :
    interleaved sep b (2 * k) = some (.other sep) := by simp [interleaved]

@[simp] theorem interleaved_odd (sep : Nat) (b : List Bit) (k : Nat) :
    interleaved sep b (2 * k + 1) = (b[k]?).map .bit := by
  simp [interleaved, Nat.add_mod]

/-- QPCM's output is `samples * bps` long. -/
theorem pcmBits_length (numerics : Numerics) (bps : Nat) (xs : List Sample) :
    (pcmBits numerics bps xs).length = xs.length * bps := by
  cases xs with
  | nil => simp [pcmBits]
  | cons x xs => simp [pcmBits, List.length_flatMap, Nat.succ_mul, Nat.add_comm]

theorem b8zsStep_length (x : ScramblePass) (i : Nat) : (b8zsStep x i).sig.length = x.sig.length := by
  unfold b8zsStep
  dsimp only
  split <;> split <;> simp

theorem hdb3Step_length (x : ScramblePass) (i : Nat) : (hdb3Step x i).sig.length = x.sig.length := by
  unfold hdb3Step
  split
  · split
    · dsimp only; split <;> simp
    · rfl
  · rfl

/-- A pass whose step keeps the signal's length keeps it as a whole. -/
theorem foldl_length_of_step {step : ScramblePass → Nat → ScramblePass}
    (h : ∀ x i, (step x i).sig.length = x.sig.length) (is : List Nat) (x : ScramblePass) :
    (is.foldl step x).sig.length = x.sig.length := by
  induction is generalizing x with
  | nil => rfl
  | cons i is ih => rw [List.foldl_cons, ih, h]

@[simp] theorem b8zsRun_length (x : List Level) (oc : Nat) : (b8zsRun x oc).sig.length = x.length :=
  foldl_length_of_step b8zsStep_length _ _

@[simp] theorem hdb3Run_length (x : List Level) : (hdb3Run x).sig.length = x.length :=
  foldl_length_of_step hdb3Step_length _ _

/-! ## Sequences and their registers -/

theorem length_of_bitSeq {s : State} {b : List Bit} (h : bitSeq s = some b) :
    b.length = s.nbits ∧ s.nbits ≤ s.params.maxLen :=
  ⟨((bufReadSeq_eq_some_iff _ _ _ _).1 h).2.1, ((bufReadSeq_eq_some_iff _ _ _ _).1 h).1⟩

theorem length_of_sampSeq {s : State} {xs : List Sample} (h : sampSeq s = some xs) :
    xs.length = s.nsamp ∧ s.nsamp ≤ s.params.maxLen :=
  ⟨((bufReadSeq_eq_some_iff _ _ _ _).1 h).2.1, ((bufReadSeq_eq_some_iff _ _ _ _).1 h).1⟩

theorem length_of_sigSeq {s : State} {x : List Level} (h : sigSeq s = some x) :
    x.length = s.nsig ∧ s.nsig ≤ s.params.sigCap :=
  ⟨((bufReadSeq_eq_some_iff _ _ _ _).1 h).2.1, ((bufReadSeq_eq_some_iff _ _ _ _).1 h).1⟩

theorem orInvalid_map_writeSeq {α : Type} {cap : Nat} {out : List α} {m : Buffer α} (h : out.length ≤ cap)
    (f : Buffer α → State) : orInvalid ((bufWriteSeq cap out m).map f) = .next (f (bufWriteFrom m 0 out)) := by
  simp [bufWriteSeq, h, orInvalid]

/-! ## The shared operations, when they complete -/

/-- An encoder command on a held bit sequence: the written buffer, the length, the flags, `RUNVAR` and `IDX`. -/
theorem encodeSignal_eq (c : Scheme) {s : State} {b : List Bit} (h : bitSeq s = some b) :
    encodeSignal c s = .next { s with
      sig := bufWriteFrom s.sig 0 (encRun c (encInit c s.runvar) b).2
      nsig := schemeMultiplier c * s.nbits
      flags := flagsAfterEncode c s.flags
      runvar := (encRun c (encInit c s.runvar) b).1
      idx := s.nbits } := by
  obtain ⟨hl, hn⟩ := length_of_bitSeq h
  rw [encodeSignal, h]
  refine orInvalid_map_writeSeq ?_ _
  rw [encRun_length, hl, Params.sigCap]
  exact Nat.mul_le_mul (schemeMultiplier_le c) hn

/-- The output of a quantizer that fits replaces the bit sequence. -/
theorem orInvalid_replaceBits {s : State} {out : List Bit} (h : out.length ≤ s.params.maxLen) :
    orInvalid (replaceBits out s) = .next { s with
      bits := bufWriteFrom s.bits 0 out, nbits := out.length, flags := flagsSetPalValid false s.flags } :=
  orInvalid_map_writeSeq h _

/-- QDM on a held sample sequence. -/
theorem execQdm_eq {s : State} {xs : List Sample} (hf : unfaulted s) (h : sampSeq s = some xs) :
    execQdm s = .next { s with
      bits := bufWriteFrom s.bits 0 (dmRun 0 xs).2, nbits := (dmRun 0 xs).2.length, pred := (dmRun 0 xs).1,
      idx := s.nsamp, flags := flagsSetPalValid false s.flags } := by
  obtain ⟨hl, hn⟩ := length_of_sampSeq h
  rw [execQdm, unlessFaulted_of_unfaulted hf, h]
  exact orInvalid_replaceBits (by rw [dmRun_length, hl]; exact hn)

/-- QPCM with a legal `bps` on a held sample sequence whose output fits. -/
theorem execQpcm_eq {s : State} {bps : BitVec 8} {xs : List Sample} (hf : unfaulted s)
    (hb : legalBps s.params (bpsOperand bps) = true) (hfit : s.nsamp * bpsOperand bps ≤ s.params.maxLen)
    (h : sampSeq s = some xs) :
    execQpcm bps s = .next { pcmRegisters xs s with
      bits := bufWriteFrom s.bits 0 (pcmBits s.params.numerics (bpsOperand bps) xs)
      nbits := s.nsamp * bpsOperand bps
      flags := flagsSetPalValid false s.flags } := by
  obtain ⟨hl, -⟩ := length_of_sampSeq h
  have hlen : (pcmBits s.params.numerics (bpsOperand bps) xs).length = s.nsamp * bpsOperand bps := by
    rw [pcmBits_length, hl]
  rw [execQpcm, unlessFaulted_of_unfaulted hf, if_neg (by simp [hb]), if_neg (by omega), h]
  show orInvalid (replaceBits _ _) = _
  rw [orInvalid_replaceBits (by rw [hlen, pcmRegisters_params]; exact hfit), hlen]
  simp

/-- A scrambler on a held, unscrambled AMI signal, for a pass that keeps the signal's length. -/
theorem scrambleSignal_eq (k : ScrambleKind) {run : List Level → ScramblePass} {s : State} {x : List Level}
    (hp : scramblable s.flags = true) (h : sigSeq s = some x) (hrun : (run x).sig.length = x.length) :
    scrambleSignal k run s = .next { s with
      sig := bufWriteFrom s.sig 0 (run x).sig
      zc := (run x).zc
      oc := (run x).oc
      subpol := (run x).subpol
      idx := s.nsig
      flags := flagsAfterScramble k s.flags } := by
  obtain ⟨hl, hn⟩ := length_of_sigSeq h
  rw [scrambleSignal, if_neg (by simp [hp]), h]
  exact orInvalid_map_writeSeq (by rw [hrun, hl]; exact hn) _

/-! ## The shared operations, all that they can do -/

theorem encodeSignal_eq_next_iff (c : Scheme) (s t : State) :
    encodeSignal c s = .next t ↔ ∃ b, bitSeq s = some b ∧ t = { s with
      sig := bufWriteFrom s.sig 0 (encRun c (encInit c s.runvar) b).2
      nsig := schemeMultiplier c * s.nbits
      flags := flagsAfterEncode c s.flags
      runvar := (encRun c (encInit c s.runvar) b).1
      idx := s.nbits } := by
  cases h : bitSeq s with
  | none => simp [encodeSignal, h]
  | some b => simp [encodeSignal_eq c h, eq_comm]

theorem execQdm_eq_next_iff (s t : State) :
    execQdm s = .next t ↔ (faulted s ∧ t = s) ∨ (unfaulted s ∧ ∃ xs, sampSeq s = some xs ∧ t = { s with
      bits := bufWriteFrom s.bits 0 (dmRun 0 xs).2, nbits := (dmRun 0 xs).2.length, pred := (dmRun 0 xs).1,
      idx := s.nsamp, flags := flagsSetPalValid false s.flags }) := by
  rcases Bool.eq_false_or_eq_true (statusFault s.status) with hf | hf
  · simp [execQdm, hf, eq_comm]
  · cases h : sampSeq s with
    | none => simp [execQdm, hf, h]
    | some xs => simp [execQdm_eq hf h, hf, eq_comm]

/-- QPCM: ignored while faulted, one of its two faults, or its operation. -/
theorem execQpcm_eq_next_iff (bps : BitVec 8) (s t : State) :
    execQpcm bps s = .next t ↔
      (faulted s ∧ t = s) ∨
      (unfaulted s ∧ legalBps s.params (bpsOperand bps) = false ∧ t = raiseFault .invalidSelection s) ∨
      (unfaulted s ∧ legalBps s.params (bpsOperand bps) = true ∧ s.nsamp * bpsOperand bps > s.params.maxLen ∧
        t = raiseFault .capacityExceeded s) ∨
      (unfaulted s ∧ legalBps s.params (bpsOperand bps) = true ∧ s.nsamp * bpsOperand bps ≤ s.params.maxLen ∧
        ∃ xs, sampSeq s = some xs ∧ t = { pcmRegisters xs s with
          bits := bufWriteFrom s.bits 0 (pcmBits s.params.numerics (bpsOperand bps) xs)
          nbits := s.nsamp * bpsOperand bps
          flags := flagsSetPalValid false s.flags }) := by
  rcases Bool.eq_false_or_eq_true (statusFault s.status) with hf | hf
  · rw [execQpcm, unlessFaulted_of_faulted hf]
    simp [faulted, unfaulted, hf, @eq_comm _ t s]
  · rcases Bool.eq_false_or_eq_true (legalBps s.params (bpsOperand bps)) with hb | hb
    · by_cases hfit : s.nsamp * bpsOperand bps ≤ s.params.maxLen
      · cases h : sampSeq s with
        | none => simp [execQpcm, hf, hb, hfit, h, not_lt.2 hfit]
        | some xs => rw [execQpcm_eq hf hb hfit h]; simp [hf, hb, hfit, not_lt.2 hfit, eq_comm]
      · have hgt := not_le.1 hfit
        rw [execQpcm, unlessFaulted_of_unfaulted hf, if_neg (by simp [hb]), if_pos hgt]
        simp [faulted, unfaulted, hf, hb, hgt, hfit, @eq_comm _ t]
    · rw [execQpcm, unlessFaulted_of_unfaulted hf, if_pos hb]
      simp [faulted, unfaulted, hf, hb, @eq_comm _ t]

theorem scrambleSignal_eq_next_iff (k : ScrambleKind) {run : List Level → ScramblePass} (s t : State)
    (hrun : ∀ x, (run x).sig.length = x.length) :
    scrambleSignal k run s = .next t ↔
      (scramblable s.flags = false ∧ t = raiseFault .preconditionViolated s) ∨
      (scramblable s.flags = true ∧ ∃ x, sigSeq s = some x ∧ t = { s with
        sig := bufWriteFrom s.sig 0 (run x).sig
        zc := (run x).zc
        oc := (run x).oc
        subpol := (run x).subpol
        idx := s.nsig
        flags := flagsAfterScramble k s.flags }) := by
  rcases Bool.eq_false_or_eq_true (scramblable s.flags) with hp | hp
  · cases h : sigSeq s with
    | none => simp [scrambleSignal, hp, h]
    | some x => rw [scrambleSignal_eq k hp h (hrun x)]; simp [hp, eq_comm]
  · simp [scrambleSignal, hp, eq_comm]

/-- `BITS_PUSH`: ignored while faulted, CapacityExceeded on a full buffer, or one element appended. -/
theorem bitsPush_eq_next_iff (b : Bit) (s t : State) :
    bitsPush b s = .next t ↔
      (faulted s ∧ t = s) ∨
      (unfaulted s ∧ s.nbits = s.params.maxLen ∧ t = raiseFault .capacityExceeded s) ∨
      (unfaulted s ∧ s.nbits < s.params.maxLen ∧ t = { s with
        bits := bufWrite s.bits s.nbits b, nbits := s.nbits + 1, flags := flagsSetPalValid false s.flags }) := by
  rcases Bool.eq_false_or_eq_true (statusFault s.status) with hf | hf
  · simp [bitsPush, hf, eq_comm]
  · rcases Nat.lt_trichotomy s.nbits s.params.maxLen with h | h | h
    · simp [bitsPush, hf, bufWriteAt, orInvalid, h, h.ne, eq_comm]
    · simp [bitsPush, hf, h, eq_comm]
    · simp [bitsPush, hf, bufWriteAt, orInvalid, h.ne', not_lt.2 h.le]

/-- Appending a sample: CapacityExceeded on a full buffer, or one element appended. -/
theorem appendSample_eq_next_iff (q : Sample) (s t : State) :
    appendSample q s = .next t ↔
      (s.nsamp = s.params.maxLen ∧ t = raiseFault .capacityExceeded s) ∨
      (s.nsamp < s.params.maxLen ∧ t = { s with samp := bufWrite s.samp s.nsamp q, nsamp := s.nsamp + 1 }) := by
  rcases Nat.lt_trichotomy s.nsamp s.params.maxLen with h | h | h
  · simp [appendSample, bufWriteAt, orInvalid, h, h.ne, eq_comm]
  · simp [appendSample, h, eq_comm]
  · simp [appendSample, bufWriteAt, orInvalid, h.ne', not_lt.2 h.le]

end Sys2Proof.Machine
end

