-- ==== Sys2Proof/Laws/PerInstr.lean ====
section
/-!
SUPPORT. Statements about every command, one lemma per constructor.
-/

/-- R84: the word a command is encoded as satisfies `(w AND mask) = match` for the command's own row. -/
def Sys2Proof.Laws.EncodeMatchesRow.Statement (i : Sys2Proof.Instr) : Prop :=
  Sys2Proof.matchesRow i (Sys2Proof.encode i)

namespace Sys2Proof.Laws.EncodeMatchesRow

open Sys2Proof

theorem nop : Statement .nop := by
  change encode .nop &&& _ = _
  decide
theorem clrb : Statement .clrb := by
  change encode .clrb &&& _ = _
  decide
theorem clrs : Statement .clrs := by
  change encode .clrs &&& _ = _
  decide
theorem qpcm (bps : BitVec 8) : Statement (.qpcm bps) := by
  change encode (.qpcm bps) &&& 0xFF00#16 = 0x1000#16
  revert bps
  decide
theorem qdm : Statement .qdm := by
  change encode .qdm &&& _ = _
  decide
theorem enl : Statement .enl := by
  change encode .enl &&& _ = _
  decide
theorem eni : Statement .eni := by
  change encode .eni &&& _ = _
  decide
theorem eman : Statement .eman := by
  change encode .eman &&& _ = _
  decide
theorem edman : Statement .edman := by
  change encode .edman &&& _ = _
  decide
theorem eami : Statement .eami := by
  change encode .eami &&& _ = _
  decide
theorem snone : Statement .snone := by
  change encode .snone &&& _ = _
  decide
theorem sb8zs : Statement .sb8zs := by
  change encode .sb8zs &&& _ = _
  decide
theorem shdb3 : Statement .shdb3 := by
  change encode .shdb3 &&& _ = _
  decide
theorem apal : Statement .apal := by
  change encode .apal &&& _ = _
  decide
theorem azrun : Statement .azrun := by
  change encode .azrun &&& _ = _
  decide

end Sys2Proof.Laws.EncodeMatchesRow
end

