-- ==== Sys2Proof/Tests/Slice0.lean ====
section
/-!
SUPPORT. Tests. Expected values are the spec's: the words of 30_encoding.md R84 and R85, the vectors of
95_test_vectors.md (named in each comment), and states that meet the hypotheses of each statement (`witness_…`).
-/

namespace Sys2Proof.Tests

set_option Elab.async false

open Sys2Proof Sys2Proof.Machine

/-! ## Well-formedness: the one check, and ill-formed terms it refuses -/

theorem test_wf_refuses_bps_zero : Instr.wf Params.default (.qpcm 0) = false := by decide
theorem test_wf_refuses_bps_above_max : Instr.wf Params.default (.qpcm 17) = false := by decide
theorem test_wf_accepts_bps_max : Instr.wf Params.default (.qpcm 16) = true := by decide

/-! ## Decoding: each constructor's word written out from R81 and R84 (GRP, SEL, IMM8) -/

theorem test_decode_nop : decode 0b0000_0000_00000000#16 = some .nop := by decide
theorem test_decode_clrb : decode 0b0000_0001_00000000#16 = some .clrb := by decide
theorem test_decode_clrs : decode 0b0000_0010_00000000#16 = some .clrs := by decide
theorem test_decode_qpcm : decode 0b0001_0000_00000011#16 = some (.qpcm 3) := by decide
theorem test_decode_qdm : decode 0b0001_0001_00000000#16 = some .qdm := by decide
theorem test_decode_enl : decode 0b0010_0000_00000000#16 = some .enl := by decide
theorem test_decode_eni : decode 0b0010_0001_00000000#16 = some .eni := by decide
theorem test_decode_eman : decode 0b0010_0010_00000000#16 = some .eman := by decide
theorem test_decode_edman : decode 0b0010_0011_00000000#16 = some .edman := by decide
theorem test_decode_eami : decode 0b0010_0100_00000000#16 = some .eami := by decide
theorem test_decode_snone : decode 0b0011_0000_00000000#16 = some .snone := by decide
theorem test_decode_sb8zs : decode 0b0011_0001_00000000#16 = some .sb8zs := by decide
theorem test_decode_shdb3 : decode 0b0011_0010_00000000#16 = some .shdb3 := by decide
theorem test_decode_apal : decode 0b0100_0000_00000000#16 = some .apal := by decide
theorem test_decode_azrun : decode 0b0100_0001_00000000#16 = some .azrun := by decide
/-- 95_test_vectors.md 2.1: reserved words. -/
theorem test_decode_reserved :
    [0x1101#16, 0x1200#16, 0x2500#16, 0x2401#16, 0x3300#16, 0x4200#16, 0x0300#16, 0x5000#16, 0xFFFF#16].map decode =
      List.replicate 9 none := by decide
theorem test_decodeTableWord : decodeTableWord 16 0x1003 = some (.qpcm 3) := by decide

/-! ## Small states -/

/-- The reset state with `MAX_LEN = n` and the other parameters at their defaults. -/
def base (n : Nat) : State := State.resetWith { Params.default with maxLen := n }
/-- A bit sequence loaded, `MAX_LEN = 16`. -/
def withBits (b : List Bit) : State := { base 16 with bits := bufWriteFrom [] 0 b, nbits := b.length }
/-- A sample sequence loaded, `MAX_LEN = 16`. -/
def withSamples (xs : List Sample) : State := { base 16 with samp := bufWriteFrom [] 0 xs, nsamp := xs.length }
/-- An unscrambled AMI signal, `MAX_LEN = 16`. -/
def withAmi (x : List Level) : State :=
  { base 16 with sig := bufWriteFrom [] 0 x, nsig := x.length, flags := 0x0004#16 }
/-- A faulted state. -/
def stopped : State := { base 2 with status := 0x06#8 }
/-- The state a result answers. -/
def after : Result → Option State
  | .next t => some t
  | _ => none

/-- Levels from signed digits. -/
def lv (xs : List Int) : List Level := xs.map fun v => if v = 0 then .zero else if v < 0 then .neg else .pos

/-! ## Steps: one or two per command -/

/-- 44_control.md R200: NOP after reset leaves `STATUS = 0x00`, `FLAGS = 0x0007`. -/
theorem test_nop : (after (exec .nop (base 4))).map (fun t => (t.status, t.flags)) = some (0x00#8, 0x0007#16) := by
  decide
/-- R201's example. -/
theorem test_clrb : (after (exec .clrb (withBits [true, false, true]))).map (fun t => (t.nbits, bitSeq t)) =
    some (0, some []) := by decide +kernel
/-- R202's example. -/
theorem test_clrs : (after (exec .clrs (withSamples [1 / 2, 3 / 2]))).map (fun t => t.nsamp) = some 0 := by
  decide +kernel
/-- 95 section 2.2, row 1. -/
theorem test_qpcm_clamps_the_maximum :
    (after (exec (.qpcm 2) (withSamples [0, 1, 2, 3]))).map (fun t => (bitSeq t, t.qmin, t.qmax)) =
      some (some [false, false, false, true, true, false, true, true], 0, 3) := by decide +kernel
/-- 95 section 2.2: both causes apply and InvalidSelection wins. -/
theorem test_qpcm_priority :
    (after (exec (.qpcm 17) (withSamples [0, 1, 2]))).map (fun t => (t.status, t.nbits)) = some (0x06#8, 0) := by
  decide +kernel
/-- 95 section 2.2: `1 > 1` is false at the third sample. -/
theorem test_qdm : (after (exec .qdm (withSamples [1, 1, 1, 1]))).map (fun t => (bitSeq t, t.pred)) =
    some (some [true, true, false, true], 1) := by decide +kernel
/-- 95 section 2.3, row `1011001`, and the flags of the section's head. -/
theorem test_enl : (after (exec .enl (withBits [true, false, true, true, false, false, true]))).map
    (fun t => (sigSeq t, t.flags)) = some (some (lv [1, -1, 1, 1, -1, -1, 1]), 0x0000#16) := by decide +kernel
theorem test_eni : (after (exec .eni (withBits [true, false, true, true, false, false, true]))).map
    (fun t => (sigSeq t, t.flags, t.runvar)) = some (some (lv [1, 1, -1, 1, 1, 1, -1]), 0x0001#16, .neg) := by
  decide +kernel
theorem test_eman : (after (exec .eman (withBits [true, false, true, true]))).map (fun t => (sigSeq t, t.flags)) =
    some (some (lv [-1, 1, 1, -1, -1, 1, -1, 1]), 0x0022#16) := by decide +kernel
theorem test_edman : (after (exec .edman (withBits [true, false, true, true, false, false, true]))).map
    (fun t => (sigSeq t, t.flags, t.runvar)) =
    some (some (lv [-1, 1, -1, 1, 1, -1, -1, 1, -1, 1, -1, 1, 1, -1]), 0x0023#16, .neg) := by decide +kernel
theorem test_eami : (after (exec .eami (withBits [true, false, true, true, false, false, true]))).map
    (fun t => (sigSeq t, t.flags, t.runvar)) = some (some (lv [1, 0, -1, 1, 0, 0, -1]), 0x0004#16, .pos) := by
  decide +kernel
/-- R152's example. -/
theorem test_snone : (after (exec .snone (withAmi (lv [1, 0, 0, 0, 0, 0, 0, 0, 0])))).map sigSeq =
    some (some (lv [1, 0, 0, 0, 0, 0, 0, 0, 0])) := by decide +kernel
/-- 95 section 2.4: a run of 16, two substitutions with opposite codes. -/
theorem test_sb8zs : (after (exec .sb8zs (withAmi (lv ([1] ++ List.replicate 16 0 ++ [-1]))))).map
    (fun t => (sigSeq t, t.zc, t.subpol)) =
    some (some (lv [1, 0, 0, 0, 0, 0, 1, 0, -1, 0, 0, 0, 0, 0, -1, 0, 1, -1]), 0, .pos) := by decide +kernel
/-- 95 section 2.4: SB8ZS from reset faults, `STATUS = 0x0E`. -/
theorem test_sb8zs_precondition : (after (exec .sb8zs (base 4))).map (fun t => t.status) = some 0x0E#8 := by
  decide +kernel
/-- 95 section 2.4, the traced row: even, then odd. -/
theorem test_shdb3 : (after (exec .shdb3 (withAmi (lv [1, -1, 0, 0, 0, 0, 1, 0, 0, 0, 0, -1, 1])))).map
    (fun t => (sigSeq t, t.zc, t.oc, t.subpol, t.flags)) =
    some (some (lv [1, -1, 1, 0, 0, 1, 1, 0, 0, 0, -1, -1, 1]), 0, 2, .pos, 0x0014#16) := by decide +kernel
/-- 95 section 2.4: a short run is left as it is. -/
theorem test_shdb3_short_run : (after (exec .shdb3 (withAmi (lv [1, 0, 0, 0])))).map
    (fun t => (sigSeq t, t.zc, t.oc)) = some (some (lv [1, 0, 0, 0]), 3, 1) := by decide +kernel
/-- 95 section 2.5: the trace of R183 on `1101`. -/
theorem test_apal : (after (exec .apal (withBits [true, true, false, true]))).map
    (fun t => (t.palStart, t.palLen, t.radius.take 9, t.cen, t.rgt, t.flags)) =
    some (1, 3, [0, 1, 2, 1, 0, 3, 0, 1, 0], 5, 8, 0x0047#16) := by decide +kernel
/-- 95 section 2.5: a tie goes to the leftmost. -/
theorem test_apal_tie : longestPalindrome 0 [false, true, false, true] = (0, 3) := by decide +kernel
/-- 95 S9. -/
theorem test_azrun : (after (exec .azrun (withAmi (lv [1, 0, 0, 0, -1, 0, 0])))).map
    (fun t => (t.zrStart, t.zrCount, t.curStart, t.curLen, t.flags)) = some (1, 3, 5, 2, 0x0084#16) := by
  decide +kernel
/-- 95 section 2.5: tie between runs at 3 and 7. -/
theorem test_azrun_tie : (after (exec .azrun (withAmi (lv [1, 0, -1, 0, 0, 0, 1, 0, 0, 0])))).map
    (fun t => (t.zrStart, t.zrCount)) = some (3, 3) := by decide +kernel

/-! ## Ports, issue and reports -/

/-- 95 section 2.6: minus zero is stored with value 0. -/
theorem test_push_minus_zero : (after (hostAccess (.sampPush (.binary64 0x8000000000000000#64)) (base 4))).map
    (fun t => (t.nsamp, sampSeq t)) = some (1, some [0]) := by decide +kernel
/-- 95 section 2.6: a NaN into a full buffer reports PreconditionViolated. -/
theorem test_push_nan_when_full :
    (after (hostAccess (.sampPush (.binary64 0x7FF8000000000000#64)) { base 4 with nsamp := 4 })).map
      (fun t => t.status) = some 0x0E#8 := by decide +kernel
/-- 95 program P2: the pattern of 2.5, and its way back. -/
theorem test_pattern : sampleValue 0x4004000000000000#64 = some (5 / 2) ∧
    samplePattern (5 / 2) = some 0x4004000000000000#64 := by decide +kernel
/-- 95 section 2.6: CapacityExceeded on a full buffer. -/
theorem test_bits_push_full : (after (hostAccess (.bitsPush false) { base 4 with nbits := 4 })).map
    (fun t => (t.status, t.nbits)) = some (0x0A#8, 4) := by decide +kernel
/-- 95 program P6: a reserved word. -/
theorem test_reserved_word : (after (step ((base 4).withFetchWord 16 0x2500))).map (fun t => (t.status, t.flags)) =
    some (0x06#8, 0x0007#16) := by decide +kernel
/-- R186's example. -/
theorem test_palReport :
    palReport { withBits [true, true, false, true] with flags := 0x0047#16, palStart := 1, palLen := 3 } =
      some "Longest Palindrome: 101 (Length: 3)" := by decide +kernel
/-- R190's example. -/
theorem test_zrReport : zrReport { base 4 with flags := 0x0094#16, zrStart := 1, zrCount := 3 } =
    some "Longest zero sequence: 3 zeros starting at position 1" := by decide +kernel

/-! ## Witnesses: concrete states and operands that meet the hypotheses of each statement -/

theorem witness_DecodeFollowsMatchAndMask : matchesRow (.qpcm 3) 0x1005#16 ∧ matchesRow (.qpcm 7) 0x1005#16 := by
  constructor <;> (unfold matchesRow; decide)
theorem witness_StepTakesTheNextAccess :
    ((base 2).withFetchWord 16 0x0100).pending = HostAccess.cmd 0x0100#16 :: [] ∧ (base 2).pending = [] := by decide
theorem witness_StepRunsTheDecodedCommand :
    ((base 2).withFetchWord 16 0x1003).pending = HostAccess.cmd 0x1003#16 :: [] ∧
      decode 0x1003#16 = some (.qpcm 3) := by decide
theorem witness_ReservedWordRaisesInvalidSelection :
    decode 0x2401#16 = none ∧ decode 0x5000#16 = none ∧ unfaulted (base 2) ∧ faulted stopped := by decide
theorem witness_RaiseFaultWritesStatusAlone : unfaulted (base 2) := by decide
theorem witness_EveryCommandIgnoredWhileFaulted : faulted stopped := by decide
theorem witness_OnlyResetLeavesTheFaultState :
    ∃ t, faulted (stopped.withFetchWord 16 0x2400) ∧
      (stopped.withFetchWord 16 0x2400).pending = HostAccess.cmd 0x2400#16 :: [] ∧
      HostAccess.cmd 0x2400#16 ≠ .reset ∧ step (stopped.withFetchWord 16 0x2400) = .next t :=
  ⟨stopped, by decide, by decide, by decide, rfl⟩
theorem witness_FaultsArePrecise :
    ∃ t, unfaulted (base 2) ∧ hostAccess (.cmd 0x3100#16) (base 2) = .next t ∧ faulted t :=
  ⟨raiseFault .preconditionViolated (base 2), by decide, rfl, by decide⟩
theorem witness_CommandFaultsExactlyWhen :
    ∃ t, unfaulted (base 2) ∧ exec (.qpcm 17) (base 2) = .next t :=
  ⟨raiseFault .invalidSelection (base 2), by decide, rfl⟩
/-- The boundary values: `bps` 0 and 17 with `BPS_MAX = 16`; 17 = 1 + `MAX_LEN` bits asked for. -/
theorem witness_QpcmFaultsAndTheirPriority :
    unfaulted { base 16 with nsamp := 17 } ∧ (0 : BitVec 8).toNat = 0 ∧
      (17 : BitVec 8).toNat > (base 16).params.bpsMax ∧ 1 ≤ (1 : BitVec 8).toNat ∧
      (16 : BitVec 8).toNat ≤ (base 16).params.bpsMax ∧
      { base 16 with nsamp := 17 }.nsamp * (1 : BitVec 8).toNat > { base 16 with nsamp := 17 }.params.maxLen := by
  decide
theorem witness_ScramblerPreconditionFault :
    (unfaulted (base 2) ∧ flagsScheme (base 2).flags ≠ 4) ∧
      (unfaulted { base 2 with flags := 0x000C#16 } ∧ flagsScheme { base 2 with flags := 0x000C#16 }.flags = 4 ∧
        flagsScr { base 2 with flags := 0x000C#16 }.flags ≠ 0) := by decide
theorem witness_ClrbEmptiesTheBitSequence : unfaulted (withBits [true, false]) := by decide
theorem witness_ClrsEmptiesTheSampleSequence : unfaulted (withSamples [1]) := by decide +kernel
theorem witness_QpcmQuantizesExactly :
    unfaulted (withSamples [0, 1, 2, 3]) ∧ 1 ≤ (4 : BitVec 8).toNat ∧
      (4 : BitVec 8).toNat ≤ (withSamples [0, 1, 2, 3]).params.bpsMax ∧
      (withSamples [0, 1, 2, 3]).nsamp * (4 : BitVec 8).toNat ≤ (withSamples [0, 1, 2, 3]).params.maxLen ∧
      (withSamples [0, 1, 2, 3]).params.numerics = .exact ∧ sampSeq (withSamples [0, 1, 2, 3]) = some [0, 1, 2, 3] ∧
      (0 : Sample) ∈ [(0 : Sample), 1, 2, 3] ∧ (3 : Sample) ∈ [(0 : Sample), 1, 2, 3] ∧
      ∀ x ∈ [(0 : Sample), 1, 2, 3], 0 ≤ x ∧ x ≤ 3 := by decide +kernel
/-- `withSamples` with `NUMERICS = BINARY64`. -/
def withSamples64 (xs : List Sample) : State :=
  { withSamples xs with params := { (withSamples xs).params with numerics := .binary64 } }
theorem witness_QpcmBinary64IndexProperties :
    unfaulted (withSamples64 [5, 7]) ∧ 1 ≤ (8 : BitVec 8).toNat ∧
      (8 : BitVec 8).toNat ≤ (withSamples64 [5, 7]).params.bpsMax ∧
      (withSamples64 [5, 7]).nsamp * (8 : BitVec 8).toNat ≤ (withSamples64 [5, 7]).params.maxLen ∧
      (withSamples64 [5, 7]).params.numerics = .binary64 ∧ sampSeq (withSamples64 [5, 7]) = some [5, 7] ∧
      (5 : Sample) ∈ [(5 : Sample), 7] ∧ (7 : Sample) ∈ [(5 : Sample), 7] ∧
      ∀ x ∈ [(5 : Sample), 7], 5 ≤ x ∧ x ≤ 7 := by decide +kernel
theorem witness_QpcmOfNoSamples :
    unfaulted (base 2) ∧ 1 ≤ (16 : BitVec 8).toNat ∧ (16 : BitVec 8).toNat ≤ (base 2).params.bpsMax ∧
      (base 2).nsamp = 0 := by decide
theorem witness_PcmIndexHasTheClosedForm : 2 ≤ 2 ∧ (0 : Sample) ≤ 1 ∧ (1 : Sample) ≤ 1 ∧ (0 : Sample) < 1 := by
  decide +kernel
theorem witness_PcmIndexIsMonotone : (0 : Sample) ≤ 0 ∧ (0 : Sample) ≤ 1 ∧ (1 : Sample) ≤ 1 := by decide +kernel
theorem witness_PcmIndexEndPoints : 2 ≤ 2 ∧ (0 : Sample) < 1 ∧ (0 : Sample) ≤ 0 := by decide +kernel
theorem witness_QdmTracksThePrediction :
    unfaulted (withSamples [1]) ∧ sampSeq (withSamples [1]) = some [1] ∧
      (fun k : Nat => (k : Sample) / 2) 0 = 0 ∧
      ∀ k x, [(1 : Sample)][k]? = some x → (fun k : Nat => (k : Sample) / 2) (k + 1) =
        if x > (fun k : Nat => (k : Sample) / 2) k then (fun k : Nat => (k : Sample) / 2) k + 1 / 2
        else (fun k : Nat => (k : Sample) / 2) k - 1 / 2 := by
  refine ⟨by decide +kernel, by decide +kernel, by decide +kernel, fun k x h => ?_⟩
  cases k with
  | zero => simp at h; subst h; norm_num
  | succ k => simp at h
theorem witness_QdmPredictionCountsItsBits :
    ∃ t, unfaulted (withSamples [1]) ∧ exec .qdm (withSamples [1]) = .next t ∧ bitSeq t = some [true] := by
  refine ⟨(after (exec .qdm (withSamples [1]))).getD (base 1), ?_, rfl, ?_⟩ <;> decide +kernel
/-- The hypotheses the five encoder statements share, on one bit and on none. -/
abbrev EncoderHypotheses : Prop :=
  (unfaulted (withBits [true]) ∧ bitSeq (withBits [true]) = some [true]) ∧
    (unfaulted (withBits []) ∧ bitSeq (withBits []) = some [])
theorem witness_EnlEncodes : EncoderHypotheses := by decide
theorem witness_EniEncodes : EncoderHypotheses := witness_EnlEncodes
theorem witness_EmanEncodes : EncoderHypotheses := witness_EnlEncodes
theorem witness_EdmanEncodes : EncoderHypotheses := witness_EnlEncodes
theorem witness_EamiEncodes : EncoderHypotheses := witness_EnlEncodes
theorem witness_EncodingTwiceGivesTheSameSignal :
    ∃ t, Instr.eami ∈ [Instr.enl, .eni, .eman, .edman, .eami] ∧ exec .eami (withBits [true]) = .next t :=
  ⟨(after (exec .eami (withBits [true]))).getD (base 1), by decide, rfl⟩
theorem witness_Sb8zsCompletes :
    unfaulted (withAmi (lv (List.replicate 8 0))) ∧ flagsScheme (withAmi (lv (List.replicate 8 0))).flags = 4 ∧
      flagsScr (withAmi (lv (List.replicate 8 0))).flags = 0 ∧
      sigSeq (withAmi (lv (List.replicate 8 0))) = some (lv (List.replicate 8 0)) := by decide +kernel
theorem witness_Sb8zsSubstitutes :
    ∃ t, exec .sb8zs (withAmi (lv (List.replicate 8 0))) = .next t ∧ sigSeq t = some (lv [0, 0, 0, 0, 0, 1, 0, -1]) := by
  refine ⟨(after (exec .sb8zs (withAmi (lv (List.replicate 8 0))))).getD (base 1), rfl, ?_⟩
  decide +kernel
theorem witness_ScramblersBoundTheZeroRuns :
    ∃ t u, unfaulted (withAmi (lv [0, 0, 0, 0])) ∧
      (unfaulted t ∧ sigSeq t = some (lv [0, 0, 0, 0]) ∧ exec .sb8zs (withAmi (lv [0, 0, 0, 0])) = .next t) ∧
      (unfaulted u ∧ sigSeq u = some (lv [1, 0, 0, 1]) ∧ exec .shdb3 (withAmi (lv [0, 0, 0, 0])) = .next u) := by
  refine ⟨(after (exec .sb8zs (withAmi (lv [0, 0, 0, 0])))).getD (base 1),
    (after (exec .shdb3 (withAmi (lv [0, 0, 0, 0])))).getD (base 1), ?_, ⟨?_, ?_, rfl⟩, ?_, ?_, rfl⟩ <;> decide +kernel
theorem witness_Shdb3Completes :
    unfaulted (withAmi (lv [1, 0, 0, 0, 0])) ∧ flagsScheme (withAmi (lv [1, 0, 0, 0, 0])).flags = 4 ∧
      flagsScr (withAmi (lv [1, 0, 0, 0, 0])).flags = 0 ∧
      sigSeq (withAmi (lv [1, 0, 0, 0, 0])) = some (lv [1, 0, 0, 0, 0]) := by decide +kernel
theorem witness_Shdb3Substitutes :
    ∃ t, exec .shdb3 (withAmi (lv [1, 0, 0, 0, 0])) = .next t ∧ sigSeq t = some (lv [1, 0, 0, 0, 1]) := by
  refine ⟨(after (exec .shdb3 (withAmi (lv [1, 0, 0, 0, 0])))).getD (base 1), rfl, ?_⟩
  decide +kernel
theorem witness_ScrambleOnceAfterEami :
    ∃ t u, Instr.sb8zs ∈ [Instr.sb8zs, .shdb3] ∧ Instr.shdb3 ∈ [Instr.sb8zs, .shdb3] ∧ unfaulted (withBits [true]) ∧
      exec .eami (withBits [true]) = .next t ∧ exec .sb8zs t = .next u :=
  ⟨(after (exec .eami (withBits [true]))).getD (base 1),
    (after (exec .sb8zs ((after (exec .eami (withBits [true]))).getD (base 1)))).getD (base 1),
    by decide, by decide, by decide, rfl, rfl⟩
theorem witness_ApalCompletes :
    (unfaulted (withBits [false, true, true]) ∧ bitSeq (withBits [false, true, true]) = some [false, true, true] ∧
      3 ≤ [false, true, true].length) ∧
      (unfaulted (withBits []) ∧ bitSeq (withBits []) = some []) := by decide
theorem witness_ApalFindsTheLongestPalindrome :
    ∃ t, unfaulted (withBits [true]) ∧ bitSeq (withBits [true]) = some [true] ∧ [true] ≠ [] ∧
      exec .apal (withBits [true]) = .next t :=
  ⟨(after (exec .apal (withBits [true]))).getD (base 1), by decide, by decide, by decide, rfl⟩
/-- The centers at the ends of the range R183 scans, and the first entry beyond it. -/
theorem witness_ApalRadiiAreMaximal :
    ∃ t, unfaulted (withBits [true]) ∧ bitSeq (withBits [true]) = some [true] ∧ [true] ≠ [] ∧
      exec .apal (withBits [true]) = .next t ∧ 0 ≤ 2 * [true].length ∧ 2 ≤ 2 * [true].length ∧ 2 * [true].length < 3 :=
  ⟨(after (exec .apal (withBits [true]))).getD (base 1), by decide, by decide, by decide, rfl, by decide, by decide,
    by decide⟩
theorem witness_ApalLeavesTheLongestSuffixPalindrome :
    ∃ t, unfaulted (withBits [true]) ∧ bitSeq (withBits [true]) = some [true] ∧ [true] ≠ [] ∧
      exec .apal (withBits [true]) = .next t := witness_ApalFindsTheLongestPalindrome
theorem witness_AzrunFindsTheLongestZeroRun :
    (unfaulted (withAmi (lv [0])) ∧ sigSeq (withAmi (lv [0])) = some (lv [0])) ∧
      (unfaulted (base 2) ∧ sigSeq (base 2) = some []) := by decide +kernel
theorem witness_ScramblingBoundsTheReportedRun :
    ∃ t u, unfaulted (withAmi (lv [0, 0, 0, 0])) ∧ unfaulted t ∧ exec .azrun t = .next u ∧
      exec .shdb3 (withAmi (lv [0, 0, 0, 0])) = .next t := by
  refine ⟨(after (exec .shdb3 (withAmi (lv [0, 0, 0, 0])))).getD (base 1),
    (after (exec .azrun ((after (exec .shdb3 (withAmi (lv [0, 0, 0, 0])))).getD (base 1)))).getD (base 1),
    ?_, ?_, rfl, rfl⟩ <;> decide +kernel
theorem witness_ScramblingBoundsTheReportedRun_b8zs :
    ∃ t u, unfaulted (withAmi (lv [0, 0, 0, 0])) ∧ unfaulted t ∧ exec .azrun t = .next u ∧
      exec .sb8zs (withAmi (lv [0, 0, 0, 0])) = .next t := by
  refine ⟨(after (exec .sb8zs (withAmi (lv [0, 0, 0, 0])))).getD (base 1),
    (after (exec .azrun ((after (exec .sb8zs (withAmi (lv [0, 0, 0, 0])))).getD (base 1)))).getD (base 1),
    ?_, ?_, rfl, rfl⟩ <;> decide +kernel
theorem witness_PalindromeReportText :
    flagsPalValid { withBits [true] with flags := 0x0047#16, palLen := 1 }.flags = true ∧
      bitSeq { withBits [true] with flags := 0x0047#16, palLen := 1 } = some [true] ∧
      { withBits [true] with flags := 0x0047#16, palLen := 1 }.palStart +
        { withBits [true] with flags := 0x0047#16, palLen := 1 }.palLen ≤ [true].length := by decide
theorem witness_ZeroRunReportText :
    ∃ text, zrReport { base 4 with flags := 0x008C#16, zrCount := 1 } = some text := ⟨_, rfl⟩
/-- One clause each; the last two at `NBITS = MAX_LEN` and `NBITS = MAX_LEN - 1`. -/
theorem witness_BitsPushAppends :
    faulted stopped ∧ (unfaulted { base 4 with nbits := 4 } ∧ { base 4 with nbits := 4 }.nbits = 4) ∧
      (unfaulted { base 4 with nbits := 3 } ∧ { base 4 with nbits := 3 }.nbits < (base 4).params.maxLen) := by decide
/-- One clause each: an infinity, and the largest finite pattern at `NSAMP = MAX_LEN` and `MAX_LEN - 1`. -/
theorem witness_SampPushAppends :
    (base 4).params.sampleFormat = .binary64 ∧ faulted stopped ∧
      (unfaulted (base 4) ∧ sampleValue 0x7FF0000000000000#64 = none) ∧
      (∃ q, sampleValue 0x7FEFFFFFFFFFFFFF#64 = some q) ∧
      (unfaulted { base 4 with nsamp := 4 } ∧ { base 4 with nsamp := 4 }.nsamp = (base 4).params.maxLen) ∧
      (unfaulted { base 4 with nsamp := 3 } ∧ { base 4 with nsamp := 3 }.nsamp < (base 4).params.maxLen) :=
  ⟨by decide, by decide, by decide +kernel, ⟨_, rfl⟩, by decide, by decide⟩
/-- The reset state with `SAMPLE_FORMAT = RATIONAL`. -/
def baseRational (n : Nat) : State := State.resetWith { Params.default with maxLen := n, sampleFormat := .rational }
theorem witness_SampPushOfRationals :
    ((baseRational 4).params.sampleFormat = .rational ∧ (base 4).params.sampleFormat = .binary64) ∧
      faulted { baseRational 4 with status := 0x06#8 } ∧
      (unfaulted { baseRational 4 with nsamp := 4 } ∧ { baseRational 4 with nsamp := 4 }.nsamp = 4) ∧
      (unfaulted { baseRational 4 with nsamp := 3 } ∧
        { baseRational 4 with nsamp := 3 }.nsamp < (baseRational 4).params.maxLen) := by decide
/-- Exponent fields 2047, 0, 1 and 2046. -/
theorem witness_SampleValueIsBinary64 :
    (0x7FF0000000000000#64).toNat / 2 ^ 52 % 2048 = 2047 ∧ (0x8000000000000001#64).toNat / 2 ^ 52 % 2048 = 0 ∧
      (0x0010000000000000#64).toNat / 2 ^ 52 % 2048 = 1 ∧ (0xFFEFFFFFFFFFFFFF#64).toNat / 2 ^ 52 % 2048 = 2046 := by
  decide
/-- The last valid index of each buffer; a sample read as a pattern is 5/2, and then 0, whose sign is free. -/
theorem witness_ReadReturnsTheElementOrRegister :
    (1 < (withBits [true, false]).nbits ∧ bufRead (withBits [true, false]).bits 1 = some false) ∧
      (1 < (withAmi (lv [0, -1])).nsig ∧ bufRead (withAmi (lv [0, -1])).sig 1 = some .neg) ∧
      (0 < { baseRational 4 with samp := [(0, 5)], nsamp := 1 }.nsamp ∧
        bufRead { baseRational 4 with samp := [(0, 5)], nsamp := 1 }.samp 0 = some 5 ∧
        { baseRational 4 with samp := [(0, 5)], nsamp := 1 }.params.sampleFormat = .rational) ∧
      (1 < (withSamples [0, 5 / 2]).nsamp ∧ bufRead (withSamples [0, 5 / 2]).samp 1 = some (5 / 2) ∧
        bufRead (withSamples [0, 5 / 2]).samp 0 = some 0 ∧
        (withSamples [0, 5 / 2]).params.sampleFormat = .binary64 ∧
        sampleValue 0x4004000000000000#64 = some (5 / 2) ∧ sampleValue 0x8000000000000000#64 = some 0) := by
  decide +kernel
theorem witness_PushedSampleReadsBack :
    ∃ t u, unfaulted (base 1) ∧ (base 1).params.sampleFormat = .binary64 ∧ (base 1).nsamp < (base 1).params.maxLen ∧
      (sampleValue 0x4004000000000000#64 = some (5 / 2) ∧ (5 / 2 : Sample) ≠ 0 ∧
        hostAccess (.sampPush (.binary64 0x4004000000000000#64)) (base 1) = .next t) ∧
      (sampleValue 0x8000000000000000#64 = some 0 ∧
        hostAccess (.sampPush (.binary64 0x8000000000000000#64)) (base 1) = .next u) := by
  refine ⟨(after (hostAccess (.sampPush (.binary64 0x4004000000000000#64)) (base 1))).getD (base 1),
    (after (hostAccess (.sampPush (.binary64 0x8000000000000000#64)) (base 1))).getD (base 1), ?_, ?_, ?_,
    ⟨?_, ?_, rfl⟩, ?_, rfl⟩ <;> decide +kernel
/-- The first index beyond each sequence, and both sample formats. -/
theorem witness_ReadBeyondTheSequenceChangesNothing :
    (withBits [true]).nbits ≤ 1 ∧ (withAmi (lv [1])).nsig ≤ 1 ∧
      ((base 4).nsamp ≤ 0 ∧ (base 4).params.sampleFormat = .binary64) ∧
      ((baseRational 4).nsamp ≤ 0 ∧ (baseRational 4).params.sampleFormat = .rational) := by decide +kernel
theorem witness_ResetHasTheInvariants : Params.wf (base 1).params := by decide
/-- A state with the invariants from which a step is taken: one bit of `MAX_LEN = 1` loaded, EAMI issued. -/
def tiny : State := { base 1 with bits := [(0, true)], nbits := 1, pending := [.cmd 0x2400#16] }
theorem witness_EveryStepKeepsTheInvariants : tiny.Inv ∧ ∃ t, step tiny = .next t := by
  refine ⟨?_, _, rfl⟩
  constructor
  · decide
  · decide
  · unfold LengthsOk; decide
  · unfold ElementsHeld; decide
  · intro _ x h; cases h; simp
  · unfold StatusOk; decide
  · unfold FlagsOk; decide
  · exact ⟨by decide, by decide, by decide, 0, by decide +kernel, by decide⟩
  · unfold WidthsOk; decide
theorem witness_EveryStepAnswers : tiny.Inv := witness_EveryStepKeepsTheInvariants.1
theorem witness_ValidFlagsTellTheTruth : ResultsFresh tiny ∧ ∃ t, step tiny = .next t :=
  ⟨⟨fun h => absurd h (by decide), fun h => absurd h (by decide)⟩, _, rfl⟩
theorem witness_NoStepChangesTheParameters : ∃ t, step tiny = .next t := ⟨_, rfl⟩

end Sys2Proof.Tests
end

section
/-!
The scan of APAL under two separators (43_analyzers.md R183, 00_scope.md R7): the separator is only ever compared with
another symbol of the interleaved sequence, and each such comparison comes out the same whichever symbol it is.
-/

namespace Sys2Proof.Machine

open Sys2Proof

theorem interleaved_of_even (sep : Nat) (b : List Bit) {j : Nat} (hj : j % 2 = 0) :
    interleaved sep b j = some (.other sep) := if_pos hj

theorem interleaved_of_odd (sep : Nat) (b : List Bit) {j : Nat} (hj : ¬ j % 2 = 0) :
    interleaved sep b j = (b[(j - 1) / 2]?).map .bit := if_neg hj

/-- The separator is no bit, and it is no position beyond the sequence either. -/
theorem map_bit_ne_some_other (x : Option Bit) (n : Nat) : x.map Symbol.bit ≠ some (.other n) := by
  cases x <;> simp

/-- The one idea: two separators agree, two bits do not mention it, and a separator is never a bit. -/
theorem interleaved_eq_iff_of_sep (sep sep' : Nat) (b : List Bit) (j k : Nat) :
    interleaved sep b j = interleaved sep b k ↔ interleaved sep' b j = interleaved sep' b k := by
  by_cases hj : j % 2 = 0
  · by_cases hk : k % 2 = 0
    · simp only [interleaved_of_even _ b hj, interleaved_of_even _ b hk]
    · simp only [interleaved_of_even _ b hj, interleaved_of_odd _ b hk, (map_bit_ne_some_other _ _).symm]
  · by_cases hk : k % 2 = 0
    · simp only [interleaved_of_odd _ b hj, interleaved_of_even _ b hk, map_bit_ne_some_other]
    · simp only [interleaved_of_odd _ b hj, interleaved_of_odd _ b hk]

theorem palExpand_eq_of_sep (sep sep' : Nat) (b : List Bit) (c fuel r : Nat) :
    palExpand sep b c fuel r = palExpand sep' b c fuel r := by
  induction fuel generalizing r with
  | zero => rfl
  | succ fuel ih => simp only [palExpand, interleaved_eq_iff_of_sep sep sep' b, ih]

theorem palStep_eq_of_sep (sep sep' : Nat) (b : List Bit) : palStep sep b = palStep sep' b := by
  funext x c
  have hr : palRadius sep b x c = palRadius sep' b x c := palExpand_eq_of_sep sep sep' b c _ _
  simp only [palStep, hr]

/-- All of the scan agrees, APAL's hidden registers included. -/
theorem palScan_eq_of_sep (sep sep' : Nat) (b : List Bit) : palScan sep b = palScan sep' b := by
  simp only [palScan, palStep_eq_of_sep sep sep' b]

/-- Settles O60: the result is read off the scan, which every separator leaves the same. -/
theorem palindromeResultIgnoresTheSeparator : Obligations.PalindromeResultIgnoresTheSeparator := by
  intro sep sep' b
  simp only [longestPalindrome, palScan_eq_of_sep sep sep' b]

end Sys2Proof.Machine
end

section
/-!
What one step can do, said once: `Effect s t` lists every change a host access that answers can make to the state
(30_encoding.md R91, 20_memory.md R62 to R64, 70_reset_and_hazards.md R240), and `effect_of_step` is the inversion of
`step` that the invariants of 10_state.md are read off from.
-/

namespace Sys2Proof.Machine

open Sys2Proof

/-! ## The writes of the accesses, each as one state -/

/-- What CLRB leaves (R201). -/
def bitsCleared (s : State) : State := { s with nbits := 0, flags := flagsSetPalValid false s.flags }

/-- What a push of a bit that has room leaves (R62). -/
def bitAppended (b : Bit) (s : State) : State :=
  { s with bits := bufWrite s.bits s.nbits b, nbits := s.nbits + 1, flags := flagsSetPalValid false s.flags }

/-- What a push of a sample that has room leaves (R63). -/
def sampleAppended (q : Sample) (s : State) : State :=
  { s with samp := bufWrite s.samp s.nsamp q, nsamp := s.nsamp + 1 }

/-- What a quantizer's output `out` leaves of the bit sequence and its flag (R100). -/
def bitsReplaced (out : List Bit) (s : State) : State :=
  { s with bits := bufWriteFrom s.bits 0 out, nbits := out.length, flags := flagsSetPalValid false s.flags }

/-- What an encoder command leaves for the bit sequence `b` (R120). -/
def signalEncoded (c : Scheme) (b : List Bit) (s : State) : State :=
  { s with
    sig := bufWriteFrom s.sig 0 (encRun c (encInit c s.runvar) b).2
    nsig := schemeMultiplier c * s.nbits
    flags := flagsAfterEncode c s.flags
    runvar := (encRun c (encInit c s.runvar) b).1
    idx := s.nbits }

/-- What a scrambler command leaves for the pass `y` (R161). -/
def signalScrambled (k : ScrambleKind) (y : ScramblePass) (s : State) : State :=
  { s with
    sig := bufWriteFrom s.sig 0 y.sig
    zc := y.zc
    oc := y.oc
    subpol := y.subpol
    idx := s.nsig
    flags := flagsAfterScramble k s.flags }

/-- What APAL leaves for the bit sequence `b` (R181). -/
def palindromeFound (b : List Bit) (s : State) : State :=
  { s with
    palStart := (longestPalindrome s.params.sep b).1
    palLen := (longestPalindrome s.params.sep b).2
    radius := (palScan s.params.sep b).radii ++ s.radius.drop (palScan s.params.sep b).radii.length
    cen := (palScan s.params.sep b).cen
    rgt := (palScan s.params.sep b).rgt
    idx := (palScan s.params.sep b).radii.length
    flags := flagsSetPalValid true s.flags }

/-- What AZRUN leaves for the signal `x` (R187). -/
def zeroRunFound (x : List Level) (s : State) : State :=
  { s with
    zrStart := (zrunScan x).start
    zrCount := (zrunScan x).count
    curStart := (zrunScan x).curStart
    curLen := (zrunScan x).curLen
    idx := s.nsig
    flags := flagsSetZrValid true s.flags }

/-- The changes a host access can make to the state `s`, with what is known of `s` when it makes them. -/
inductive Effect (s : State) : State → Prop where
  | unchanged : Effect s s
  | raised (code : ErrCode) : Effect s (raiseFault code s)
  | delivered (data : Option ReadValue) (ctr : Nat) : Effect s { s with readData := data, freeCtr := ctr }
  | reset : Effect s (resetBlock s)
  | clrb : Effect s (bitsCleared s)
  | clrs : Effect s { s with nsamp := 0 }
  | bitsPush (b : Bit) (room : s.nbits < s.params.maxLen) : Effect s (bitAppended b s)
  | sampPush (q : Sample) (room : s.nsamp < s.params.maxLen) : Effect s (sampleAppended q s)
  | qpcm (bps : Nat) (xs : List Sample) (held : sampSeq s = some xs) (fits : s.nsamp * bps ≤ s.params.maxLen) :
      Effect s (bitsReplaced (pcmBits s.params.numerics bps xs) (pcmRegisters xs s))
  | qdm (xs : List Sample) (held : sampSeq s = some xs) :
      Effect s (bitsReplaced (dmRun 0 xs).2 { s with pred := (dmRun 0 xs).1, idx := s.nsamp })
  | encode (c : Scheme) (b : List Bit) (held : bitSeq s = some b) : Effect s (signalEncoded c b s)
  | sb8zs (x : List Level) (held : sigSeq s = some x) (ami : flagsScheme s.flags = schemeCode .ami) :
      Effect s (signalScrambled .b8zs (b8zsRun x s.oc) s)
  | shdb3 (x : List Level) (held : sigSeq s = some x) (ami : flagsScheme s.flags = schemeCode .ami) :
      Effect s (signalScrambled .hdb3 (hdb3Run x) s)
  | apal (b : List Bit) (held : bitSeq s = some b) : Effect s (palindromeFound b s)
  | azrun (x : List Level) (held : sigSeq s = some x) : Effect s (zeroRunFound x s)

/-! ## Each access has one of the effects -/

variable {s t : State}

/-- Behind the gate only what stands behind it has to be looked at. -/
theorem effect_of_unlessFaulted {r : Result} (h : unlessFaulted s r = .next t) (hr : r = .next t → Effect s t) :
    Effect s t := by
  obtain ⟨-, rfl⟩ | ⟨-, h⟩ := (unlessFaulted_eq_next_iff s t r).1 h
  · exact .unchanged
  · exact hr h

theorem effect_of_encode {c : Scheme} (h : unlessFaulted s (encodeSignal c s) = .next t) : Effect s t :=
  effect_of_unlessFaulted h fun h => by
    obtain ⟨b, held, rfl⟩ := (encodeSignal_eq_next_iff c s t).1 h
    exact .encode c b held

theorem effect_of_execQpcm {bps : BitVec 8} (h : execQpcm bps s = .next t) : Effect s t := by
  obtain ⟨-, rfl⟩ | ⟨-, -, rfl⟩ | ⟨-, -, -, rfl⟩ | ⟨-, -, fits, xs, held, rfl⟩ :=
    (execQpcm_eq_next_iff bps s t).1 h
  · exact .unchanged
  · exact .raised _
  · exact .raised _
  · have := Effect.qpcm (bpsOperand bps) xs held fits
    rwa [bitsReplaced, pcmBits_length, (length_of_sampSeq held).1, pcmRegisters_bits, pcmRegisters_flags] at this

theorem effect_of_execQdm (h : execQdm s = .next t) : Effect s t := by
  obtain ⟨-, rfl⟩ | ⟨-, xs, held, rfl⟩ := (execQdm_eq_next_iff s t).1 h
  · exact .unchanged
  · exact .qdm xs held

theorem effect_of_execSb8zs (h : execSb8zs s = .next t) : Effect s t :=
  effect_of_unlessFaulted h fun h => by
    obtain ⟨-, rfl⟩ | ⟨hp, x, held, rfl⟩ := (scrambleSignal_eq_next_iff _ s t (b8zsRun_length · s.oc)).1 h
    · exact .raised _
    · exact .sb8zs x held ((scramblable_iff _).1 hp).1

theorem effect_of_execShdb3 (h : execShdb3 s = .next t) : Effect s t :=
  effect_of_unlessFaulted h fun h => by
    obtain ⟨-, rfl⟩ | ⟨hp, x, held, rfl⟩ := (scrambleSignal_eq_next_iff _ s t hdb3Run_length).1 h
    · exact .raised _
    · exact .shdb3 x held ((scramblable_iff _).1 hp).1

theorem effect_of_execApal (h : execApal s = .next t) : Effect s t :=
  effect_of_unlessFaulted h fun h => by
    split at h
    · cases h
    next b held => cases h; exact .apal b held

theorem effect_of_execAzrun (h : execAzrun s = .next t) : Effect s t :=
  effect_of_unlessFaulted h fun h => by
    split at h
    · cases h
    next x held => cases h; exact .azrun x held

theorem effect_of_exec {i : Instr} (h : exec i s = .next t) : Effect s t := by
  cases i with
  | nop => exact effect_of_unlessFaulted h fun h => by cases h; exact .unchanged
  | clrb => exact effect_of_unlessFaulted h fun h => by cases h; exact .clrb
  | clrs => exact effect_of_unlessFaulted h fun h => by cases h; exact .clrs
  | qpcm bps => exact effect_of_execQpcm h
  | qdm => exact effect_of_execQdm h
  | enl => exact effect_of_encode h
  | eni => exact effect_of_encode h
  | eman => exact effect_of_encode h
  | edman => exact effect_of_encode h
  | eami => exact effect_of_encode h
  | snone => exact effect_of_unlessFaulted h fun h => by cases h; exact .unchanged
  | sb8zs => exact effect_of_execSb8zs h
  | shdb3 => exact effect_of_execShdb3 h
  | apal => exact effect_of_execApal h
  | azrun => exact effect_of_execAzrun h

theorem effect_of_issueCommand {w : Word} (h : issueCommand w s = .next t) : Effect s t :=
  effect_of_unlessFaulted h fun h => by
    split at h
    · cases h; exact .raised _
    · exact effect_of_exec h

theorem effect_of_bitsPush {b : Bit} (h : bitsPush b s = .next t) : Effect s t := by
  obtain ⟨-, rfl⟩ | ⟨-, -, rfl⟩ | ⟨-, room, rfl⟩ := (bitsPush_eq_next_iff b s t).1 h
  · exact .unchanged
  · exact .raised _
  · exact .bitsPush b room

theorem effect_of_appendSample {q : Sample} (h : appendSample q s = .next t) : Effect s t := by
  obtain ⟨-, rfl⟩ | ⟨room, rfl⟩ := (appendSample_eq_next_iff q s t).1 h
  · exact .raised _
  · exact .sampPush q room

theorem effect_of_sampPush {v : SampleWord} (h : sampPush v s = .next t) : Effect s t := by
  unfold sampPush at h
  split at h
  · refine effect_of_unlessFaulted h fun h => ?_
    split at h
    · cases h; exact .raised _
    · exact effect_of_appendSample h
  · exact effect_of_unlessFaulted h effect_of_appendSample
  · cases h
  · cases h

theorem effect_deliverSample (q : Sample) (s : State) : Effect s (deliverSample q s) := by
  unfold deliverSample
  split
  · exact .delivered _ _
  · split
    · exact .delivered _ _
    · split <;> exact .delivered _ _

theorem effect_deliverAnySample (s : State) : Effect s (deliverAnySample s) := by
  unfold deliverAnySample
  split <;> exact .delivered _ _

/-- A read of a buffer: of an element below the length register, or beyond it. -/
theorem effect_of_bufferRead {α : Type} {m : Buffer α} {i n : Nat} {f : α → State} {u : State}
    (h : (if i < n then readHeld m i f else .next u) = .next t) (hf : ∀ v, Effect s (f v)) (hu : Effect s u) :
    Effect s t := by
  split at h
  · obtain ⟨v, -, rfl⟩ := Option.map_eq_some_iff.1 ((orInvalid_eq_next_iff _ t).1 h)
    exact hf v
  · cases h; exact hu

theorem effect_of_hostRead {r : ReadTarget} (h : hostRead r s = .next t) : Effect s t := by
  cases r with
  | bits i => exact effect_of_bufferRead h (fun _ => .delivered _ _) (.delivered _ _)
  | samp i => exact effect_of_bufferRead h (effect_deliverSample · s) (effect_deliverAnySample s)
  | sig i => exact effect_of_bufferRead h (fun _ => .delivered _ _) (.delivered _ _)
  | _ => cases h; exact .delivered _ _

theorem effect_of_hostAccess {a : HostAccess} (h : hostAccess a s = .next t) : Effect s t := by
  cases a with
  | cmd w => exact effect_of_issueCommand h
  | bitsPush b => exact effect_of_bitsPush h
  | sampPush v => exact effect_of_sampPush h
  | read r => exact effect_of_hostRead h
  | reset => cases h; exact .reset

/-- A step takes at most one access off `pending`, and then makes one of the listed changes. -/
theorem effect_of_step (h : step s = .next t) : ∃ rest, Effect { s with pending := rest } t := by
  unfold step accessStep at h
  split at h
  · cases h; exact ⟨s.pending, .unchanged⟩
  next a rest _ => exact ⟨rest, effect_of_hostAccess h⟩

/-! ## The parameters -/

theorem Effect.params_eq (h : Effect s t) : t.params = s.params := by
  cases h with
  | raised code => exact raiseFault_params code s
  | qpcm bps xs => exact pcmRegisters_params xs s
  | _ => rfl

/-- Settles O58: none of the changes a step can make touches the parameters. -/
theorem noStepChangesTheParameters : Obligations.NoStepChangesTheParameters := by
  intro s t h
  obtain ⟨rest, effect⟩ := effect_of_step h
  exact effect.params_eq

end Sys2Proof.Machine
end

section
/-!
Bounds on what the units put out, for the invariants of 10_state.md: the running variables never hold 0 (R26, R30), no
level 0 but from AMI (R42 (c)), the prediction is a half-integer (R31), and every position and length that a scan
reports lies within its sequence (R27 to R29, R33, R34, R38, R39).
-/

namespace Sys2Proof.Machine

open Sys2Proof

/-! ## The encoders -/

@[simp] theorem negate_eq_zero_iff (l : Level) : l.negate = .zero ↔ l = .zero := by cases l <;> decide

theorem encInit_ne_zero (c : Scheme) {v : Level} (hv : v ≠ .zero) : encInit c v ≠ .zero := by
  cases c <;> simp [encInit, hv]

theorem encStep_ne_zero (c : Scheme) {v : Level} (hv : v ≠ .zero) (b : Bit) : (encStep c v b).1 ≠ .zero := by
  cases c <;> cases b <;> simp [encStep, hv]

theorem zero_notMem_encStep {c : Scheme} (hc : c ≠ .ami) {v : Level} (hv : v ≠ .zero) (b : Bit) :
    Level.zero ∉ (encStep c v b).2 := by
  cases c <;> cases b <;> simp_all [encStep, @eq_comm _ Level.zero]

theorem encRun_ne_zero (c : Scheme) {v : Level} (hv : v ≠ .zero) (b : List Bit) : (encRun c v b).1 ≠ .zero := by
  induction b generalizing v with
  | nil => exact hv
  | cons x b ih => exact ih (encStep_ne_zero c hv x)

theorem zero_notMem_encRun {c : Scheme} (hc : c ≠ .ami) {v : Level} (hv : v ≠ .zero) (b : List Bit) :
    Level.zero ∉ (encRun c v b).2 := by
  induction b generalizing v with
  | nil => simp [encRun]
  | cons x b ih =>
    simp only [encRun, List.mem_append, not_or]
    exact ⟨zero_notMem_encStep hc hv x, ih (encStep_ne_zero c hv x)⟩

/-! ## The prediction of QDM -/

/-- One step of Delta Modulation moves a half-integer by one half. -/
theorem dmStep_half (k : Int) (x : Sample) :
    ∃ k' : Int, (dmStep ((k : Rat) / 2) x).1 = (k' : Rat) / 2 ∧ k'.natAbs ≤ k.natAbs + 1 := by
  unfold dmStep
  split
  · exact ⟨k + 1, by rw [dmDelta]; push_cast; ring, by omega⟩
  · exact ⟨k - 1, by rw [dmDelta]; push_cast; ring, by omega⟩

theorem dmRun_half (k : Int) (xs : List Sample) :
    ∃ k' : Int, (dmRun ((k : Rat) / 2) xs).1 = (k' : Rat) / 2 ∧ k'.natAbs ≤ k.natAbs + xs.length := by
  induction xs generalizing k with
  | nil => exact ⟨k, rfl, le_rfl⟩
  | cons x xs ih =>
    obtain ⟨k₁, hstep, hk₁⟩ := dmStep_half k x
    obtain ⟨k₂, hrun, hk₂⟩ := ih k₁
    refine ⟨k₂, ?_, by rw [List.length_cons]; omega⟩
    rw [dmRun, hstep, hrun]

/-! ## The scramblers -/

/-- `ZC` below the substitution's window and `SUBPOL` a polarity: what both scramblers keep along a pass. -/
def PassOk (window : Nat) (x : ScramblePass) : Prop := x.zc < window ∧ x.subpol ≠ .zero

theorem passOk_b8zsStep {x : ScramblePass} (h : PassOk 8 x) (i : Nat) : PassOk 8 (b8zsStep x i) := by
  obtain ⟨hz, hp⟩ := h
  unfold b8zsStep
  dsimp only
  generalize hzc : (if x.sig[i]? = some .zero then x.zc + 1 else 0) = zc
  have hle : zc ≤ 8 := by rw [← hzc]; split <;> omega
  split
  · exact ⟨Nat.zero_lt_succ 7, by simpa using hp⟩
  next hne => exact ⟨lt_of_le_of_ne hle hne, hp⟩

theorem passOk_hdb3Step {x : ScramblePass} (h : PassOk 4 x) (i : Nat) : PassOk 4 (hdb3Step x i) := by
  obtain ⟨hz, hp⟩ := h
  unfold hdb3Step
  split
  · split
    · exact ⟨Nat.zero_lt_succ 3, by simpa using hp⟩
    next hne => exact ⟨lt_of_le_of_ne hz hne, hp⟩
  · exact ⟨Nat.zero_lt_succ 3, hp⟩

theorem passOk_scrambleRun {window : Nat} {step : ScramblePass → Nat → ScramblePass} (hw : 0 < window)
    (h : ∀ {x}, PassOk window x → ∀ i, PassOk window (step x i)) (sig : List Level) (oc : Nat) :
    PassOk window (scrambleRun step sig oc) :=
  List.foldlRecOn _ _ ⟨hw, Level.noConfusion⟩ fun _ hx i _ => h hx i

theorem b8zsStep_oc (x : ScramblePass) (i : Nat) : (b8zsStep x i).oc = x.oc := by
  unfold b8zsStep
  dsimp only
  generalize (if x.sig[i]? = some .zero then x.zc + 1 else 0) = zc
  split <;> rfl

/-- B8ZS does not use `OC` (R29). -/
theorem b8zsRun_oc (sig : List Level) (oc : Nat) : (b8zsRun sig oc).oc = oc :=
  List.foldlRecOn (motive := fun x => x.oc = oc) _ _ rfl fun x hx i _ => (b8zsStep_oc x i).trans hx

theorem hdb3Step_oc_le (x : ScramblePass) (i : Nat) : (hdb3Step x i).oc ≤ x.oc + 1 := by
  unfold hdb3Step
  split
  · split <;> dsimp only <;> omega
  · exact le_rfl

theorem foldl_hdb3Step_oc_le (is : List Nat) (x : ScramblePass) :
    (is.foldl hdb3Step x).oc ≤ x.oc + is.length := by
  induction is generalizing x with
  | nil => exact le_rfl
  | cons i is ih =>
    calc ((i :: is).foldl hdb3Step x).oc ≤ (hdb3Step x i).oc + is.length := ih _
      _ ≤ x.oc + (i :: is).length := by have := hdb3Step_oc_le x i; rw [List.length_cons]; omega

/-- `OC` counts marks of the signal (R29), so it is no more than its length. -/
theorem hdb3Run_oc_le (sig : List Level) : (hdb3Run sig).oc ≤ sig.length := by
  have := foldl_hdb3Step_oc_le (List.range sig.length) { sig := sig, zc := 0, oc := 0, subpol := .pos }
  rwa [List.length_range, Nat.zero_add] at this

/-! ## The zero-run pass -/

/-- Every register of the zero-run pass is at most `n`. -/
def ZeroScan.BoundedBy (n : Nat) (x : ZeroScan) : Prop :=
  x.start ≤ n ∧ x.count ≤ n ∧ x.curStart ≤ n ∧ x.curLen ≤ n

theorem boundedBy_zrunStep {i : Nat} {x : ZeroScan} (h : x.BoundedBy i) (l : Level) :
    (zrunStep x i l).BoundedBy (i + 1) := by
  obtain ⟨hs, hc, hcs, hcl⟩ := h
  unfold zrunStep ZeroScan.BoundedBy
  split
  · dsimp only
    have hcur : (if x.curLen = 0 then i else x.curStart) ≤ i := by split <;> omega
    generalize (if x.curLen = 0 then i else x.curStart) = cur at hcur ⊢
    split <;> omega
  · dsimp only
    omega

theorem boundedBy_zrunFrom {i : Nat} {x : ZeroScan} (h : x.BoundedBy i) (ls : List Level) :
    (zrunFrom x i ls).BoundedBy (i + ls.length) := by
  induction ls generalizing i x with
  | nil => exact h
  | cons l ls ih =>
    rw [List.length_cons, Nat.add_comm ls.length, ← Nat.add_assoc]
    exact ih (boundedBy_zrunStep h l)

theorem boundedBy_zrunScan (x : List Level) : (zrunScan x).BoundedBy x.length := by
  have := boundedBy_zrunFrom (i := 0) (x := ⟨0, 0, 0, 0⟩) ⟨le_rfl, le_rfl, le_rfl, le_rfl⟩ x
  rwa [Nat.zero_add] at this

/-! ## The center scan of APAL -/

/-- Expanding stays within the interleaved sequence. -/
theorem add_palExpand_le (sep : Nat) (b : List Bit) {c : Nat} (fuel : Nat) {r : Nat} (h : c + r ≤ 2 * b.length) :
    c + palExpand sep b c fuel r ≤ 2 * b.length := by
  induction fuel generalizing r with
  | zero => exact h
  | succ fuel ih =>
    unfold palExpand
    split
    next hr => exact ih hr.2.1
    · exact h

/-- Every register of the center scan lies within the interleaved sequence of `n` bits. -/
structure PalScan.BoundedBy (n : Nat) (x : PalScan) : Prop where
  radii : ∀ r ∈ x.radii, r ≤ 2 * n
  cen : x.cen ≤ 2 * n
  rgt : x.rgt ≤ 2 * n
  bestLen : x.bestLen ≤ 2 * n
  bestCen : x.bestCen ≤ 2 * n

/-- The palindrome found at a center ends within the interleaved sequence. -/
theorem add_palRadius_le (sep : Nat) {b : List Bit} {x : PalScan} (h : x.BoundedBy b.length) {c : Nat}
    (hc : c ≤ 2 * b.length) : c + palRadius sep b x c ≤ 2 * b.length := by
  have hrgt := h.rgt
  refine add_palExpand_le sep b _ ?_
  split <;> omega

theorem boundedBy_palStep (sep : Nat) {b : List Bit} {x : PalScan} (h : x.BoundedBy b.length) {c : Nat}
    (hc : c ≤ 2 * b.length) : (palStep sep b x c).BoundedBy b.length := by
  have hr := add_palRadius_le sep h hc
  obtain ⟨hradii, hcen, hrgt, hbl, hbc⟩ := h
  unfold palStep
  constructor <;> dsimp only
  · intro r hmem
    obtain hmem | hmem := List.mem_append.1 hmem
    · exact hradii r hmem
    · rw [List.mem_singleton.1 hmem]; omega
  all_goals split <;> omega

theorem boundedBy_palScan (sep : Nat) (b : List Bit) : (palScan sep b).BoundedBy b.length := by
  refine List.foldlRecOn _ _ (by constructor <;> simp) fun x hx c hc => boundedBy_palStep sep hx ?_
  have := List.mem_range.1 hc
  split at this <;> omega

theorem foldl_palStep_radii_length (sep : Nat) (b : List Bit) (cs : List Nat) (x : PalScan) :
    (cs.foldl (palStep sep b) x).radii.length = x.radii.length + cs.length := by
  induction cs generalizing x with
  | nil => rfl
  | cons c cs ih => simp [ih, palStep, Nat.add_comm, Nat.add_left_comm]

/-- One radius per center. -/
theorem palScan_radii_length_le (sep : Nat) (b : List Bit) : (palScan sep b).radii.length ≤ 2 * b.length + 1 := by
  rw [palScan, foldl_palStep_radii_length, List.length_range]
  split <;> simp

theorem longestPalindrome_le (sep : Nat) (b : List Bit) :
    (longestPalindrome sep b).1 ≤ 2 * b.length ∧ (longestPalindrome sep b).2 ≤ 2 * b.length := by
  have h := boundedBy_palScan sep b
  have hlen := h.bestLen
  have hcen := h.bestCen
  simp only [longestPalindrome]
  omega

end Sys2Proof.Machine
end

section
/-!
The invariants of 10_state.md (`State.Inv`): one rule for each kind of write, then every effect of a step, then reset.
-/

namespace Sys2Proof.Machine

open Sys2Proof

/-! ## Capacities and registers -/

/-- `2*MAX_LEN + 1`, the number of centers of R183, still fits in `IDXW` bits (R7): it is odd, so no power of two. -/
theorem two_mul_maxLen_succ_lt_two_pow_idxw (p : Params) : 2 * p.maxLen + 1 < 2 ^ p.idxw := by
  have hlog : 2 * p.maxLen < 2 ^ (Nat.log2 (2 * p.maxLen) + 1) := Nat.lt_log2_self
  rw [Nat.pow_succ] at hlog
  rw [Params.idxw, Nat.pow_succ]
  omega

/-- The index, length and count registers, written out. -/
theorem widthsOk_iff (s : State) :
    WidthsOk s ↔
      (s.nbits < 2 ^ s.params.idxw ∧ s.nsamp < 2 ^ s.params.idxw ∧ s.nsig < 2 ^ s.params.idxw ∧
        s.palStart < 2 ^ s.params.idxw ∧ s.palLen < 2 ^ s.params.idxw ∧ s.zrStart < 2 ^ s.params.idxw ∧
        s.zrCount < 2 ^ s.params.idxw ∧ s.idx < 2 ^ s.params.idxw ∧ s.oc < 2 ^ s.params.idxw ∧
        s.cen < 2 ^ s.params.idxw ∧ s.rgt < 2 ^ s.params.idxw ∧ s.curStart < 2 ^ s.params.idxw ∧
        s.curLen < 2 ^ s.params.idxw) ∧
      (∀ v ∈ s.radius, v < 2 ^ s.params.idxw) ∧ s.radius.length = 2 * s.params.maxLen + 1 := by
  simp [WidthsOk]

/-- A sequence written from element 0 within the capacity is held. -/
theorem bufReadSeq_bufWriteFrom {α : Type} {cap : Nat} {vs : List α} (h : vs.length ≤ cap) (m : Buffer α) :
    bufReadSeq cap vs.length (bufWriteFrom m 0 vs) = some vs :=
  bufReadSeq_of_bufWriteSeq ((bufWriteSeq_eq_some_iff cap vs m _).2 ⟨h, rfl⟩)

theorem bufWf_bufWriteFrom_zero {α : Type} {cap : Nat} {m : Buffer α} (h : bufWf cap m) {vs : List α}
    (hl : vs.length ≤ cap) : bufWf cap (bufWriteFrom m 0 vs) := bufWf_bufWriteFrom h 0 vs (by omega)

/-- The length of a held sequence is within the capacity. -/
theorem le_of_bufReadSeq_isSome {α : Type} {cap n : Nat} {m : Buffer α} (h : (bufReadSeq cap n m).isSome = true) :
    n ≤ cap := ((bufReadSeq_isSome_iff cap n m).1 h).1

/-! ## One rule for each kind of write -/

section Rules
variable {s : State} (h : s.Inv)
include h

theorem State.Inv.withPending (accesses : List HostAccess) : State.Inv { s with pending := accesses } := { h with }

/-- A flag write that leaves all fields but `PAL_VALID` and `ZR_VALID` alone. -/
theorem State.Inv.withFlags {f : BitVec 16} {pal zr : Bool}
    (hf : FlagsAre f (flagsScheme s.flags) (flagsScr s.flags) (flagsDouble s.flags) pal zr (flagsReserved s.flags)) :
    State.Inv { s with flags := f } :=
  { h with
    zeros := fun hscheme => h.zeros (hf.scheme ▸ hscheme)
    flags := by
      have hs := h.flags
      unfold FlagsOk at hs ⊢
      rwa [hf.scheme, hf.scr, hf.double, hf.reserved] }

/-- A fault is recorded in `STATUS` alone (R214), and no code is 0 (R211). -/
theorem State.Inv.raiseFault (code : ErrCode) : (raiseFault code s).Inv := by
  rcases Bool.eq_false_or_eq_true (statusFault s.status) with hf | hf
  · rwa [raiseFault_of_faulted code s hf]
  · rw [raiseFault_of_unfaulted code s hf]
    obtain ⟨hbusy, -, hres⟩ := h.status
    have hv := statusFaulted_statusAfterFault code s.status
    have hcode : code.code ≠ 0 := by cases code <;> decide
    have hiff : statusErrcode (statusAfterFault code s.status) = 0 ↔
        statusFault (statusAfterFault code s.status) = false := by
      rw [hv.errcode, hv.fault]
      exact iff_of_false hcode (by decide)
    exact { h with status := ⟨hv.busy.trans hbusy, hiff, hv.reserved.trans hres⟩ }

theorem State.Inv.withBits {m : Buffer Bit} {n : Nat} (hm : bufWf s.params.maxLen m)
    (held : (bufReadSeq s.params.maxLen n m).isSome = true) : State.Inv { s with bits := m, nbits := n } := by
  have hn := le_of_bufReadSeq_isSome held
  have hw := two_mul_maxLen_succ_lt_two_pow_idxw s.params
  obtain ⟨-, hnsamp, hnsig⟩ := h.lengths
  obtain ⟨-, hsamp, hsig⟩ := h.elements
  obtain ⟨hregs, hradius⟩ := (widthsOk_iff s).1 h.widths
  exact { h with
    memory := ⟨hm, h.memory.2⟩
    lengths := ⟨hn, hnsamp, hnsig⟩
    elements := ⟨held, hsamp, hsig⟩
    widths := (widthsOk_iff _).2 ⟨by dsimp only; omega, hradius⟩ }

theorem State.Inv.withSamples {m : Buffer Sample} {n : Nat} (hm : bufWf s.params.maxLen m)
    (held : (bufReadSeq s.params.maxLen n m).isSome = true) : State.Inv { s with samp := m, nsamp := n } := by
  have hn := le_of_bufReadSeq_isSome held
  have hw := two_mul_maxLen_succ_lt_two_pow_idxw s.params
  obtain ⟨hbits, -, hsig⟩ := h.memory
  obtain ⟨hnbits, -, hnsig⟩ := h.lengths
  obtain ⟨hheld, -, hheld'⟩ := h.elements
  obtain ⟨hregs, hradius⟩ := (widthsOk_iff s).1 h.widths
  exact { h with
    memory := ⟨hbits, hm, hsig⟩
    lengths := ⟨hnbits, hn, hnsig⟩
    elements := ⟨hheld, held, hheld'⟩
    widths := (widthsOk_iff _).2 ⟨by dsimp only; omega, hradius⟩ }

/-- A signal comes with its flags: they say whether it may hold a level 0. -/
theorem State.Inv.withSignal {x : List Level} {f : BitVec 16} (hx : x.length ≤ s.params.sigCap)
    (hzero : flagsScheme f ≠ schemeCode .ami → Level.zero ∉ x) (hflags : FlagsOk { s with flags := f }) :
    State.Inv { s with sig := bufWriteFrom s.sig 0 x, nsig := x.length, flags := f } := by
  have held := bufReadSeq_bufWriteFrom hx s.sig
  have hw := two_mul_maxLen_succ_lt_two_pow_idxw s.params
  obtain ⟨hbits, hsamp, hsig⟩ := h.memory
  obtain ⟨hnbits, hnsamp, -⟩ := h.lengths
  obtain ⟨hheld, hheld', -⟩ := h.elements
  obtain ⟨hregs, hradius⟩ := (widthsOk_iff s).1 h.widths
  exact { h with
    memory := ⟨hbits, hsamp, bufWf_bufWriteFrom_zero hsig hx⟩
    lengths := ⟨hnbits, hnsamp, hx⟩
    elements := ⟨hheld, hheld', Option.isSome_iff_exists.2 ⟨x, held⟩⟩
    zeros := fun hscheme y hy => Option.some.inj (held.symm.trans hy) ▸ hzero hscheme
    flags := hflags
    widths := (widthsOk_iff _).2 ⟨by dsimp only; rw [Params.sigCap] at hx; omega, hradius⟩ }

theorem State.Inv.withIdx {n : Nat} (hn : n ≤ 2 * s.params.maxLen + 1) : State.Inv { s with idx := n } := by
  have hw := two_mul_maxLen_succ_lt_two_pow_idxw s.params
  obtain ⟨hregs, hradius⟩ := (widthsOk_iff s).1 h.widths
  exact { h with widths := (widthsOk_iff _).2 ⟨by dsimp only; omega, hradius⟩ }

theorem State.Inv.withRunvar {v : Level} (hv : v ≠ .zero) : State.Inv { s with runvar := v } :=
  { h with running := ⟨hv, h.running.2⟩ }

theorem State.Inv.withPred {k : Int} {q : Sample} (hq : q = (k : Rat) / 2) (hk : k.natAbs ≤ s.params.maxLen) :
    State.Inv { s with pred := q } := by
  obtain ⟨hr, hsp, hz, -⟩ := h.running
  exact { h with running := ⟨hr, hsp, hz, k, hq, hk⟩ }

/-- The scramblers' working registers. -/
theorem State.Inv.withPass {zc oc : Nat} {v : Level} (hz : zc ≤ 8) (ho : oc < 2 ^ s.params.idxw) (hv : v ≠ .zero) :
    State.Inv { s with zc := zc, oc := oc, subpol := v } := by
  obtain ⟨hr, -, -, hpred⟩ := h.running
  obtain ⟨hregs, hradius⟩ := (widthsOk_iff s).1 h.widths
  exact { h with
    running := ⟨hr, hv, hz, hpred⟩
    widths := (widthsOk_iff _).2 ⟨by dsimp only; omega, hradius⟩ }

/-! ## The effects of a step -/

theorem State.Inv.bitsCleared : (bitsCleared s).Inv :=
  (h.withFlags (flagsAre_flagsSetPalValid false s.flags)).withBits h.memory.1 rfl

theorem State.Inv.bitAppended (b : Bit) (room : s.nbits < s.params.maxLen) : (bitAppended b s).Inv := by
  obtain ⟨bs, held⟩ := Option.isSome_iff_exists.1 h.elements.1
  exact (h.withFlags (flagsAre_flagsSetPalValid false s.flags)).withBits (bufWf_bufWrite h.memory.1 room b)
    (Option.isSome_iff_exists.2 ⟨_, bufReadSeq_append held room b⟩)

theorem State.Inv.samplesCleared : State.Inv { s with nsamp := 0 } := h.withSamples h.memory.2.1 rfl

theorem State.Inv.sampleAppended (q : Sample) (room : s.nsamp < s.params.maxLen) : (sampleAppended q s).Inv := by
  obtain ⟨-, hsamp, -⟩ := h.elements
  obtain ⟨xs, held⟩ := Option.isSome_iff_exists.1 hsamp
  exact h.withSamples (bufWf_bufWrite h.memory.2.1 room q)
    (Option.isSome_iff_exists.2 ⟨_, bufReadSeq_append held room q⟩)

theorem State.Inv.bitsReplaced {out : List Bit} (fits : out.length ≤ s.params.maxLen) : (bitsReplaced out s).Inv :=
  (h.withFlags (flagsAre_flagsSetPalValid false s.flags)).withBits (bufWf_bufWriteFrom_zero h.memory.1 fits)
    (Option.isSome_iff_exists.2 ⟨_, bufReadSeq_bufWriteFrom fits s.bits⟩)

theorem State.Inv.pcmRegisters {xs : List Sample} (hxs : xs.length ≤ s.params.maxLen) : (pcmRegisters xs s).Inv := by
  cases xs with
  | nil => exact h.withIdx (Nat.zero_le _)
  | cons x xs => exact { h.withIdx (n := (x :: xs).length) (by omega) with }

theorem State.Inv.quantizedPcm {bps : Nat} {xs : List Sample} (held : sampSeq s = some xs)
    (fits : s.nsamp * bps ≤ s.params.maxLen) :
    (Machine.bitsReplaced (pcmBits s.params.numerics bps xs) (Machine.pcmRegisters xs s)).Inv := by
  obtain ⟨hl, hn⟩ := length_of_sampSeq held
  refine (h.pcmRegisters (hl.trans_le hn)).bitsReplaced ?_
  rwa [pcmBits_length, hl, pcmRegisters_params]

theorem State.Inv.quantizedDm {xs : List Sample} (held : sampSeq s = some xs) :
    (Machine.bitsReplaced (dmRun 0 xs).2 { s with pred := (dmRun 0 xs).1, idx := s.nsamp }).Inv := by
  obtain ⟨hl, hn⟩ := length_of_sampSeq held
  obtain ⟨k, hpred, hk⟩ := dmRun_half 0 xs
  have hpred : (dmRun 0 xs).1 = (k : Rat) / 2 := by simpa using hpred
  refine ((h.withPred hpred ?_).withIdx (n := s.nsamp) ?_).bitsReplaced ?_
  · simp only [Int.natAbs_zero] at hk; omega
  · dsimp only; omega
  · rw [dmRun_length]; exact hl.trans_le hn

/-- An encoder's flags: the scheme's code, no scrambling, `DOUBLE` as the scheme's multiplier says (R37, R120). -/
theorem State.Inv.flagsOk_encode (c : Scheme) : FlagsOk { s with flags := flagsAfterEncode c s.flags } := by
  have hf := flagsAre_flagsAfterEncode c s.flags
  obtain ⟨-, -, -, -, hres⟩ := h.flags
  unfold FlagsOk
  rw [hf.scheme, hf.scr, hf.double, hf.reserved]
  refine ⟨?_, by decide, by simp, ?_, hres⟩ <;> cases c <;> decide

theorem State.Inv.signalEncoded (c : Scheme) {b : List Bit} (held : bitSeq s = some b) :
    (signalEncoded c b s).Inv := by
  obtain ⟨hl, hn⟩ := length_of_bitSeq held
  have hrun : encInit c s.runvar ≠ .zero := encInit_ne_zero c h.running.1
  have hlen : (encRun c (encInit c s.runvar) b).2.length = schemeMultiplier c * s.nbits := by rw [encRun_length, hl]
  have hfit : schemeMultiplier c * s.nbits ≤ s.params.sigCap := Nat.mul_le_mul (schemeMultiplier_le c) hn
  have hzero : flagsScheme (flagsAfterEncode c s.flags) ≠ schemeCode .ami →
      Level.zero ∉ (encRun c (encInit c s.runvar) b).2 := fun hne =>
    zero_notMem_encRun (fun hc => hne (by rw [(flagsAre_flagsAfterEncode c s.flags).scheme, hc])) hrun b
  have := ((h.withSignal (hlen.trans_le hfit) hzero (h.flagsOk_encode c)).withRunvar
    (encRun_ne_zero c hrun b)).withIdx (n := s.nbits) (by dsimp only; omega)
  rwa [hlen] at this

/-- A scrambler's flags: the scheme is AMI by the precondition, and the scrambling is one of AMI's (R37, R161). -/
theorem State.Inv.flagsOk_scramble (k : ScrambleKind) (ami : flagsScheme s.flags = schemeCode .ami) :
    FlagsOk { s with flags := flagsAfterScramble k s.flags } := by
  have hf := flagsAre_flagsAfterScramble k s.flags
  obtain ⟨hscheme, -, -, hdouble, hres⟩ := h.flags
  unfold FlagsOk
  rw [hf.scheme, hf.scr, hf.double, hf.reserved]
  exact ⟨hscheme, by cases k <;> decide, fun _ => ami, hdouble, hres⟩

theorem State.Inv.signalScrambled (k : ScrambleKind) {y : ScramblePass} {window : Nat} (hy : PassOk window y)
    (hwindow : window ≤ 8) (ami : flagsScheme s.flags = schemeCode .ami) (hlen : y.sig.length = s.nsig)
    (hoc : y.oc < 2 ^ s.params.idxw) : (signalScrambled k y s).Inv := by
  obtain ⟨hz, hv⟩ := hy
  obtain ⟨-, -, hn⟩ := h.lengths
  have hzero : flagsScheme (flagsAfterScramble k s.flags) ≠ schemeCode .ami → Level.zero ∉ y.sig := fun hne =>
    absurd ((flagsAre_flagsAfterScramble k s.flags).scheme.trans ami) hne
  have := ((h.withSignal (hlen.trans_le hn) hzero (h.flagsOk_scramble k ami)).withPass (zc := y.zc) (by omega) hoc
    hv).withIdx (n := s.nsig) (by rw [Params.sigCap] at hn; dsimp only; omega)
  rwa [hlen] at this

theorem State.Inv.scrambledB8zs {x : List Level} (held : sigSeq s = some x)
    (ami : flagsScheme s.flags = schemeCode .ami) : (Machine.signalScrambled .b8zs (b8zsRun x s.oc) s).Inv := by
  obtain ⟨-, -, -, -, -, -, -, -, hoc, -⟩ := ((widthsOk_iff s).1 h.widths).1
  refine h.signalScrambled .b8zs (passOk_scrambleRun (by decide) passOk_b8zsStep x s.oc) le_rfl ami ?_ ?_
  · rw [b8zsRun_length, (length_of_sigSeq held).1]
  · rwa [b8zsRun_oc]

theorem State.Inv.scrambledHdb3 {x : List Level} (held : sigSeq s = some x)
    (ami : flagsScheme s.flags = schemeCode .ami) : (Machine.signalScrambled .hdb3 (hdb3Run x) s).Inv := by
  obtain ⟨hl, hn⟩ := length_of_sigSeq held
  have hw := two_mul_maxLen_succ_lt_two_pow_idxw s.params
  have hoc := hdb3Run_oc_le x
  refine h.signalScrambled .hdb3 (passOk_scrambleRun (by decide) passOk_hdb3Step x 0) (by decide) ami ?_ ?_
  · rw [hdb3Run_length, hl]
  · rw [Params.sigCap] at hn; omega

theorem State.Inv.palindromeFound {b : List Bit} (held : bitSeq s = some b) : (palindromeFound b s).Inv := by
  obtain ⟨hl, hn⟩ := length_of_bitSeq held
  have hw := two_mul_maxLen_succ_lt_two_pow_idxw s.params
  have hscan := boundedBy_palScan s.params.sep b
  have hcen := hscan.cen
  have hrgt := hscan.rgt
  have hcount := palScan_radii_length_le s.params.sep b
  obtain ⟨hstart, hlen⟩ := longestPalindrome_le s.params.sep b
  obtain ⟨hregs, hradius, hsize⟩ := (widthsOk_iff s).1 h.widths
  refine { h.withFlags (flagsAre_flagsSetPalValid true s.flags) with
    widths := (widthsOk_iff _).2 ⟨by dsimp only [Machine.palindromeFound]; omega, fun v hv => ?_, ?_⟩ }
  · obtain hv | hv := List.mem_append.1 hv
    · have := hscan.radii v hv
      dsimp only [Machine.palindromeFound]; omega
    · exact hradius v (List.mem_of_mem_drop hv)
  · dsimp only [Machine.palindromeFound]
    rw [List.length_append, List.length_drop]; omega

theorem State.Inv.zeroRunFound {x : List Level} (held : sigSeq s = some x) : (zeroRunFound x s).Inv := by
  obtain ⟨hl, hn⟩ := length_of_sigSeq held
  have hw := two_mul_maxLen_succ_lt_two_pow_idxw s.params
  obtain ⟨hstart, hcount, hcurStart, hcurLen⟩ := boundedBy_zrunScan x
  obtain ⟨hregs, hradius⟩ := (widthsOk_iff s).1 h.widths
  rw [Params.sigCap] at hn
  exact { h.withFlags (flagsAre_flagsSetZrValid true s.flags) with
    widths := (widthsOk_iff _).2 ⟨by dsimp only [Machine.zeroRunFound]; omega, hradius⟩ }

end Rules

/-! ## Reset -/

theorem inv_resetWith {p : Params} (hp : p.wf) : (State.resetWith p).Inv where
  params := hp
  memory := memory_wf_resetWith p
  lengths := ⟨Nat.zero_le _, Nat.zero_le _, Nat.zero_le _⟩
  elements := ⟨rfl, rfl, rfl⟩
  zeros := fun _ x hx => by cases hx; simp
  status := by unfold StatusOk; rw [resetWith_status]; decide
  flags := by unfold FlagsOk; rw [resetWith_flags]; decide
  running := ⟨by simp, by simp, Nat.zero_le _, 0, by simp, Nat.zero_le _⟩
  widths := by rw [widthsOk_iff]; simp

theorem State.Inv.resetBlock {s : State} (h : s.Inv) : (resetBlock s).Inv := { inv_resetWith h.params with }

/-- Settles O55: the reset values meet each invariant, whatever the parameters are. -/
theorem resetHasTheInvariants : Obligations.ResetHasTheInvariants :=
  ⟨fun _ => inv_resetWith, inv_resetWith (by decide)⟩

/-! ## Every step -/

theorem Effect.inv {s t : State} (effect : Effect s t) (h : s.Inv) : t.Inv := by
  cases effect with
  | unchanged => exact h
  | raised code => exact h.raiseFault code
  | delivered data ctr => exact { h with }
  | reset => exact h.resetBlock
  | clrb => exact h.bitsCleared
  | clrs => exact h.samplesCleared
  | bitsPush b room => exact h.bitAppended b room
  | sampPush q room => exact h.sampleAppended q room
  | qpcm bps xs held fits => exact h.quantizedPcm held fits
  | qdm xs held => exact h.quantizedDm held
  | encode c b held => exact h.signalEncoded c held
  | sb8zs x held ami => exact h.scrambledB8zs held ami
  | shdb3 x held ami => exact h.scrambledHdb3 held ami
  | apal b held => exact h.palindromeFound held
  | azrun x held => exact h.zeroRunFound held

/-- Settles O54: taking an access off `pending` touches no invariant, and each effect of a step keeps them all. -/
theorem everyStepKeepsTheInvariants : Obligations.EveryStepKeepsTheInvariants := by
  intro s t h hstep
  obtain ⟨rest, effect⟩ := effect_of_step hstep
  exact effect.inv (h.withPending rest)

end Sys2Proof.Machine
end

section
/-!
While `PAL_VALID` or `ZR_VALID` is 1 the result registers describe the current sequence (10_state.md R37): a write that
could make a result stale clears its flag.
-/

namespace Sys2Proof.Machine

open Sys2Proof

/-- The half of `ResultsFresh` about the palindrome. -/
def PalindromeFresh (s : State) : Prop :=
  flagsPalValid s.flags = true → ∀ b, bitSeq s = some b → (s.palStart, s.palLen) = longestPalindrome s.params.sep b

/-- The half of `ResultsFresh` about the zero run. -/
def ZeroRunFresh (s : State) : Prop :=
  flagsZrValid s.flags = true → ∀ x, sigSeq s = some x →
    s.zrStart = (zrunScan x).start ∧ s.zrCount = (zrunScan x).count

theorem resultsFresh_iff (s : State) : ResultsFresh s ↔ PalindromeFresh s ∧ ZeroRunFresh s := Iff.rfl

variable {s t : State}

/-- A cleared flag promises nothing. -/
theorem palindromeFresh_of_invalid (h : flagsPalValid s.flags = false) : PalindromeFresh s :=
  fun hv => Bool.noConfusion (h.symm.trans hv)

theorem zeroRunFresh_of_invalid (h : flagsZrValid s.flags = false) : ZeroRunFresh s :=
  fun hv => Bool.noConfusion (h.symm.trans hv)

/-- A change that leaves the bit sequence, its result and its flag alone. -/
theorem PalindromeFresh.of_kept (h : PalindromeFresh s) (hflag : flagsPalValid t.flags = flagsPalValid s.flags)
    (hseq : bitSeq t = bitSeq s) (hresult : (t.palStart, t.palLen) = (s.palStart, s.palLen))
    (hp : t.params = s.params) : PalindromeFresh t := by
  unfold PalindromeFresh at *
  rwa [hflag, hseq, hresult, hp]

/-- A change that leaves the signal, its result and its flag alone. -/
theorem ZeroRunFresh.of_kept (h : ZeroRunFresh s) (hflag : flagsZrValid t.flags = flagsZrValid s.flags)
    (hseq : sigSeq t = sigSeq s) (hstart : t.zrStart = s.zrStart) (hcount : t.zrCount = s.zrCount) :
    ZeroRunFresh t := by
  unfold ZeroRunFresh at *
  rwa [hflag, hseq, hstart, hcount]

/-- APAL stores the result for the sequence it read. -/
theorem palindromeFresh_palindromeFound {b : List Bit} (held : bitSeq s = some b) :
    PalindromeFresh (palindromeFound b s) := by
  intro _ b' held'
  rw [← Option.some.inj (held.symm.trans held')]
  rfl

/-- AZRUN stores the result for the signal it read. -/
theorem zeroRunFresh_zeroRunFound {x : List Level} (held : sigSeq s = some x) : ZeroRunFresh (zeroRunFound x s) := by
  intro _ x' held'
  rw [← Option.some.inj (held.symm.trans held')]
  exact ⟨rfl, rfl⟩

theorem Effect.palindromeFresh (effect : Effect s t) (h : PalindromeFresh s) : PalindromeFresh t := by
  cases effect with
  | unchanged | delivered | clrs | sampPush => exact h
  | raised code => exact h.of_kept (by simp) (by simp [bitSeq]) (by simp) (by simp)
  | reset => exact palindromeFresh_of_invalid (by rw [resetBlock_flags]; decide)
  | clrb | bitsPush | qpcm | qdm => exact palindromeFresh_of_invalid (flagsAre_flagsSetPalValid false _).pal
  | encode c => exact h.of_kept (flagsAre_flagsAfterEncode c s.flags).pal rfl rfl rfl
  | sb8zs | shdb3 => exact h.of_kept (flagsAre_flagsAfterScramble _ s.flags).pal rfl rfl rfl
  | apal b held => exact palindromeFresh_palindromeFound held
  | azrun => exact h.of_kept (flagsAre_flagsSetZrValid true s.flags).pal rfl rfl rfl

theorem Effect.zeroRunFresh (effect : Effect s t) (h : ZeroRunFresh s) : ZeroRunFresh t := by
  cases effect with
  | unchanged | delivered | clrs | sampPush => exact h
  | raised code => exact h.of_kept (by simp) (by simp [sigSeq]) (by simp) (by simp)
  | reset => exact zeroRunFresh_of_invalid (by rw [resetBlock_flags]; decide)
  | clrb | bitsPush | qdm => exact h.of_kept (flagsAre_flagsSetPalValid false s.flags).zr rfl rfl rfl
  | qpcm bps xs =>
    exact h.of_kept (by simp [bitsReplaced, flagsSetPalValid]) (by simp [bitsReplaced, sigSeq])
      (pcmRegisters_zrStart xs s) (pcmRegisters_zrCount xs s)
  | encode c => exact zeroRunFresh_of_invalid (flagsAre_flagsAfterEncode c s.flags).zr
  | sb8zs | shdb3 => exact zeroRunFresh_of_invalid (flagsAre_flagsAfterScramble _ s.flags).zr
  | apal => exact h.of_kept (flagsAre_flagsSetPalValid true s.flags).zr rfl rfl rfl
  | azrun x held => exact zeroRunFresh_zeroRunFound held

theorem resultsFresh_resetWith (p : Params) : ResultsFresh (State.resetWith p) :=
  ⟨palindromeFresh_of_invalid (by rw [resetWith_flags]; decide),
    zeroRunFresh_of_invalid (by rw [resetWith_flags]; decide)⟩

/-- Settles O57: each effect of a step keeps the sequence and the result, or clears the flag, or computes the result. -/
theorem validFlagsTellTheTruth : Obligations.ValidFlagsTellTheTruth := by
  refine ⟨fun s t h hstep => ?_, resultsFresh_resetWith⟩
  obtain ⟨hpal, hzr⟩ := (resultsFresh_iff s).1 h
  obtain ⟨rest, effect⟩ := effect_of_step hstep
  exact (resultsFresh_iff t).2 ⟨effect.palindromeFresh hpal, effect.zeroRunFresh hzr⟩

end Sys2Proof.Machine
end

section
/-!
Every access answers a next state where the sequences are held (10_state.md R42 (a), 30_encoding.md R91, 60_exceptions.md
R218); the one exception is a sample push in a format that the port does not carry (log entry 13).
-/

namespace Sys2Proof.Machine

open Sys2Proof

/-- The result is a next state: neither the model's fault nor a refusal. -/
def Answers (r : Result) : Prop := ∃ t, r = .next t

theorem answers_next (t : State) : Answers (.next t) := ⟨t, rfl⟩

theorem answers_unlessFaulted {s : State} {r : Result} (h : Answers r) : Answers (unlessFaulted s r) := by
  rcases Bool.eq_false_or_eq_true (statusFault s.status) with hf | hf
  · rw [unlessFaulted_of_faulted hf]; exact answers_next s
  · rwa [unlessFaulted_of_unfaulted hf]

/-! ## Commands, on held sequences -/

section Commands
variable {s : State}

theorem answers_encode (c : Scheme) {b : List Bit} (held : bitSeq s = some b) :
    Answers (unlessFaulted s (encodeSignal c s)) := answers_unlessFaulted ⟨_, encodeSignal_eq c held⟩

theorem answers_scramble (k : ScrambleKind) {run : List Level → ScramblePass} {x : List Level}
    (held : sigSeq s = some x) (hrun : (run x).sig.length = x.length) :
    Answers (unlessFaulted s (scrambleSignal k run s)) := by
  refine answers_unlessFaulted ?_
  rcases Bool.eq_false_or_eq_true (scramblable s.flags) with hp | hp
  · exact ⟨_, scrambleSignal_eq k hp held hrun⟩
  · exact ⟨_, if_pos hp⟩

theorem answers_execQpcm (bps : BitVec 8) {xs : List Sample} (held : sampSeq s = some xs) :
    Answers (execQpcm bps s) := by
  rcases Bool.eq_false_or_eq_true (statusFault s.status) with hf | hf
  · exact ⟨s, (execQpcm_eq_next_iff bps s s).2 (.inl ⟨hf, rfl⟩)⟩
  rcases Bool.eq_false_or_eq_true (legalBps s.params (bpsOperand bps)) with hb | hb
  · rcases Nat.lt_or_ge s.params.maxLen (s.nsamp * bpsOperand bps) with hfit | hfit
    · exact ⟨_, (execQpcm_eq_next_iff bps s _).2 (.inr (.inr (.inl ⟨hf, hb, hfit, rfl⟩)))⟩
    · exact ⟨_, execQpcm_eq hf hb hfit held⟩
  · exact ⟨_, (execQpcm_eq_next_iff bps s _).2 (.inr (.inl ⟨hf, hb, rfl⟩))⟩

theorem answers_execQdm {xs : List Sample} (held : sampSeq s = some xs) : Answers (execQdm s) := by
  rcases Bool.eq_false_or_eq_true (statusFault s.status) with hf | hf
  · exact ⟨s, (execQdm_eq_next_iff s s).2 (.inl ⟨hf, rfl⟩)⟩
  · exact ⟨_, execQdm_eq hf held⟩

theorem answers_execApal {b : List Bit} (held : bitSeq s = some b) : Answers (execApal s) :=
  answers_unlessFaulted (by rw [held]; exact answers_next _)

theorem answers_execAzrun {x : List Level} (held : sigSeq s = some x) : Answers (execAzrun s) :=
  answers_unlessFaulted (by rw [held]; exact answers_next _)

/-- Each command reads at most one sequence, and every sequence is held. -/
theorem answers_exec (h : ElementsHeld s) (i : Instr) : Answers (exec i s) := by
  obtain ⟨hbits, hsamp, hsig⟩ := h
  obtain ⟨b, hb⟩ := Option.isSome_iff_exists.1 hbits
  obtain ⟨xs, hxs⟩ := Option.isSome_iff_exists.1 hsamp
  obtain ⟨x, hx⟩ := Option.isSome_iff_exists.1 hsig
  cases i with
  | nop | clrb | clrs | snone => exact answers_unlessFaulted (answers_next _)
  | qpcm bps => exact answers_execQpcm bps hxs
  | qdm => exact answers_execQdm hxs
  | enl => exact answers_encode .nrzL hb
  | eni => exact answers_encode .nrzI hb
  | eman => exact answers_encode .manchester hb
  | edman => exact answers_encode .diffManchester hb
  | eami => exact answers_encode .ami hb
  | sb8zs => exact answers_scramble .b8zs (run := (b8zsRun · s.oc)) hx (b8zsRun_length x s.oc)
  | shdb3 => exact answers_scramble .hdb3 hx (hdb3Run_length x)
  | apal => exact answers_execApal hb
  | azrun => exact answers_execAzrun hx

theorem answers_issueCommand (h : ElementsHeld s) (w : Word) : Answers (issueCommand w s) := by
  refine answers_unlessFaulted ?_
  cases hw : decode w with
  | none => exact answers_next _
  | some i => exact answers_exec h i

/-! ## The ports -/

theorem answers_bitsPush (h : s.nbits ≤ s.params.maxLen) (b : Bit) : Answers (bitsPush b s) := by
  rcases Bool.eq_false_or_eq_true (statusFault s.status) with hf | hf
  · exact ⟨s, (bitsPush_eq_next_iff b s s).2 (.inl ⟨hf, rfl⟩)⟩
  · rcases h.eq_or_lt with hfull | hroom
    · exact ⟨_, (bitsPush_eq_next_iff b s _).2 (.inr (.inl ⟨hf, hfull, rfl⟩))⟩
    · exact ⟨_, (bitsPush_eq_next_iff b s _).2 (.inr (.inr ⟨hf, hroom, rfl⟩))⟩

theorem answers_appendSample (h : s.nsamp ≤ s.params.maxLen) (q : Sample) : Answers (appendSample q s) := by
  rcases h.eq_or_lt with hfull | hroom
  · exact ⟨_, (appendSample_eq_next_iff q s _).2 (.inl ⟨hfull, rfl⟩)⟩
  · exact ⟨_, (appendSample_eq_next_iff q s _).2 (.inr ⟨hroom, rfl⟩)⟩

/-- The one refusal of the model: the other format at the sample port (R63). -/
theorem answers_sampPush_or_portFormat (h : s.nsamp ≤ s.params.maxLen) (v : SampleWord) :
    Answers (sampPush v s) ∨ sampPush v s = .refused .portFormat := by
  unfold sampPush
  split
  · refine .inl (answers_unlessFaulted ?_)
    split
    · exact answers_next _
    next q _ => exact answers_appendSample h q
  · exact .inl (answers_unlessFaulted (answers_appendSample h _))
  · exact .inr rfl
  · exact .inr rfl

/-- Below the length register of a held sequence a read finds its element; beyond it the answer is a free value. -/
theorem answers_bufferRead {α : Type} {cap n i : Nat} {m : Buffer α} (held : (bufReadSeq cap n m).isSome = true)
    (f : α → State) (u : State) : Answers (if i < n then readHeld m i f else .next u) := by
  split
  next hi =>
    obtain ⟨v, hv⟩ := Option.isSome_iff_exists.1 (((bufReadSeq_isSome_iff cap n m).1 held).2 i hi)
    exact ⟨f v, by rw [readHeld, hv]; rfl⟩
  · exact answers_next u

theorem answers_hostRead (h : ElementsHeld s) (r : ReadTarget) : Answers (hostRead r s) := by
  obtain ⟨hbits, hsamp, hsig⟩ := h
  cases r with
  | bits i => exact answers_bufferRead hbits _ _
  | samp i => exact answers_bufferRead hsamp _ _
  | sig i => exact answers_bufferRead hsig _ _
  | _ => exact answers_next _

theorem hostAccess_answers_or_portFormat (h : s.Inv) (a : HostAccess) :
    Answers (hostAccess a s) ∨ hostAccess a s = .refused .portFormat ∧ ∃ v, a = .sampPush v := by
  obtain ⟨hnbits, hnsamp, -⟩ := h.lengths
  cases a with
  | cmd w => exact .inl (answers_issueCommand h.elements w)
  | bitsPush b => exact .inl (answers_bitsPush hnbits b)
  | sampPush v => exact (answers_sampPush_or_portFormat hnsamp v).imp_right fun hr => ⟨hr, v, rfl⟩
  | read r => exact .inl (answers_hostRead h.elements r)
  | reset => exact .inl (answers_next _)

end Commands

/-- Settles O56: idle, a step answers the state itself; else the next access answers, or is the refused push. -/
theorem everyStepAnswers : Obligations.EveryStepAnswers := by
  intro s h
  rw [step, accessStep]
  cases hp : s.pending with
  | nil => exact .inl (answers_next s)
  | cons a rest =>
    exact (hostAccess_answers_or_portFormat (h.withPending rest) a).imp_right
      fun ⟨hr, v, ha⟩ => ⟨hr, v, rest, by rw [ha]⟩

end Sys2Proof.Machine
end

section
/-!
The value of a 64-bit pattern (10_state.md R22, 20_memory.md R67, log entry 14): its fields as quotients and remainders
of the pattern's number, and its magnitude as a rational with a signed power of two.
-/

namespace Sys2Proof.Machine

open Sys2Proof

/-! ## The fields of a pattern -/

theorem patternExponent_eq (w : BitVec 64) : patternExponent w = w.toNat / 2 ^ 52 % 2048 := by
  rw [patternExponent, BitVec.extractLsb'_toNat, Nat.shiftRight_eq_div_pow]

theorem patternFraction_eq (w : BitVec 64) : patternFraction w = w.toNat % 2 ^ 52 := by
  rw [patternFraction, BitVec.extractLsb'_toNat, Nat.shiftRight_zero]

theorem patternSign_eq (w : BitVec 64) : patternSign w = decide (w.toNat / 2 ^ 63 = 1) := by
  have hw : w.toNat < 2 ^ 64 := w.isLt
  have hle : w.toNat / 2 ^ 63 < 2 := by omega
  rw [patternSign, BitVec.getLsbD, Nat.testBit_eq_decide_div_mod_eq, Nat.mod_eq_of_lt hle]

/-! ## The magnitude -/

theorem mkRat_two_pow (n k : Nat) : mkRat n (2 ^ k) = (n : Rat) * (2 : Rat) ^ (-(k : Int)) := by
  rw [Rat.mkRat_eq_div, zpow_neg, zpow_natCast, div_eq_mul_inv]
  push_cast
  rfl

theorem patternMagnitude_zero (f : Nat) : patternMagnitude 0 f = (f : Rat) * (2 : Rat) ^ (-1074 : Int) := by
  rw [patternMagnitude, if_pos rfl]
  exact mkRat_two_pow f 1074

/-- Both sides of `e = 1075` are one formula once the exponent may be negative. -/
theorem patternMagnitude_of_ne_zero {e : Nat} (he : e ≠ 0) (f : Nat) :
    patternMagnitude e f = ((2 ^ 52 + f : Nat) : Rat) * (2 : Rat) ^ ((e : Int) - 1075) := by
  rw [patternMagnitude, if_neg he]
  split
  next hle =>
    have hexp : (e : Int) - 1075 = ((e - 1075 : Nat) : Int) := by omega
    rw [hexp, zpow_natCast, Nat.cast_mul (2 ^ 52 + f), Nat.cast_pow]
    rfl
  next hlt =>
    have hexp : (e : Int) - 1075 = -((1075 - e : Nat) : Int) := by omega
    rw [hexp]
    exact mkRat_two_pow (2 ^ 52 + f) (1075 - e)

/-! ## The value -/

theorem sampleValue_of_exponent_eq {w : BitVec 64} (h : patternExponent w = 2047) : sampleValue w = none := if_pos h

/-- A finite pattern's value is its magnitude, negated when its sign bit is 1. -/
theorem sampleValue_of_exponent_ne {w : BitVec 64} (h : patternExponent w ≠ 2047) :
    sampleValue w = some ((-1) ^ (w.toNat / 2 ^ 63) * patternMagnitude (patternExponent w) (patternFraction w)) := by
  have hw : w.toNat < 2 ^ 64 := w.isLt
  have hsign : w.toNat / 2 ^ 63 = 0 ∨ w.toNat / 2 ^ 63 = 1 := by omega
  rw [sampleValue, if_neg h, patternSign_eq]
  obtain hs | hs := hsign <;> rw [hs] <;> simp

/-- Settles O49: the model's three cases of the exponent, each in the form of the statement. -/
theorem sampleValueIsBinary64 : Obligations.SampleValueIsBinary64 := by
  intro w
  simp only [← patternExponent_eq, ← patternFraction_eq]
  refine ⟨sampleValue_of_exponent_eq, fun h0 => ?_, fun h0 hinf => ?_⟩
  · rw [sampleValue_of_exponent_ne (by omega), h0, patternMagnitude_zero, mul_assoc]
  · rw [sampleValue_of_exponent_ne hinf, patternMagnitude_of_ne_zero h0, mul_assoc]

end Sys2Proof.Machine
end

section
/-!
A pattern and its value (20_memory.md R63, R64, R67): the fields of a pattern rebuild it, and the fields computed from
a non-zero value are those of the one pattern that denotes it. The two zeros denote one value.
-/

namespace Sys2Proof.Machine

open Sys2Proof

/-! ## A pattern is its three fields -/

theorem patternExponent_lt (w : BitVec 64) : patternExponent w < 2 ^ 11 := (w.extractLsb' 52 11).isLt

theorem patternFraction_lt (w : BitVec 64) : patternFraction w < 2 ^ 52 := (w.extractLsb' 0 52).isLt

theorem patternOfFields_fields (w : BitVec 64) :
    patternOfFields (patternSign w) (patternExponent w) (patternFraction w) = w := by
  refine BitVec.eq_of_getLsbD_eq fun i hi => ?_
  rw [patternOfFields, patternExponent, patternFraction, BitVec.ofNat_toNat, BitVec.ofNat_toNat, BitVec.setWidth_eq,
    BitVec.setWidth_eq]
  change BitVec.getLsbD (w := 1 + 11 + 52) (BitVec.ofBool (patternSign w) ++ w.extractLsb' 52 11 ++
    w.extractLsb' 0 52) i = _
  rw [BitVec.getLsbD_append, BitVec.getLsbD_append, BitVec.getLsbD_extractLsb', BitVec.getLsbD_extractLsb']
  split
  next hfrac => simp [hfrac]
  next hfrac =>
    split
    next hexp => rw [decide_eq_true hexp, Bool.true_and, Nat.add_sub_cancel' (by omega)]
    next hexp =>
      obtain rfl : i = 63 := by omega
      simp [patternSign]

/-! ## The magnitude in units of the least one -/

/-- The magnitude of the fields `e` and `f`, counted in units of `2^-1074`. -/
def magnitudeUnits (e f : Nat) : Nat := if e = 0 then f else (2 ^ 52 + f) * 2 ^ (e - 1)

theorem patternMagnitude_eq_mkRat (e f : Nat) : patternMagnitude e f = mkRat (magnitudeUnits e f) (2 ^ 1074) := by
  rw [mkRat_two_pow, magnitudeUnits]
  split
  next h0 => rw [h0, patternMagnitude_zero]; rfl
  next h0 =>
    have hexp : (e : Int) - 1075 = ((e - 1 : Nat) : Int) + -((1074 : Nat) : Int) := by omega
    rw [patternMagnitude_of_ne_zero h0, hexp, zpow_add₀ two_ne_zero, zpow_natCast, Nat.cast_mul (2 ^ 52 + f),
      Nat.cast_pow, mul_assoc]
    rfl

theorem patternMagnitude_nonneg (e f : Nat) : 0 ≤ patternMagnitude e f := by
  rw [patternMagnitude_eq_mkRat]
  exact Rat.mkRat_nonneg (Int.natCast_nonneg _) _

/-- In lowest terms a fraction over a power of two stays one: numerator and denominator lose the same power. -/
theorem num_mul_two_pow_of_mkRat {q : Rat} {n j : Nat} (h : q = mkRat n (2 ^ j)) :
    q.den.log2 ≤ j ∧ q.num.natAbs * 2 ^ (j - q.den.log2) = n := by
  obtain ⟨m, -, hn, hd⟩ := Rat.mkRat_num_den (z' := q.den_nz) (c := q.reduced) (by positivity) h.symm
  obtain ⟨k, hk, hden⟩ := (Nat.dvd_prime_pow Nat.prime_two).1 (Dvd.intro m hd.symm)
  have hm : m = 2 ^ (j - k) := by
    refine Nat.eq_of_mul_eq_mul_left (Nat.two_pow_pos k) ?_
    rw [← hden, ← hd, hden, ← pow_add, Nat.add_sub_cancel' hk]
  rw [hden, Nat.log2_two_pow, ← hm]
  exact ⟨hk, by simpa [Int.natAbs_mul] using congrArg Int.natAbs hn.symm⟩

/-! ## The fields of a magnitude -/

theorem log2_mul_two_pow {n : Nat} (hn : n ≠ 0) (j : Nat) : (n * 2 ^ j).log2 = n.log2 + j := by
  rw [Nat.log2_eq_log_two, Nat.log2_eq_log_two]
  induction j with
  | zero => simp
  | succ j ih =>
    rw [pow_succ, ← mul_assoc, Nat.log_mul_base Nat.one_lt_two (by positivity), ih, Nat.add_assoc]

/-- A subnormal magnitude: fewer than 53 bits of units, which are the fraction. -/
theorem magnitudeFields_of_subnormal {n k f : Nat} (hf : f < 2 ^ 52) (hpos : f ≠ 0) (hk : k ≤ 1074)
    (h : n * 2 ^ (1074 - k) = f) : magnitudeFields n k = (0, f) := by
  have hn : n ≠ 0 := by rintro rfl; exact hpos (h.symm.trans (Nat.zero_mul _))
  have hlog : n.log2 + (1074 - k) < 52 := by
    rw [← log2_mul_two_pow hn, h]
    exact (Nat.log2_lt hpos).2 hf
  rw [magnitudeFields, if_pos (by omega), h]

/-- The leading bit of the significand of a normal magnitude decides the exponent, and the shift undoes itself. -/
theorem magnitudeFields_of_normal {n k e f : Nat} (hf : f < 2 ^ 52) (he : e ≠ 0) (hk : k ≤ 1074)
    (h : n * 2 ^ (1074 - k) = (2 ^ 52 + f) * 2 ^ (e - 1)) : magnitudeFields n k = (e, f) := by
  have hn : n ≠ 0 := by rintro rfl; simp at h
  have hsig : (2 ^ 52 + f).log2 = 52 := (Nat.log2_eq_iff (by omega)).2 ⟨by omega, by omega⟩
  have hlog : n.log2 + (1074 - k) = 52 + (e - 1) := by
    rw [← log2_mul_two_pow hn, h, log2_mul_two_pow (by omega), hsig]
  have hshift : (if n.log2 ≤ 52 then n * 2 ^ (52 - n.log2) else n / 2 ^ (n.log2 - 52)) = 2 ^ 52 + f := by
    split
    next hle =>
      refine Nat.eq_of_mul_eq_mul_right (Nat.two_pow_pos (e - 1)) ?_
      rw [← h, mul_assoc, ← pow_add, show 52 - n.log2 + (e - 1) = 1074 - k by omega]
    next hlt =>
      refine Nat.div_eq_of_eq_mul_left (Nat.two_pow_pos _) ?_
      refine Nat.eq_of_mul_eq_mul_right (Nat.two_pow_pos (1074 - k)) ?_
      rw [h, mul_assoc, ← pow_add, show n.log2 - 52 + (1074 - k) = e - 1 by omega]
  rw [magnitudeFields, if_neg (by omega), hshift, Nat.add_sub_cancel_left,
    show n.log2 + 1023 - k = e by omega]

/-- The fields are recovered from a magnitude that is not 0, given in lowest terms. -/
theorem magnitudeFields_patternMagnitude {e f : Nat} (hf : f < 2 ^ 52) (hpos : patternMagnitude e f ≠ 0) :
    magnitudeFields (patternMagnitude e f).num.natAbs (patternMagnitude e f).den.log2 = (e, f) := by
  obtain ⟨hk, h⟩ := num_mul_two_pow_of_mkRat (patternMagnitude_eq_mkRat e f)
  rcases eq_or_ne e 0 with rfl | he
  · refine magnitudeFields_of_subnormal hf ?_ hk h
    rintro rfl
    exact hpos (by rw [patternMagnitude_zero, Nat.cast_zero, zero_mul])
  · exact magnitudeFields_of_normal hf he hk (h.trans (if_neg he))

/-! ## The pattern of a value -/

/-- What a finite pattern's value says of its fields: the sign of a value that is not 0, and the magnitude. -/
theorem fields_of_sampleValue {w : BitVec 64} {q : Sample} (h : sampleValue w = some q) (hq : q ≠ 0) :
    decide (q < 0) = patternSign w ∧ patternMagnitude (patternExponent w) (patternFraction w) ≠ 0 ∧
      q.num.natAbs = (patternMagnitude (patternExponent w) (patternFraction w)).num.natAbs ∧
      q.den = (patternMagnitude (patternExponent w) (patternFraction w)).den := by
  have hnonneg := patternMagnitude_nonneg (patternExponent w) (patternFraction w)
  rw [sampleValue] at h
  split at h
  · cases h
  split at h
  next hs =>
    cases h
    have hne := neg_ne_zero.1 hq
    refine ⟨?_, hne, by simp, by simp⟩
    rw [hs, decide_eq_true_iff]
    exact neg_neg_of_pos (lt_of_le_of_ne hnonneg hne.symm)
  next hs =>
    cases h
    exact ⟨by simpa [hs] using hnonneg, hq, rfl, rfl⟩

/-- R64: the one pattern that denotes a value that is not 0 is the pattern its read returns. -/
theorem samplePattern_of_sampleValue {w : BitVec 64} {q : Sample} (h : sampleValue w = some q) (hq : q ≠ 0) :
    samplePattern q = some w := by
  obtain ⟨hsign, hmag, hnum, hden⟩ := fields_of_sampleValue h hq
  have hfields : magnitudeFields q.num.natAbs q.den.log2 = (patternExponent w, patternFraction w) := by
    rw [hnum, hden]
    exact magnitudeFields_patternMagnitude (patternFraction_lt w) hmag
  rw [samplePattern, hfields, hsign]
  dsimp only
  rw [patternOfFields_fields, if_pos h]

/-- Both zeros denote 0. -/
theorem sampleValue_zero (sign : BitVec 1) : sampleValue (sign ++ 0#63 : BitVec 64) = some 0 := by
  have hexp : patternExponent (sign ++ 0#63 : BitVec 64) = 0 := by revert sign; decide
  have hfrac : patternFraction (sign ++ 0#63 : BitVec 64) = 0 := by revert sign; decide
  rw [sampleValue_of_exponent_ne (by rw [hexp]; decide), hexp, hfrac, patternMagnitude_zero, Nat.cast_zero, zero_mul,
    mul_zero]

end Sys2Proof.Machine
end

section
/-!
The host's pushes and reads (20_memory.md R61 to R64, R71, R74): one rule for each way an access ends, then the
statements about the ports put together from them.
-/

namespace Sys2Proof.Machine

open Sys2Proof

/-! ## Taking an access -/

theorem step_of_pending_cons {s : State} {a : HostAccess} {rest : List HostAccess} (h : s.pending = a :: rest) :
    step s = hostAccess a { s with pending := rest } := by rw [step, accessStep, h]; rfl

theorem step_of_pending_nil {s : State} (h : s.pending = []) : step s = .next s := by rw [step, accessStep, h]; rfl

/-- Settles O5: the two ways the list of accesses can begin. -/
theorem stepTakesTheNextAccess : Obligations.StepTakesTheNextAccess :=
  ⟨fun _ _ _ => step_of_pending_cons, fun _ => step_of_pending_nil⟩

/-! ## Pushes -/

section Pushes
variable {s : State}

theorem writtenAt_bufWrite {α : Type} (m : Buffer α) (i : Nat) (v : α) : WrittenAt m (bufWrite m i v) i v :=
  fun k => bufRead_bufWrite m i k v

theorem bitsPush_of_faulted (h : faulted s) (b : Bit) : bitsPush b s = .next s :=
  (bitsPush_eq_next_iff b s s).2 (.inl ⟨h, rfl⟩)

theorem bitsPush_of_full (h : unfaulted s) (hfull : s.nbits = s.params.maxLen) (b : Bit) :
    bitsPush b s = .next (raiseFault .capacityExceeded s) :=
  (bitsPush_eq_next_iff b s _).2 (.inr (.inl ⟨h, hfull, rfl⟩))

theorem bitsPush_of_room (h : unfaulted s) (hroom : s.nbits < s.params.maxLen) (b : Bit) :
    bitsPush b s = .next (bitAppended b s) :=
  (bitsPush_eq_next_iff b s _).2 (.inr (.inr ⟨h, hroom, rfl⟩))

theorem appendSample_of_full (hfull : s.nsamp = s.params.maxLen) (q : Sample) :
    appendSample q s = .next (raiseFault .capacityExceeded s) :=
  (appendSample_eq_next_iff q s _).2 (.inl ⟨hfull, rfl⟩)

theorem appendSample_of_room (hroom : s.nsamp < s.params.maxLen) (q : Sample) :
    appendSample q s = .next (sampleAppended q s) :=
  (appendSample_eq_next_iff q s _).2 (.inr ⟨hroom, rfl⟩)

/-- A sample into a full buffer, at either port. -/
theorem raisesOnly_appendSample (h : unfaulted s) (hfull : s.nsamp = s.params.maxLen) (q : Sample) :
    RaisesOnly (appendSample q s) s 2 := by
  rw [appendSample_of_full hfull]
  exact raisesOnly_raiseFault h .capacityExceeded

/-- A sample into a buffer with room, at either port. -/
theorem appendSample_writes (hroom : s.nsamp < s.params.maxLen) (q : Sample) :
    ∃ samp, appendSample q s = .next { s with samp := samp, nsamp := s.nsamp + 1 } ∧
      WrittenAt s.samp samp s.nsamp q :=
  ⟨_, appendSample_of_room hroom q, writtenAt_bufWrite s.samp s.nsamp q⟩

/-- The port that carries patterns (R63): what the pattern denotes decides, behind the gate. -/
theorem sampPush_pattern (hfmt : s.params.sampleFormat = .binary64) (w : BitVec 64) :
    (faulted s → sampPush (.binary64 w) s = .next s) ∧
    (unfaulted s → sampleValue w = none → sampPush (.binary64 w) s = .next (raiseFault .preconditionViolated s)) ∧
    (∀ q, unfaulted s → sampleValue w = some q → sampPush (.binary64 w) s = appendSample q s) := by
  simp only [sampPush, hfmt]
  refine ⟨fun h => unlessFaulted_of_faulted h _, fun h hw => ?_, fun q h hw => ?_⟩ <;>
    rw [unlessFaulted_of_unfaulted h, hw]

/-- The port that carries rationals (R63). -/
theorem sampPush_rational (hfmt : s.params.sampleFormat = .rational) (q : Sample) :
    (faulted s → sampPush (.rational q) s = .next s) ∧
    (unfaulted s → sampPush (.rational q) s = appendSample q s) := by
  simp only [sampPush, hfmt]
  exact ⟨fun h => unlessFaulted_of_faulted h _, fun h => unlessFaulted_of_unfaulted h _⟩

theorem sampPush_pattern_refused (hfmt : s.params.sampleFormat = .rational) (w : BitVec 64) :
    sampPush (.binary64 w) s = .refused .portFormat := by simp only [sampPush, hfmt]

theorem sampPush_rational_refused (hfmt : s.params.sampleFormat = .binary64) (q : Sample) :
    sampPush (.rational q) s = .refused .portFormat := by simp only [sampPush, hfmt]

end Pushes

/-- Settles O46: the three ways a push of a bit ends. -/
theorem bitsPushAppends : Obligations.BitsPushAppends := by
  refine fun s b => ⟨fun h => bitsPush_of_faulted h b, fun h hfull => ?_, fun h hroom => ?_⟩
  · rw [hostAccess, bitsPush_of_full h hfull]
    exact raisesOnly_raiseFault h .capacityExceeded
  · exact ⟨_, _, bitsPush_of_room h hroom b, writtenAt_bufWrite s.bits s.nbits b,
      flagsAre_flagsSetPalValid false s.flags⟩

/-- Settles O47: a pattern without a value raises before the capacity is looked at; one with a value is appended. -/
theorem sampPushAppends : Obligations.SampPushAppends := by
  intro s w hfmt
  obtain ⟨hignored, hnone, hsome⟩ := sampPush_pattern hfmt w
  simp only [hostAccess]
  refine ⟨hignored, fun h hw => ?_, fun q h hw hfull => ?_, fun q h hw hroom => ?_⟩
  · rw [hnone h hw]
    exact raisesOnly_raiseFault h .preconditionViolated
  · rw [hsome q h hw]
    exact raisesOnly_appendSample h hfull q
  · rw [hsome q h hw]
    exact appendSample_writes hroom q

/-- Settles O48: the port of rationals appends, and each port refuses the other's words. -/
theorem sampPushOfRationals : Obligations.SampPushOfRationals := by
  intro s q w
  simp only [hostAccess]
  refine ⟨fun hfmt => (sampPush_rational hfmt q).1, fun hfmt h hfull => ?_, fun hfmt h hroom => ?_,
    fun hfmt => sampPush_pattern_refused hfmt w, fun hfmt => sampPush_rational_refused hfmt q⟩
  · rw [(sampPush_rational hfmt q).2 h]
    exact raisesOnly_appendSample h hfull q
  · rw [(sampPush_rational hfmt q).2 h]
    exact appendSample_writes hroom q

/-! ## Reads -/

section Reads
variable {s : State} {i : Nat}

theorem readHeld_of_bufRead {α : Type} {m : Buffer α} {v : α} (h : bufRead m i = some v) (f : α → State) :
    readHeld m i f = .next (f v) := by rw [readHeld, h]; rfl

theorem hostRead_bits_held {b : Bit} (hi : i < s.nbits) (h : bufRead s.bits i = some b) :
    hostRead (.bits i) s = .next (deliver (.bit b) s) := (if_pos hi).trans (readHeld_of_bufRead h _)

theorem hostRead_sig_held {l : Level} (hi : i < s.nsig) (h : bufRead s.sig i = some l) :
    hostRead (.sig i) s = .next (deliver (.level l.code) s) := (if_pos hi).trans (readHeld_of_bufRead h _)

theorem hostRead_samp_held {q : Sample} (hi : i < s.nsamp) (h : bufRead s.samp i = some q) :
    hostRead (.samp i) s = .next (deliverSample q s) := (if_pos hi).trans (readHeld_of_bufRead h _)

theorem hostRead_bits_beyond (hi : s.nbits ≤ i) :
    hostRead (.bits i) s = .next (deliverAny (.bit (Config.anyBit s.freeCtr)) s) := if_neg hi.not_gt

theorem hostRead_sig_beyond (hi : s.nsig ≤ i) :
    hostRead (.sig i) s = .next (deliverAny (.level (Config.anyLevelCode s.freeCtr)) s) := if_neg hi.not_gt

theorem hostRead_samp_beyond (hi : s.nsamp ≤ i) : hostRead (.samp i) s = .next (deliverAnySample s) :=
  if_neg hi.not_gt

theorem deliverSample_rational (hfmt : s.params.sampleFormat = .rational) (q : Sample) :
    deliverSample q s = deliver (.rational q) s := by simp only [deliverSample, hfmt]

/-- R64: a zero is read as one of its two patterns, the sign being free. -/
theorem deliverSample_zero (hfmt : s.params.sampleFormat = .binary64) :
    ∃ z, sampleValue z = some 0 ∧ deliverSample 0 s = deliverAny (.pattern z) s :=
  ⟨_, sampleValue_zero (Config.anyZeroSign s.freeCtr), by simp only [deliverSample, hfmt, if_pos]⟩

/-- R64: a value that is not 0 is read as the pattern that denotes it. -/
theorem deliverSample_pattern (hfmt : s.params.sampleFormat = .binary64) {q : Sample} {w : BitVec 64}
    (hw : sampleValue w = some q) (hq : q ≠ 0) : deliverSample q s = deliver (.pattern w) s := by
  simp only [deliverSample, hfmt, if_neg hq, samplePattern_of_sampleValue hw hq]

theorem deliverAnySample_pattern (hfmt : s.params.sampleFormat = .binary64) :
    deliverAnySample s = deliverAny (.pattern (Config.anySamplePattern s.freeCtr)) s := by
  simp only [deliverAnySample, hfmt]

theorem deliverAnySample_rational (hfmt : s.params.sampleFormat = .rational) :
    deliverAnySample s = deliverAny (.rational (Config.anySample s.freeCtr)) s := by
  simp only [deliverAnySample, hfmt]

/-- R64 for a held sample under `SAMPLE_FORMAT = BINARY64`: a zero takes a free value, any other sample its pattern. -/
theorem hostRead_samp_pattern {q : Sample} {w : BitVec 64} (hi : i < s.nsamp) (h : bufRead s.samp i = some q)
    (hfmt : s.params.sampleFormat = .binary64) (hw : sampleValue w = some q) :
    (q ≠ 0 → hostRead (.samp i) s = .next (deliver (.pattern w) s)) ∧
    (q = 0 → ∃ z, sampleValue z = some 0 ∧ hostRead (.samp i) s = .next (deliverAny (.pattern z) s)) := by
  rw [hostRead_samp_held hi h]
  refine ⟨fun hq => by rw [deliverSample_pattern hfmt hw hq], ?_⟩
  rintro rfl
  obtain ⟨z, hz, hread⟩ := deliverSample_zero hfmt
  exact ⟨z, hz, by rw [hread]⟩

end Reads

/-- Settles O50: each buffer below its length register, then the registers, each of which a read names whole. -/
theorem readReturnsTheElementOrRegister : Obligations.ReadReturnsTheElementOrRegister := by
  intro s i
  refine ⟨fun b => hostRead_bits_held, fun l => hostRead_sig_held, fun q hi h hfmt => ?_, fun q w hi h hfmt hw => ?_,
    rfl, rfl, rfl, rfl, rfl, rfl, rfl, rfl, rfl⟩
  · rw [hostAccess, hostRead_samp_held hi h, deliverSample_rational hfmt]
    rfl
  · obtain ⟨hpattern, hzero⟩ := hostRead_samp_pattern hi h hfmt hw
    rcases eq_or_ne q 0 with hq | hq
    · obtain ⟨z, hz, hread⟩ := hzero hq
      exact ⟨z, s.freeCtr + 1, hq ▸ hz, fun hne => absurd hq hne, hread⟩
    · exact ⟨w, s.freeCtr, hw, fun _ => ⟨rfl, rfl⟩, hpattern hq⟩

/-- Settles O51: the push leaves the value as the last element, and its read is R64's. -/
theorem pushedSampleReadsBack : Obligations.PushedSampleReadsBack := by
  intro s t w q h hfmt hw hroom hpush
  obtain ⟨-, -, hsome⟩ := sampPush_pattern hfmt w
  rw [hostAccess, hsome q h hw, appendSample_of_room hroom] at hpush
  obtain rfl : sampleAppended q s = t := by injection hpush
  have hheld : bufRead (sampleAppended q s).samp s.nsamp = some q :=
    (writtenAt_bufWrite s.samp s.nsamp q s.nsamp).trans (if_pos rfl)
  exact hostRead_samp_pattern (Nat.lt_succ_self s.nsamp) hheld hfmt hw

/-- Settles O52: beyond a sequence, and from `CMD`, the data is the next free value. -/
theorem readBeyondTheSequenceChangesNothing : Obligations.ReadBeyondTheSequenceChangesNothing := by
  intro s i
  simp only [hostAccess]
  refine ⟨fun hi => ⟨_, hostRead_bits_beyond hi⟩, fun hi => ⟨_, hostRead_sig_beyond hi⟩, fun hi hfmt => ?_,
    fun hi hfmt => ?_, ⟨_, rfl⟩⟩
  · rw [hostRead_samp_beyond hi, deliverAnySample_pattern hfmt]
    exact ⟨_, rfl⟩
  · rw [hostRead_samp_beyond hi, deliverAnySample_rational hfmt]
    exact ⟨_, rfl⟩

end Sys2Proof.Machine
end

section
/-!
The decoder and the encoder (30_encoding.md R81 to R87): a word is its three fields, decoding and encoding are inverse,
and the rows of R84 and the reserved words of R85 are read off from that.
-/

namespace Sys2Proof

/-! ## The fields of a word (R81), as numbers -/

theorem Word.toNat_grp (w : Word) : w.grp.toNat = w.toNat / 4096 := by
  rw [Word.grp, BitVec.extractLsb'_toNat, Nat.shiftRight_eq_div_pow]
  omega

theorem Word.toNat_sel (w : Word) : w.sel.toNat = w.toNat / 256 % 16 := by
  rw [Word.sel, BitVec.extractLsb'_toNat, Nat.shiftRight_eq_div_pow]

theorem Word.toNat_imm8 (w : Word) : w.imm8.toNat = w.toNat % 256 := by
  rw [Word.imm8, BitVec.extractLsb'_toNat, Nat.shiftRight_zero]

theorem Word.toNat_ofFields (grp sel : BitVec 4) (imm8 : BitVec 8) :
    (Word.ofFields grp sel imm8).toNat = grp.toNat * 4096 + sel.toNat * 256 + imm8.toNat := by
  change (grp ++ sel ++ imm8).toNat = _
  rw [BitVec.toNat_append, BitVec.toNat_append, ← Nat.shiftLeft_add_eq_or_of_lt sel.isLt,
    ← Nat.shiftLeft_add_eq_or_of_lt imm8.isLt, Nat.shiftLeft_eq, Nat.shiftLeft_eq]
  omega

/-- A word is put together from three fields exactly when they are its own. -/
theorem Word.ofFields_eq_iff (grp sel : BitVec 4) (imm8 : BitVec 8) (w : Word) :
    Word.ofFields grp sel imm8 = w ↔ grp = w.grp ∧ sel = w.sel ∧ imm8 = w.imm8 := by
  simp only [← BitVec.toNat_inj, Word.toNat_ofFields, Word.toNat_grp, Word.toNat_sel, Word.toNat_imm8]
  omega

theorem Word.grp_and (v w : Word) : Word.grp (v &&& w) = v.grp &&& w.grp := BitVec.extractLsb'_and

theorem Word.sel_and (v w : Word) : Word.sel (v &&& w) = v.sel &&& w.sel := BitVec.extractLsb'_and

/-! ## The three branches of the decoder -/

section Branches
variable {w : Word}

theorem decode_of_qpcm_row (hrow : w.grp = 1 ∧ w.sel = 0) : decode w = some (.qpcm w.imm8) := if_pos hrow

theorem decode_of_imm8_zero (hrow : ¬ (w.grp = 1 ∧ w.sel = 0)) (himm : w.imm8 = 0) :
    decode w = decodePlain w.grp w.sel := (if_neg hrow).trans (if_pos himm)

theorem decode_of_imm8_ne_zero (hrow : ¬ (w.grp = 1 ∧ w.sel = 0)) (himm : w.imm8 ≠ 0) : decode w = none :=
  (if_neg hrow).trans (if_neg himm)

end Branches

/-! ## Decoding and encoding are inverse -/

theorem decode_encode_qpcm (bps : BitVec 8) : decode (encode (.qpcm bps)) = some (.qpcm bps) := by
  obtain ⟨hgrp, hsel, himm⟩ := (Word.ofFields_eq_iff 1 0 bps (encode (.qpcm bps))).1 rfl
  rw [decode_of_qpcm_row ⟨hgrp.symm, hsel.symm⟩, ← himm]

theorem decode_encode (i : Instr) : decode (encode i) = some i := by
  cases i with
  | qpcm bps => exact decode_encode_qpcm bps
  | _ => rfl

/-- Each row without operand has its command's `GRP` and `SEL`. -/
theorem encode_of_decodePlain {grp sel : BitVec 4} {i : Instr} (h : decodePlain grp sel = some i) :
    encode i = Word.ofFields grp sel 0 := by
  have fields {g s : BitVec 4} (hg : grp.toNat = g.toNat) (hs : sel.toNat = s.toNat) :
      Word.ofFields g s 0 = Word.ofFields grp sel 0 := by
    rw [BitVec.eq_of_toNat_eq hg, BitVec.eq_of_toNat_eq hs]
  unfold decodePlain at h
  split at h <;> cases h <;> exact fields ‹_› ‹_›

theorem encode_of_decode {w : Word} {i : Instr} (h : decode w = some i) : encode i = w := by
  by_cases hrow : w.grp = 1 ∧ w.sel = 0
  · obtain rfl : .qpcm w.imm8 = i := Option.some.inj ((decode_of_qpcm_row hrow).symm.trans h)
    exact (Word.ofFields_eq_iff ..).2 ⟨hrow.1.symm, hrow.2.symm, rfl⟩
  by_cases himm : w.imm8 = 0
  · rw [encode_of_decodePlain ((decode_of_imm8_zero hrow himm).symm.trans h)]
    exact (Word.ofFields_eq_iff ..).2 ⟨rfl, rfl, himm.symm⟩
  · cases (decode_of_imm8_ne_zero hrow himm).symm.trans h

/-- Settles O1: the encoder inverts the decoder from both sides. -/
theorem decodeInvertsEncode : Obligations.DecodeInvertsEncode := by
  intro w i
  refine ⟨encode_of_decode, ?_⟩
  rintro rfl
  exact decode_encode i

/-! ## The rows of R84 -/

theorem matchesRow_encode (i : Instr) : matchesRow i (encode i) := by
  cases i with
  | nop => exact Laws.EncodeMatchesRow.nop
  | clrb => exact Laws.EncodeMatchesRow.clrb
  | clrs => exact Laws.EncodeMatchesRow.clrs
  | qpcm bps => exact Laws.EncodeMatchesRow.qpcm bps
  | qdm => exact Laws.EncodeMatchesRow.qdm
  | enl => exact Laws.EncodeMatchesRow.enl
  | eni => exact Laws.EncodeMatchesRow.eni
  | eman => exact Laws.EncodeMatchesRow.eman
  | edman => exact Laws.EncodeMatchesRow.edman
  | eami => exact Laws.EncodeMatchesRow.eami
  | snone => exact Laws.EncodeMatchesRow.snone
  | sb8zs => exact Laws.EncodeMatchesRow.sb8zs
  | shdb3 => exact Laws.EncodeMatchesRow.shdb3
  | apal => exact Laws.EncodeMatchesRow.apal
  | azrun => exact Laws.EncodeMatchesRow.azrun

/-- The mask 0xFF00 leaves `GRP` and `SEL` as they are, and 0x1000 has those of QPCM. -/
theorem encode_qpcm_of_masked {w : Word} (h : w &&& 0xFF00#16 = 0x1000#16) : encode (.qpcm w.imm8) = w := by
  have hgrp : w.grp = 1#4 := calc
    w.grp = w.grp &&& BitVec.allOnes 4 := BitVec.and_allOnes.symm
    _ = Word.grp (w &&& 0xFF00#16) := (Word.grp_and w 0xFF00#16).symm
    _ = 1#4 := congrArg Word.grp h
  have hsel : w.sel = 0#4 := calc
    w.sel = w.sel &&& BitVec.allOnes 4 := BitVec.and_allOnes.symm
    _ = Word.sel (w &&& 0xFF00#16) := (Word.sel_and w 0xFF00#16).symm
    _ = 0#4 := congrArg Word.sel h
  exact (Word.ofFields_eq_iff ..).2 ⟨hgrp.symm, hsel.symm, rfl⟩

/-- The mask 0xFFFF leaves the whole word, so its row has one word. -/
theorem encode_of_matchesRow_full {i : Instr} {w : Word} (hmask : (rowMatchMask i).2 = BitVec.allOnes 16)
    (h : matchesRow i w) : encode i = w := by
  have hmatch := matchesRow_encode i
  rw [matchesRow, hmask, BitVec.and_allOnes] at h hmatch
  exact hmatch.trans h.symm

theorem exists_encode_of_matchesRow {i : Instr} {w : Word} (h : matchesRow i w) :
    ∃ j, encode j = w ∧ rowMatchMask j = rowMatchMask i := by
  cases i with
  | qpcm bps => exact ⟨.qpcm w.imm8, encode_qpcm_of_masked h, rfl⟩
  | _ => exact ⟨_, encode_of_matchesRow_full rfl h, rfl⟩

theorem matchesRow_iff (i : Instr) (w : Word) :
    matchesRow i w ↔ ∃ j, decode w = some j ∧ rowMatchMask j = rowMatchMask i := by
  constructor
  · intro h
    obtain ⟨j, rfl, hrow⟩ := exists_encode_of_matchesRow h
    exact ⟨j, decode_encode j, hrow⟩
  · rintro ⟨j, hj, hrow⟩
    have hmatch := matchesRow_encode j
    rwa [encode_of_decode hj, matchesRow, hrow] at hmatch

/-- Settles O2: a word decodes to one command at most, so the rows it matches are one row. -/
theorem decodeFollowsMatchAndMask : Obligations.DecodeFollowsMatchAndMask := by
  intro w
  refine ⟨fun i => matchesRow_iff i w, fun i j hi hj => ?_⟩
  obtain ⟨k, hk, hki⟩ := (matchesRow_iff i w).1 hi
  obtain ⟨l, hl, hlj⟩ := (matchesRow_iff j w).1 hj
  obtain rfl : k = l := Option.some.inj (hk.symm.trans hl)
  exact hki.symm.trans hlj

/-! ## The reserved words of R85 -/

theorem decode_eq_none_iff (w : Word) :
    decode w = none ↔ ¬ (w.grp = 1 ∧ w.sel = 0) ∧ (w.imm8 = 0 → decodePlain w.grp w.sel = none) := by
  by_cases hrow : w.grp = 1 ∧ w.sel = 0
  · simp [decode_of_qpcm_row hrow, hrow]
  by_cases himm : w.imm8 = 0
  · simp only [decode_of_imm8_zero hrow himm, hrow, himm, not_false_eq_true, true_and, forall_const]
  · simp only [decode_of_imm8_ne_zero hrow himm, hrow, himm, not_false_eq_true, true_and, false_imp_iff]

theorem decodePlain_eq_none_iff (grp sel : BitVec 4) :
    decodePlain grp sel = none ↔
      5 ≤ grp.toNat ∨ (grp.toNat = 0 ∧ 3 ≤ sel.toNat) ∨ (grp.toNat = 1 ∧ sel.toNat ≠ 1) ∨
      (grp.toNat = 2 ∧ 5 ≤ sel.toNat) ∨ (grp.toNat = 3 ∧ 3 ≤ sel.toNat) ∨ (grp.toNat = 4 ∧ 2 ≤ sel.toNat) := by
  unfold decodePlain
  split
  case h_15 => grind
  all_goals
    simp only [reduceCtorEq, false_iff]
    omega

/-- Settles O3: the condition on the fields, read as numbers. -/
theorem reservedWordsAreTheListed : Obligations.ReservedWordsAreTheListed := by
  intro w
  simp only [decode_eq_none_iff, decodePlain_eq_none_iff, ← BitVec.toNat_inj, Word.toNat_grp, Word.toNat_sel,
    Word.toNat_imm8, BitVec.ofNat_eq_ofNat, BitVec.toNat_ofNat]
  omega

/-- Settles O4: seven words are encodings, and three stand in R85's list. -/
theorem listedWordsDecode : Obligations.ListedWordsDecode :=
  ⟨decode_encode .nop, decode_encode .clrb, decode_encode (.qpcm 3), decode_encode (.qpcm 255),
    decode_encode .edman, decode_encode .shdb3, decode_encode .azrun, (reservedWordsAreTheListed _).2 (by decide),
    (reservedWordsAreTheListed _).2 (by decide), (reservedWordsAreTheListed _).2 (by decide)⟩

end Sys2Proof
end

section
/-!
The issue of a command (30_encoding.md R91): what a write to `CMD` does, for a word that decodes and for a reserved one.
-/

namespace Sys2Proof.Machine

open Sys2Proof

variable {s : State} {w : Word}

/-- R219: every command stands behind the gate. -/
theorem exec_of_faulted (h : faulted s) (i : Instr) : exec i s = .next s := by
  cases i <;> exact unlessFaulted_of_faulted h _

theorem issueCommand_of_faulted (h : faulted s) (w : Word) : issueCommand w s = .next s := unlessFaulted_of_faulted h _

/-- While faulted the issue and the command are both without effect, so this needs no premise on `FAULT`. -/
theorem issueCommand_of_decode {i : Instr} (h : decode w = some i) (s : State) : issueCommand w s = exec i s := by
  cases hf : statusFault s.status with
  | true => rw [issueCommand_of_faulted hf, exec_of_faulted hf]
  | false => rw [issueCommand, unlessFaulted_of_unfaulted hf, h]

theorem issueCommand_of_reserved (hf : unfaulted s) (h : decode w = none) :
    issueCommand w s = .next (raiseFault .invalidSelection s) := by
  rw [issueCommand, unlessFaulted_of_unfaulted hf, h]

theorem withFetchWord_pending_of_word (s : State) (w : Word) :
    (s.withFetchWord 16 w.toNat).pending = .cmd w :: s.pending := by
  rw [withFetchWord_pending, Nat.mod_eq_of_lt w.isLt, BitVec.ofNat_toNat, BitVec.setWidth_eq]

/-- A write that stands first in the list is taken off it and issues its command. -/
theorem step_of_pending_command {rest : List HostAccess} {i : Instr} (hp : s.pending = .cmd w :: rest)
    (hw : decode w = some i) : step s = exec i { s with pending := rest } :=
  (step_of_pending_cons hp).trans (issueCommand_of_decode hw _)

/-- Settles O6: `withFetchWord` is the case in which the rest of the list is the list of `s`. -/
theorem stepRunsTheDecodedCommand : Obligations.StepRunsTheDecodedCommand :=
  ⟨fun _ _ _ _ => step_of_pending_command,
    fun s w _ => step_of_pending_command (withFetchWord_pending_of_word s w)⟩

/-- Settles O7: the two ways a write of a reserved word ends. -/
theorem reservedWordRaisesInvalidSelection : Obligations.ReservedWordRaisesInvalidSelection := by
  intro s w hw
  refine ⟨fun hf => ?_, fun hf => issueCommand_of_faulted hf w⟩
  rw [hostAccess, issueCommand_of_reserved hf hw]
  exact raisesOnly_raiseFault hf .invalidSelection

end Sys2Proof.Machine
end

section
/-!
The level index of QPCM (40_quantizers.md R101, R103 to R105): the one-division form of the exact index, its end points,
and its order in both arithmetics.
-/

namespace Sys2Proof.Machine

open Sys2Proof

variable {lo hi : Sample} {levels : Nat}

/-- The level of `x` before the clamp, `floor((x - lo) * levels / (hi - lo))` (R103). -/
def unclampedLevel (x lo hi : Sample) (levels : Nat) : Int := ((x - lo) * (levels : Rat) / (hi - lo)).floor

/-- R103's division by a quotient is one division. -/
theorem floor_div_step (x lo hi : Sample) (levels : Nat) :
    ((x - lo) / ((hi - lo) / (levels : Rat))).floor = unclampedLevel x lo hi levels := by
  rw [unclampedLevel, div_div_eq_mul_div]

/-- The clamp is a minimum; with no levels at all both sides are 0. -/
theorem pcmIndexExact_of_ne (h : hi ≠ lo) (x : Sample) :
    pcmIndexExact x lo hi levels = min (levels - 1) (unclampedLevel x lo hi levels).toNat := by
  simp only [pcmIndexExact, if_neg h, floor_div_step]
  split <;> omega

theorem pcmIndexExact_of_eq (h : hi = lo) (x : Sample) : pcmIndexExact x lo hi levels = 0 := if_pos h

/-- R103 and R104 in one equation. -/
theorem pcmIndex_exact_eq (x lo hi : Sample) (levels : Nat) :
    pcmIndex .exact x lo hi levels =
      if hi = lo then 0 else min (levels - 1) ((x - lo) * (levels : Rat) / (hi - lo)).floor.toNat := by
  split
  next heq => exact pcmIndexExact_of_eq heq x
  next hne => exact pcmIndexExact_of_ne hne x

theorem unclampedLevel_min : unclampedLevel lo lo hi levels = 0 := by
  rw [unclampedLevel, sub_self, zero_mul, zero_div]
  rfl

theorem unclampedLevel_max (h : lo < hi) : unclampedLevel hi lo hi levels = levels := by
  rw [unclampedLevel, mul_div_cancel_left₀ _ (sub_pos.2 h).ne']
  exact Rat.floor_intCast levels

theorem unclampedLevel_mono (h : lo ≤ hi) {x y : Sample} (hxy : x ≤ y) :
    unclampedLevel x lo hi levels ≤ unclampedLevel y lo hi levels := by
  have hrange : 0 ≤ hi - lo := sub_nonneg.2 h
  refine Rat.floor_monotone ?_
  gcongr

/-- A sample below the maximum lies a positive part of a step below the last end point. -/
theorem unclampedLevel_lt (h : lo < hi) (hlevels : 0 < levels) {x : Sample} (hx : x < hi) :
    unclampedLevel x lo hi levels < levels := by
  have hpos : (0 : Rat) < levels := Nat.cast_pos.2 hlevels
  rw [unclampedLevel, Rat.floor_lt_iff, div_lt_iff₀ (sub_pos.2 h), mul_comm]
  exact mul_lt_mul_of_pos_left (sub_lt_sub_right hx lo) hpos

theorem pcmIndexExact_mono (h : lo ≤ hi) {x y : Sample} (hxy : x ≤ y) :
    pcmIndexExact x lo hi levels ≤ pcmIndexExact y lo hi levels := by
  by_cases hne : hi = lo
  · rw [pcmIndexExact_of_eq hne, pcmIndexExact_of_eq hne]
  · have := unclampedLevel_mono (levels := levels) h hxy
    rw [pcmIndexExact_of_ne hne, pcmIndexExact_of_ne hne]
    omega

/-- Settles O21: the clamp as a minimum, for a range that is not empty. -/
theorem pcmIndexHasTheClosedForm : Obligations.PcmIndexHasTheClosedForm :=
  fun x _ _ _ _ _ _ hrange => pcmIndexExact_of_ne hrange.ne' x

/-- Settles O22, one arithmetic at a time. -/
theorem pcmIndexIsMonotone : Obligations.PcmIndexIsMonotone := by
  intro numerics x y lo hi levels hx hxy hy
  cases numerics with
  | exact => exact pcmIndexExact_mono (hx.trans (hxy.trans hy)) hxy
  | binary64 =>
    obtain ⟨-, -, hmono⟩ := pcmIndexBinary64_spec lo hi levels
    exact hmono hxy

/-- Settles O23: the levels of the end points before the clamp are 0 and `levels`. -/
theorem pcmIndexEndPoints : Obligations.PcmIndexEndPoints := by
  intro lo hi levels hlevels hrange
  refine ⟨?_, ?_, fun x _ hx => ?_⟩
  · rw [pcmIndex, pcmIndexExact_of_ne hrange.ne', unclampedLevel_min, Int.toNat_zero, Nat.min_zero]
  · rw [pcmIndex, pcmIndexExact_of_ne hrange.ne', unclampedLevel_max hrange, Int.toNat_natCast]
    omega
  · rw [floor_div_step]
    exact unclampedLevel_lt hrange (by omega) hx

end Sys2Proof.Machine
end

section
/-!
QPCM (40_quantizers.md R100 to R104): its two faults with their priority, and its operation on a held sample sequence,
for any level index; each arithmetic then puts in its own.
-/

namespace Sys2Proof.Machine

open Sys2Proof

/-! ## The immediate -/

theorem legalBps_eq_true_iff (p : Params) (bps : Nat) : legalBps p bps = true ↔ 1 ≤ bps ∧ bps ≤ p.bpsMax := by
  simp [legalBps]

theorem legalBps_eq_false_iff (p : Params) (bps : Nat) : legalBps p bps = false ↔ bps = 0 ∨ bps > p.bpsMax := by
  rw [← Bool.not_eq_true, legalBps_eq_true_iff]
  omega

/-! ## The faults -/

/-- Settles O13: the first two cases behind the gate. -/
theorem qpcmFaultsAndTheirPriority : Obligations.QpcmFaultsAndTheirPriority := by
  intro s bps hf
  refine ⟨fun hillegal => ?_, fun hpos hmax hexcess => ?_⟩
  · have hexec : exec (.qpcm bps) s = .next (raiseFault .invalidSelection s) :=
      (execQpcm_eq_next_iff bps s _).2 (.inr (.inl ⟨hf, (legalBps_eq_false_iff _ _).2 hillegal, rfl⟩))
    rw [hexec]
    exact raisesOnly_raiseFault hf .invalidSelection
  · have hlegal := (legalBps_eq_true_iff s.params bps.toNat).2 ⟨hpos, hmax⟩
    have hexec : exec (.qpcm bps) s = .next (raiseFault .capacityExceeded s) :=
      (execQpcm_eq_next_iff bps s _).2 (.inr (.inr (.inl ⟨hf, hlegal, hexcess, rfl⟩)))
    rw [hexec]
    exact raisesOnly_raiseFault hf .capacityExceeded

/-! ## The output -/

/-- Blocks of one width side by side: element `k * width + j` is element `j` of block `k`. -/
theorem getElem?_flatMap_of_width {α β : Type} {f : α → List β} {width : Nat} (hwidth : ∀ x, (f x).length = width)
    {xs : List α} {k j : Nat} {x : α} (hk : xs[k]? = some x) (hj : j < width) :
    (xs.flatMap f)[k * width + j]? = (f x)[j]? := by
  induction xs generalizing k with
  | nil => simp at hk
  | cons y ys ih =>
    rw [List.flatMap_cons]
    cases k with
    | zero =>
      obtain rfl : y = x := by simpa using hk
      rw [Nat.zero_mul, Nat.zero_add, List.getElem?_append_left (by rwa [hwidth])]
    | succ k =>
      have hindex : (k + 1) * width + j - width = k * width + j := by rw [Nat.succ_mul]; omega
      rw [List.getElem?_append_right (by rw [hwidth, Nat.succ_mul]; omega), hwidth, hindex]
      exact ih (by simpa using hk)

theorem getElem?_pcmCode {bps j : Nat} (q : Nat) (hj : j < bps) :
    (pcmCode bps q)[j]? = some (q.testBit (bps - 1 - j)) := by
  simp [pcmCode, hj]

/-- `lo` is the least and `hi` the greatest of the samples. -/
def IsSampleRange (xs : List Sample) (lo hi : Sample) : Prop := lo ∈ xs ∧ hi ∈ xs ∧ ∀ x ∈ xs, lo ≤ x ∧ x ≤ hi

section Range
variable {xs : List Sample} {lo hi : Sample}

/-- The first pass finds the range. -/
theorem sampleRange_of_isSampleRange {x : Sample} (h : IsSampleRange (x :: xs) lo hi) :
    sampleRange x xs = (lo, hi) := by
  obtain ⟨hlo, hhi, hbounds⟩ := h
  have hmin := List.min?_eq_some_iff.2 ⟨hlo, fun y hy => (hbounds y hy).1⟩
  have hmax := List.max?_eq_some_iff.2 ⟨hhi, fun y hy => (hbounds y hy).2⟩
  rw [List.min?_cons'] at hmin
  rw [List.max?_cons'] at hmax
  rw [sampleRange, Option.some.inj hmin, Option.some.inj hmax]

/-- The output is the codes of the samples' levels, one after the other. -/
theorem pcmBits_of_isSampleRange (h : IsSampleRange xs lo hi) (numerics : Numerics) (bps : Nat) :
    pcmBits numerics bps xs = xs.flatMap fun x => pcmCode bps (pcmIndex numerics x lo hi (2 ^ bps)) := by
  cases xs with
  | nil => rfl
  | cons x xs => rw [pcmBits, sampleRange_of_isSampleRange h]

/-- Bit `j` of sample `k` in the output (R102). -/
theorem getElem?_pcmBits (h : IsSampleRange xs lo hi) (numerics : Numerics) {bps k j : Nat} {x : Sample}
    (hk : xs[k]? = some x) (hj : j < bps) :
    (pcmBits numerics bps xs)[k * bps + j]? =
      some ((pcmIndex numerics x lo hi (2 ^ bps)).testBit (bps - 1 - j)) := by
  rw [pcmBits_of_isSampleRange h, getElem?_flatMap_of_width (fun _ => pcmCode_length _ _) hk hj, getElem?_pcmCode _ hj]

theorem pcmRegisters_of_isSampleRange (h : IsSampleRange xs lo hi) (s : State) :
    pcmRegisters xs s = { s with qmin := lo, qmax := hi, idx := xs.length } := by
  cases xs with
  | nil => simp [IsSampleRange] at h
  | cons x xs => rw [pcmRegisters, sampleRange_of_isSampleRange h]

end Range

/-- An element that a written sequence holds reads as the sequence says. -/
theorem bufRead_bufWriteFrom_zero_of_getElem? {α : Type} (m : Buffer α) {vs : List α} {i : Nat} {v : α}
    (h : vs[i]? = some v) : bufRead (bufWriteFrom m 0 vs) i = some v := by
  obtain ⟨hi, -⟩ := List.getElem?_eq_some_iff.1 h
  rw [bufRead_bufWriteFrom, if_pos (by omega), Nat.sub_zero, h]

/-- An element beyond a written sequence is kept. -/
theorem bufRead_bufWriteFrom_zero_beyond {α : Type} (m : Buffer α) {vs : List α} {i : Nat} (h : vs.length ≤ i) :
    bufRead (bufWriteFrom m 0 vs) i = bufRead m i := by
  rw [bufRead_bufWriteFrom, if_neg (by omega)]

/-! ## The operation -/

/-- What QPCM leaves of a sample sequence `xs` with range `lo`, `hi`, for the level index `index`: the registers, the
flag, the bits of each sample, and everything else as before (R100, R102). -/
def QuantizesWith (index : Sample → Nat) (bps : BitVec 8) (s : State) (xs : List Sample) (lo hi : Sample)
    (bits : Buffer Bit) (f : BitVec 16) : Prop :=
  exec (.qpcm bps) s = .next { s with
    bits := bits, nbits := s.nsamp * bps.toNat, qmin := lo, qmax := hi, idx := s.nsamp, flags := f } ∧
  FlagsAre f (flagsScheme s.flags) (flagsScr s.flags) (flagsDouble s.flags) false (flagsZrValid s.flags)
    (flagsReserved s.flags) ∧
  (∀ k j x, xs[k]? = some x → j < bps.toNat →
    bufRead bits (k * bps.toNat + j) = some (Nat.testBit (index x) (bps.toNat - 1 - j))) ∧
  (∀ i, s.nsamp * bps.toNat ≤ i → bufRead bits i = bufRead s.bits i)

section Operation
variable {s : State} {bps : BitVec 8} (hf : unfaulted s) (hpos : 1 ≤ bps.toNat) (hmax : bps.toNat ≤ s.params.bpsMax)
include hf hpos hmax

/-- Both arithmetics at once: the index is the one of the parameters. -/
theorem exists_quantizesWith {xs : List Sample} {lo hi : Sample} (hfit : s.nsamp * bps.toNat ≤ s.params.maxLen)
    (held : sampSeq s = some xs) (hrange : IsSampleRange xs lo hi) :
    ∃ bits f, QuantizesWith (fun x => pcmIndex s.params.numerics x lo hi (2 ^ bps.toNat)) bps s xs lo hi bits f := by
  obtain ⟨hlen, -⟩ := length_of_sampSeq held
  refine ⟨bufWriteFrom s.bits 0 (pcmBits s.params.numerics bps.toNat xs), flagsSetPalValid false s.flags, ?_,
    flagsAre_flagsSetPalValid false s.flags, fun k j x hk hj => ?_, fun i hi => ?_⟩
  · have hexec := execQpcm_eq hf ((legalBps_eq_true_iff _ _).2 ⟨hpos, hmax⟩) hfit held
    rwa [pcmRegisters_of_isSampleRange hrange, hlen] at hexec
  · exact bufRead_bufWriteFrom_zero_of_getElem? _ (getElem?_pcmBits hrange _ hk hj)
  · exact bufRead_bufWriteFrom_zero_beyond _ (by rwa [pcmBits_length, hlen])

theorem exec_qpcm_of_no_samples (hn : s.nsamp = 0) :
    exec (.qpcm bps) s = .next { s with nbits := 0, idx := 0, flags := flagsSetPalValid false s.flags } := by
  have held : sampSeq s = some [] := by rw [sampSeq, hn]; exact if_pos (Nat.zero_le _)
  have hfit : s.nsamp * bps.toNat = 0 := by rw [hn, Nat.zero_mul]
  have hexec := execQpcm_eq hf ((legalBps_eq_true_iff _ _).2 ⟨hpos, hmax⟩) (hfit.trans_le (Nat.zero_le _)) held
  rwa [show s.nsamp * bpsOperand bps = 0 from hfit] at hexec

end Operation

/-- Settles O18: the operation, with the index written as the clamped level. -/
theorem qpcmQuantizesExactly : Obligations.QpcmQuantizesExactly := by
  intro s bps xs lo hi hf hpos hmax hfit hexact held hlo hhi hbounds
  obtain ⟨bits, f, hexec, hflags, hbits, hkept⟩ := exists_quantizesWith hf hpos hmax hfit held ⟨hlo, hhi, hbounds⟩
  refine ⟨bits, f, hexec, hflags, fun k j x hk hj => ?_, hkept⟩
  rw [hexact] at hbits
  rw [← pcmIndex_exact_eq]
  exact hbits k j x hk hj

/-- Settles O19: the operation, with all that is known of the `BINARY64` index. -/
theorem qpcmBinary64IndexProperties : Obligations.QpcmBinary64IndexProperties := by
  intro s bps xs lo hi hf hpos hmax hfit hbinary held hlo hhi hbounds
  obtain ⟨bits, f, hexec, hflags, hbits, hkept⟩ := exists_quantizesWith hf hpos hmax hfit held ⟨hlo, hhi, hbounds⟩
  obtain ⟨hbound, hzero, hmono⟩ := pcmIndexBinary64_spec lo hi (2 ^ bps.toNat)
  rw [hbinary] at hbits
  exact ⟨bits, f, _, hexec, hflags, hbound, hzero, fun _ _ hxy => hmono hxy, hbits, hkept⟩

/-- Settles O20: no sample is read and no element is written. -/
theorem qpcmOfNoSamples : Obligations.QpcmOfNoSamples :=
  fun s _ hf hpos hmax hn =>
    ⟨_, exec_qpcm_of_no_samples hf hpos hmax hn, flagsAre_flagsSetPalValid false s.flags⟩

end Sys2Proof.Machine
end

section
/-!
QDM (40_quantizers.md R106 to R108): its pass follows the sequence of predictions, and the last prediction counts the
bits.
-/

namespace Sys2Proof.Machine

open Sys2Proof

/-- A command's word is the one it is encoded as. -/
theorem decode_eq_some_iff (i : Instr) (w : Word) : decode w = some i ↔ w = encode i :=
  ⟨fun h => (encode_of_decode h).symm, fun h => h ▸ decode_encode i⟩

/-- `prediction` is the running prediction over the samples (R107): up by 1/2 where the sample exceeds it, down
otherwise. -/
def IsPrediction (xs : List Sample) (prediction : Nat → Sample) : Prop :=
  ∀ k x, xs[k]? = some x →
    prediction (k + 1) = if x > prediction k then prediction k + 1 / 2 else prediction k - 1 / 2

theorem dmStep_eq (pred x : Sample) :
    dmStep pred x = (if x > pred then pred + 1 / 2 else pred - 1 / 2, decide (x > pred)) := by
  unfold dmStep dmDelta
  split <;> simp [*]

/-- The predictions of the samples after the first. -/
theorem IsPrediction.tail {x : Sample} {xs : List Sample} {prediction : Nat → Sample}
    (h : IsPrediction (x :: xs) prediction) : IsPrediction xs fun k => prediction (k + 1) :=
  fun k y hk => h (k + 1) y (by simpa using hk)

theorem IsPrediction.dmStep_eq {x : Sample} {xs : List Sample} {prediction : Nat → Sample}
    (h : IsPrediction (x :: xs) prediction) :
    dmStep (prediction 0) x = (prediction 1, decide (x > prediction 0)) := by
  rw [Machine.dmStep_eq, h 0 x rfl]

/-- The pass ends in the last prediction. -/
theorem IsPrediction.dmRun_fst {xs : List Sample} {prediction : Nat → Sample} (h : IsPrediction xs prediction) :
    (dmRun (prediction 0) xs).1 = prediction xs.length := by
  induction xs generalizing prediction with
  | nil => rfl
  | cons x xs ih =>
    rw [dmRun, h.dmStep_eq]
    exact ih h.tail

/-- Each bit compares its sample with the prediction before it. -/
theorem IsPrediction.getElem?_dmRun {xs : List Sample} {prediction : Nat → Sample} (h : IsPrediction xs prediction)
    {k : Nat} {x : Sample} (hk : xs[k]? = some x) :
    (dmRun (prediction 0) xs).2[k]? = some (decide (x > prediction k)) := by
  induction xs generalizing prediction k with
  | nil => simp at hk
  | cons y ys ih =>
    rw [dmRun, h.dmStep_eq]
    cases k with
    | zero =>
      obtain rfl : y = x := by simpa using hk
      rfl
    | succ k => exact ih h.tail (by simpa using hk)

/-- Settles O24: the pass from the prediction 0. -/
theorem qdmTracksThePrediction : Obligations.QdmTracksThePrediction := by
  refine ⟨decode_eq_some_iff .qdm, fun s xs prediction hf held hstart hprediction => ?_⟩
  have hrun : IsPrediction xs prediction := hprediction
  obtain ⟨hlen, -⟩ := length_of_sampSeq held
  refine ⟨bufWriteFrom s.bits 0 (dmRun 0 xs).2, flagsSetPalValid false s.flags, ?_,
    flagsAre_flagsSetPalValid false s.flags, fun k x hk => ?_, fun i hi => ?_⟩
  · have hexec := execQdm_eq hf held
    rwa [dmRun_length, ← hstart, hrun.dmRun_fst, hstart, hlen] at hexec
  · rw [← hstart]
    exact bufRead_bufWriteFrom_zero_of_getElem? _ (hrun.getElem?_dmRun hk)
  · exact bufRead_bufWriteFrom_zero_beyond _ (by rwa [dmRun_length, hlen])

/-- The prediction moves by half of ones minus zeros (R107). -/
theorem dmRun_fst_eq_count (pred : Sample) (xs : List Sample) :
    (dmRun pred xs).1 =
      pred + (((dmRun pred xs).2.count true : Rat) - ((dmRun pred xs).2.count false : Rat)) / 2 := by
  induction xs generalizing pred with
  | nil => simp [dmRun]
  | cons x xs ih =>
    rw [dmRun, ih, dmStep_eq]
    by_cases hx : x > pred <;> simp [hx] <;> ring

/-- Settles O25: the bit sequence after QDM is the pass's output. -/
theorem qdmPredictionCountsItsBits : Obligations.QdmPredictionCountsItsBits := by
  intro s t b hf hexec hbits
  obtain ⟨hfaulted, -⟩ | ⟨-, xs, held, rfl⟩ := (execQdm_eq_next_iff s t).1 hexec
  · exact Bool.noConfusion (hf.symm.trans hfaulted)
  · obtain ⟨hlen, hfit⟩ := length_of_sampSeq held
    have hout : (dmRun 0 xs).2.length ≤ s.params.maxLen := by rwa [dmRun_length, hlen]
    obtain rfl : (dmRun 0 xs).2 = b := Option.some.inj ((bufReadSeq_bufWriteFrom hout s.bits).symm.trans hbits)
    exact (dmRun_fst_eq_count 0 xs).trans (zero_add _)

end Sys2Proof.Machine
end

section
/-!
Which commands raise a fault (60_exceptions.md R212, R213, R215): QPCM and the two scramblers; every other command keeps
`STATUS`.
-/

namespace Sys2Proof.Machine

open Sys2Proof

variable {s t : State}

theorem faulted_raiseFault (code : ErrCode) (s : State) : faulted (raiseFault code s) := by
  cases hf : statusFault s.status with
  | true => rwa [faulted, raiseFault_of_faulted code s hf]
  | false => rw [faulted, raiseFault_of_unfaulted code s hf, statusFault_statusAfterFault]

theorem not_faulted_of_status_eq (hf : unfaulted s) (h : t.status = s.status) : ¬ faulted t := by
  rw [faulted, h, hf]
  exact Bool.false_ne_true

/-- QPCM has raised a fault exactly in its two fault cases. -/
theorem faulted_of_execQpcm_iff {bps : BitVec 8} (hf : unfaulted s) (h : execQpcm bps s = .next t) :
    faulted t ↔ bps.toNat = 0 ∨ bps.toNat > s.params.bpsMax ∨ s.nsamp * bps.toNat > s.params.maxLen := by
  rw [← or_assoc, ← legalBps_eq_false_iff]
  obtain ⟨hfaulted, -⟩ | ⟨-, hillegal, rfl⟩ | ⟨-, -, hexcess, rfl⟩ | ⟨-, hlegal, hfit, xs, -, rfl⟩ :=
    (execQpcm_eq_next_iff bps s t).1 h
  · exact Bool.noConfusion (hf.symm.trans hfaulted)
  · exact iff_of_true (faulted_raiseFault _ s) (.inl hillegal)
  · exact iff_of_true (faulted_raiseFault _ s) (.inr hexcess)
  · refine iff_of_false (not_faulted_of_status_eq hf (pcmRegisters_status xs s)) ?_
    rintro (hillegal | hexcess)
    · exact Bool.noConfusion (hillegal.symm.trans hlegal)
    · exact absurd hfit (not_le.2 hexcess)

/-- A scrambler has raised a fault exactly where its precondition fails. -/
theorem faulted_of_scramble_iff {k : ScrambleKind} {run : List Level → ScramblePass}
    (hrun : ∀ x, (run x).sig.length = x.length) (hf : unfaulted s)
    (h : unlessFaulted s (scrambleSignal k run s) = .next t) :
    faulted t ↔ flagsScheme s.flags ≠ 4 ∨ flagsScr s.flags ≠ 0 := by
  rw [← not_and_or, ← scramblable_iff, Bool.not_eq_true]
  rw [unlessFaulted_of_unfaulted hf] at h
  obtain ⟨hbad, rfl⟩ | ⟨hgood, x, -, rfl⟩ := (scrambleSignal_eq_next_iff k s t hrun).1 h
  · exact iff_of_true (faulted_raiseFault _ s) hbad
  · exact iff_of_false (not_faulted_of_status_eq hf rfl) fun hbad => Bool.noConfusion (hbad.symm.trans hgood)

/-- The commands that can raise a fault. -/
def mayRaise : Instr → Bool
  | .qpcm _ | .sb8zs | .shdb3 => true
  | _ => false

/-- Behind the gate only what stands behind it has to be looked at. -/
theorem status_of_unlessFaulted {r : Result} (h : unlessFaulted s r = .next t)
    (hr : r = .next t → t.status = s.status) : t.status = s.status := by
  obtain ⟨-, rfl⟩ | ⟨-, h⟩ := (unlessFaulted_eq_next_iff s t r).1 h
  · rfl
  · exact hr h

theorem status_of_encode {c : Scheme} (h : unlessFaulted s (encodeSignal c s) = .next t) : t.status = s.status :=
  status_of_unlessFaulted h fun h => by
    obtain ⟨b, -, rfl⟩ := (encodeSignal_eq_next_iff c s t).1 h
    rfl

theorem status_of_execQdm (h : execQdm s = .next t) : t.status = s.status := by
  obtain ⟨-, rfl⟩ | ⟨-, xs, -, rfl⟩ := (execQdm_eq_next_iff s t).1 h <;> rfl

theorem status_of_execApal (h : execApal s = .next t) : t.status = s.status :=
  status_of_unlessFaulted h fun h => by
    split at h <;> cases h
    rfl

theorem status_of_execAzrun (h : execAzrun s = .next t) : t.status = s.status :=
  status_of_unlessFaulted h fun h => by
    split at h <;> cases h
    rfl

/-- Every command but QPCM and the two scramblers keeps `STATUS`. -/
theorem status_of_exec {i : Instr} (hi : mayRaise i = false) (h : exec i s = .next t) : t.status = s.status := by
  cases i with
  | nop | clrb | clrs | snone => exact status_of_unlessFaulted h fun h => by cases h; rfl
  | qdm => exact status_of_execQdm h
  | enl | eni | eman | edman | eami => exact status_of_encode h
  | apal => exact status_of_execApal h
  | azrun => exact status_of_execAzrun h
  | qpcm | sb8zs | shdb3 => exact Bool.noConfusion hi

/-- Settles O12: the three commands that can raise a fault, and the rest. -/
theorem commandFaultsExactlyWhen : Obligations.CommandFaultsExactlyWhen := by
  intro i s t hf h
  cases i with
  | qpcm bps => simpa using faulted_of_execQpcm_iff hf h
  | sb8zs => simpa using faulted_of_scramble_iff (b8zsRun_length · s.oc) hf h
  | shdb3 => simpa using faulted_of_scramble_iff hdb3Run_length hf h
  | _ => exact iff_of_false (not_faulted_of_status_eq hf (status_of_exec rfl h)) (by simp)

end Sys2Proof.Machine
end

section
/-!
The line encoder (41_line_encoder.md): each bit's levels stand at its own place in the signal, put out from the running
variable before that bit; that variable is the parity of the 1 bits before it, where the scheme has a state, and is
kept where it has none. The five commands then share one operation (R120).
-/

namespace Sys2Proof.Machine

open Sys2Proof

/-! ## Parity of a level -/

/-- The level `v` negated `n` times. -/
def toggled (v : Level) (n : Nat) : Level := if n % 2 = 0 then v else v.negate

@[simp] theorem negate_negate (v : Level) : v.negate.negate = v := by cases v <;> rfl

theorem toggled_of_even {n : Nat} (h : n % 2 = 0) (v : Level) : toggled v n = v := if_pos h

theorem toggled_of_odd {n : Nat} (h : n % 2 ≠ 0) (v : Level) : toggled v n = v.negate := if_neg h

theorem toggled_succ (v : Level) (n : Nat) : toggled v (n + 1) = (toggled v n).negate := by
  by_cases h : n % 2 = 0
  · rw [toggled_of_even h, toggled_of_odd (by omega)]
  · rw [toggled_of_odd h, toggled_of_even (by omega), negate_negate]

theorem toggled_toggled (v : Level) (m n : Nat) : toggled (toggled v m) n = toggled v (m + n) := by
  induction n with
  | zero => rfl
  | succ n ih => rw [toggled_succ, ih, ← Nat.add_assoc, toggled_succ]

/-- The level -1 after `n` negations and one more for a 1 bit. -/
theorem toggled_neg_add_toNat (n : Nat) (bit : Bit) :
    toggled .neg (n + bit.toNat) = if (n % 2 = 0 ↔ bit = true) then .pos else .neg := by
  rw [← toggled_toggled]
  by_cases heven : n % 2 = 0
  · rw [toggled_of_even heven]
    cases bit <;> simp [heven, toggled, Level.negate]
  · rw [toggled_of_odd heven]
    cases bit <;> simp [heven, toggled, Level.negate]

theorem onesBefore_length (b : List Bit) : onesBefore b b.length = b.count true := by
  rw [onesBefore, List.take_length]

theorem onesBefore_succ {b : List Bit} {k : Nat} {bit : Bit} (hk : b[k]? = some bit) :
    onesBefore b (k + 1) = onesBefore b k + bit.toNat := by
  rw [onesBefore, List.take_add_one, hk, List.count_append]
  cases bit <;> rfl

/-! ## The running variable -/

/-- The schemes whose state machine has a state (R123, R125, R126); NRZ-L and Manchester have none (R122, R124). -/
def hasState : Scheme → Bool
  | .nrzI | .diffManchester | .ami => true
  | .nrzL | .manchester => false

/-- Where there is a state, a 1 bit and only a 1 bit negates it. -/
theorem encStep_fst_of_hasState {c : Scheme} (hc : hasState c = true) (v : Level) (bit : Bit) :
    (encStep c v bit).1 = toggled v bit.toNat := by
  cases c with
  | nrzI | ami => cases bit <;> rfl
  | diffManchester =>
    cases bit with
    | false => exact negate_negate v
    | true => rfl
  | nrzL | manchester => exact Bool.noConfusion hc

theorem encStep_fst_of_stateless {c : Scheme} (hc : hasState c = false) (v : Level) (bit : Bit) :
    (encStep c v bit).1 = v := by
  cases c with
  | nrzL | manchester => cases bit <;> rfl
  | nrzI | diffManchester | ami => exact Bool.noConfusion hc

/-- After a whole sequence the state is the parity of its 1 bits. -/
theorem encRun_fst_of_hasState {c : Scheme} (hc : hasState c = true) (v : Level) (b : List Bit) :
    (encRun c v b).1 = toggled v (b.count true) := by
  induction b generalizing v with
  | nil => rfl
  | cons bit b ih =>
    have hcount : (bit :: b).count true = bit.toNat + b.count true := by cases bit <;> simp [Nat.add_comm]
    rw [encRun, ih, encStep_fst_of_hasState hc, toggled_toggled, hcount]

theorem encRun_fst_of_stateless {c : Scheme} (hc : hasState c = false) (v : Level) (b : List Bit) :
    (encRun c v b).1 = v := by
  induction b generalizing v with
  | nil => rfl
  | cons bit b ih => rw [encRun, ih, encStep_fst_of_stateless hc]

/-- Where there is a state every run starts from the same one (R134). -/
theorem encInit_of_hasState {c : Scheme} (hc : hasState c = true) (v w : Level) : encInit c v = encInit c w := by
  cases c with
  | nrzI | diffManchester | ami => rfl
  | nrzL | manchester => exact Bool.noConfusion hc

theorem encInit_of_stateless {c : Scheme} (hc : hasState c = false) (v : Level) : encInit c v = v := by
  cases c with
  | nrzL | manchester => rfl
  | nrzI | diffManchester | ami => exact Bool.noConfusion hc

/-- A run after another starts as that one did. -/
theorem encInit_encRun (c : Scheme) (v : Level) (b : List Bit) :
    encInit c (encRun c (encInit c v) b).1 = encInit c v := by
  cases hc : hasState c with
  | true => exact encInit_of_hasState hc _ _
  | false => rw [encInit_of_stateless hc, encRun_fst_of_stateless hc]

/-! ## The signal -/

/-- The levels of bit `k` stand from `k` times the multiplier on, put out from the state after the bits before it. -/
theorem getElem?_encRun (c : Scheme) (v : Level) {b : List Bit} {k j : Nat} {bit : Bit} (hk : b[k]? = some bit)
    (hj : j < schemeMultiplier c) :
    (encRun c v b).2[schemeMultiplier c * k + j]? = (encStep c (encRun c v (b.take k)).1 bit).2[j]? := by
  induction b generalizing v k with
  | nil => simp at hk
  | cons x b ih =>
    cases k with
    | zero =>
      obtain rfl : x = bit := by simpa using hk
      rw [Nat.mul_zero, Nat.zero_add, encRun, List.getElem?_append_left (by rwa [encStep_length])]
      rfl
    | succ k =>
      have hindex : schemeMultiplier c * (k + 1) + j - schemeMultiplier c = schemeMultiplier c * k + j := by
        rw [Nat.mul_succ]; omega
      rw [encRun, List.getElem?_append_right (by rw [encStep_length, Nat.mul_succ]; omega), encStep_length, hindex]
      exact ih _ (by simpa using hk)

/-- `getElem?_encRun` for a scheme with a state, which is the parity of the 1 bits before. -/
theorem getElem?_encRun_of_hasState {c : Scheme} (hc : hasState c = true) (v : Level) {b : List Bit} {k j : Nat}
    {bit : Bit} (hk : b[k]? = some bit) (hj : j < schemeMultiplier c) :
    (encRun c v b).2[schemeMultiplier c * k + j]? = (encStep c (toggled v (onesBefore b k)) bit).2[j]? := by
  rw [getElem?_encRun c v hk hj, encRun_fst_of_hasState hc, onesBefore]

theorem getElem?_encRun_of_stateless {c : Scheme} (hc : hasState c = false) (v : Level) {b : List Bit} {k j : Nat}
    {bit : Bit} (hk : b[k]? = some bit) (hj : j < schemeMultiplier c) :
    (encRun c v b).2[schemeMultiplier c * k + j]? = (encStep c v bit).2[j]? := by
  rw [getElem?_encRun c v hk hj, encRun_fst_of_stateless hc]

/-- NRZ-L (R128). -/
theorem getElem?_encRun_nrzL (v : Level) {b : List Bit} {i : Nat} {bit : Bit} (hi : b[i]? = some bit) :
    (encRun .nrzL v b).2[i]? = some (if bit then .pos else .neg) := by
  have h := getElem?_encRun_of_stateless (c := .nrzL) rfl v hi Nat.zero_lt_one
  rw [schemeMultiplier, Nat.one_mul, Nat.add_zero] at h
  rw [h]
  cases bit <;> rfl

/-- NRZ-I (R129): the state after the bit. -/
theorem getElem?_encRun_nrzI (v : Level) {b : List Bit} {i : Nat} {bit : Bit} (hi : b[i]? = some bit) :
    (encRun .nrzI v b).2[i]? = some (toggled v (onesBefore b (i + 1))) := by
  have h := getElem?_encRun_of_hasState (c := .nrzI) rfl v hi Nat.zero_lt_one
  rw [schemeMultiplier, Nat.one_mul, Nat.add_zero] at h
  rw [h, onesBefore_succ hi, ← toggled_toggled]
  cases bit <;> rfl

/-- Manchester (R130). -/
theorem getElem?_encRun_manchester (v : Level) {b : List Bit} {i : Nat} {bit : Bit} (hi : b[i]? = some bit) :
    (encRun .manchester v b).2[2 * i]? = some (if bit then .neg else .pos) ∧
      (encRun .manchester v b).2[2 * i + 1]? = some (if bit then .pos else .neg) := by
  have hfirst := getElem?_encRun_of_stateless (c := .manchester) rfl v hi Nat.zero_lt_two
  have hsecond := getElem?_encRun_of_stateless (c := .manchester) rfl v hi Nat.one_lt_two
  cases bit <;> exact ⟨hfirst, hsecond⟩

/-- Differential Manchester (R131): the state after the bit, and before it that state's negation. -/
theorem getElem?_encRun_diffManchester (v : Level) {b : List Bit} {i : Nat} {bit : Bit} (hi : b[i]? = some bit) :
    (encRun .diffManchester v b).2[2 * i]? = some (toggled v (onesBefore b (i + 1))).negate ∧
      (encRun .diffManchester v b).2[2 * i + 1]? = some (toggled v (onesBefore b (i + 1))) := by
  have hfirst := getElem?_encRun_of_hasState (c := .diffManchester) rfl v hi Nat.zero_lt_two
  have hsecond := getElem?_encRun_of_hasState (c := .diffManchester) rfl v hi Nat.one_lt_two
  rw [onesBefore_succ hi]
  cases bit with
  | false => exact ⟨hfirst, hsecond.trans (congrArg some (negate_negate _))⟩
  | true =>
    rw [Bool.toNat_true, toggled_succ, negate_negate]
    exact ⟨hfirst, hsecond⟩

/-- AMI (R132): a 1 bit puts out the state before it. -/
theorem getElem?_encRun_ami (v : Level) {b : List Bit} {i : Nat} {bit : Bit} (hi : b[i]? = some bit) :
    (encRun .ami v b).2[i]? = some (if bit then toggled v (onesBefore b i) else .zero) := by
  have h := getElem?_encRun_of_hasState (c := .ami) rfl v hi Nat.zero_lt_one
  rw [schemeMultiplier, Nat.one_mul, Nat.add_zero] at h
  rw [h]
  cases bit <;> rfl

/-! ## The commands -/

/-- The encoder command of a scheme (R128 to R132). -/
def encodeCommand : Scheme → Instr
  | .nrzL => .enl
  | .nrzI => .eni
  | .manchester => .eman
  | .diffManchester => .edman
  | .ami => .eami

theorem exec_encodeCommand (c : Scheme) (s : State) :
    exec (encodeCommand c) s = unlessFaulted s (encodeSignal c s) := by
  cases c <;> rfl

theorem exists_encodeCommand_of_mem {i : Instr} (hi : i ∈ [Instr.enl, .eni, .eman, .edman, .eami]) :
    ∃ c, i = encodeCommand c := by
  simp only [List.mem_cons, List.not_mem_nil, or_false] at hi
  obtain rfl | rfl | rfl | rfl | rfl := hi
  · exact ⟨.nrzL, rfl⟩
  · exact ⟨.nrzI, rfl⟩
  · exact ⟨.manchester, rfl⟩
  · exact ⟨.diffManchester, rfl⟩
  · exact ⟨.ami, rfl⟩

section Operation
variable {s : State} {b : List Bit}

/-- An encoder command: ignored while faulted, or its operation on the bit sequence. -/
theorem exec_encodeCommand_eq_next_iff (c : Scheme) (s t : State) :
    exec (encodeCommand c) s = .next t ↔
      (faulted s ∧ t = s) ∨ (unfaulted s ∧ ∃ b, bitSeq s = some b ∧ t = signalEncoded c b s) := by
  rw [exec_encodeCommand, unlessFaulted_eq_next_iff, encodeSignal_eq_next_iff]
  rfl

theorem exec_encodeCommand_of_held (c : Scheme) (hf : unfaulted s) (held : bitSeq s = some b) :
    exec (encodeCommand c) s = .next (signalEncoded c b s) :=
  (exec_encodeCommand_eq_next_iff c s _).2 (.inr ⟨hf, b, held, rfl⟩)

theorem encRun_length_of_held (c : Scheme) (v : Level) (held : bitSeq s = some b) :
    (encRun c v b).2.length = schemeMultiplier c * s.nbits := by
  rw [encRun_length, (length_of_bitSeq held).1]

/-- What the five commands share (R120), with the signal and the last running variable of the run. -/
theorem encodesAs_encRun (c : Scheme) (hf : unfaulted s) (held : bitSeq s = some b) :
    EncodesAs (encodeCommand c) s (schemeCode c) (decide (schemeMultiplier c = 2)) (schemeMultiplier c * s.nbits)
      (encRun c (encInit c s.runvar) b).2 (encRun c (encInit c s.runvar) b).1 := by
  refine ⟨_, _, exec_encodeCommand_of_held c hf held, encRun_length_of_held c _ held, fun i => ?_,
    flagsAre_flagsAfterEncode c s.flags⟩
  simp [bufRead_bufWriteFrom]

/-- For a scheme with a state the running variable ends at the parity of all the 1 bits. -/
theorem encodesAs_of_hasState {c : Scheme} (hc : hasState c = true) (hf : unfaulted s) (held : bitSeq s = some b) :
    EncodesAs (encodeCommand c) s (schemeCode c) (decide (schemeMultiplier c = 2)) (schemeMultiplier c * s.nbits)
      (encRun c (encInit c s.runvar) b).2 (toggled (encInit c s.runvar) (onesBefore b b.length)) := by
  rw [onesBefore_length, ← encRun_fst_of_hasState hc]
  exact encodesAs_encRun c hf held

theorem encodesAs_of_stateless {c : Scheme} (hc : hasState c = false) (hf : unfaulted s)
    (held : bitSeq s = some b) :
    EncodesAs (encodeCommand c) s (schemeCode c) (decide (schemeMultiplier c = 2)) (schemeMultiplier c * s.nbits)
      (encRun c s.runvar b).2 s.runvar := by
  have h := encodesAs_encRun c hf held
  rwa [encInit_of_stateless hc, encRun_fst_of_stateless hc] at h

/-- The signal sequence after an encoder command is the run's. -/
theorem sigSeq_signalEncoded (c : Scheme) (held : bitSeq s = some b) :
    sigSeq (signalEncoded c b s) = some (encRun c (encInit c s.runvar) b).2 := by
  obtain ⟨hlen, hfit⟩ := length_of_bitSeq held
  have hout := encRun_length_of_held c (encInit c s.runvar) held
  have hcap : (encRun c (encInit c s.runvar) b).2.length ≤ s.params.sigCap :=
    hout.trans_le (Nat.mul_le_mul (schemeMultiplier_le c) hfit)
  have hread := bufReadSeq_bufWriteFrom hcap s.sig
  rwa [hout] at hread

end Operation

theorem flagsAfterEncode_idem (c : Scheme) (f : BitVec 16) :
    flagsAfterEncode c (flagsAfterEncode c f) = flagsAfterEncode c f := by
  simp [flagsAfterEncode]

/-! ## The statements -/

/-- Settles O26: each row of the table is one equation of the state machine. -/
theorem transitionTable : Obligations.TransitionTable :=
  ⟨fun _ => ⟨rfl, rfl⟩, ⟨rfl, rfl, rfl, rfl⟩, fun _ => ⟨rfl, rfl⟩, ⟨rfl, rfl, rfl, rfl⟩, rfl, rfl, rfl, rfl⟩

/-- Settles O27: each bit's level is the same from every state. -/
theorem enlEncodes : Obligations.EnlEncodes := by
  refine ⟨decode_eq_some_iff .enl, fun s b hf held => ⟨_, ?_, fun i bit hi => getElem?_encRun_nrzL s.runvar hi⟩⟩
  have h := encodesAs_of_stateless (c := .nrzL) rfl hf held
  rwa [schemeMultiplier, Nat.one_mul] at h

/-- Settles O28: the run starts at -1. -/
theorem eniEncodes : Obligations.EniEncodes := by
  refine ⟨decode_eq_some_iff .eni, fun s b hf held =>
    ⟨_, ?_, fun i hi => getElem?_encRun_nrzI .neg (List.getElem?_eq_getElem hi)⟩⟩
  have h := encodesAs_of_hasState (c := .nrzI) rfl hf held
  rwa [schemeMultiplier, Nat.one_mul] at h

/-- Settles O29: each bit's pair is the same from every state. -/
theorem emanEncodes : Obligations.EmanEncodes :=
  ⟨decode_eq_some_iff .eman, fun s _ hf held =>
    ⟨_, encodesAs_of_stateless (c := .manchester) rfl hf held, fun _ _ => getElem?_encRun_manchester s.runvar⟩⟩

/-- Settles O30: the run starts at -1, and the state after a bit is the state before it, negated by a 1 bit. -/
theorem edmanEncodes : Obligations.EdmanEncodes := by
  refine ⟨decode_eq_some_iff .edman, fun s b hf held =>
    ⟨_, encodesAs_of_hasState (c := .diffManchester) rfl hf held, fun i bit hi => ?_⟩⟩
  have h := getElem?_encRun_diffManchester .neg hi
  rwa [onesBefore_succ hi, toggled_neg_add_toNat, apply_ite Level.negate] at h

/-- Settles O31: the run starts at +1. -/
theorem eamiEncodes : Obligations.EamiEncodes := by
  refine ⟨decode_eq_some_iff .eami, fun s b hf held => ⟨_, ?_, fun i bit hi => getElem?_encRun_ami .pos hi⟩⟩
  have h := encodesAs_of_hasState (c := .ami) rfl hf held
  rwa [schemeMultiplier, Nat.one_mul] at h

/-- Settles O32: while faulted nothing changes twice; else the second run starts as the first did, on the same bits. -/
theorem encodingTwiceGivesTheSameSignal : Obligations.EncodingTwiceGivesTheSameSignal := by
  intro i s t hi h
  obtain ⟨c, rfl⟩ := exists_encodeCommand_of_mem hi
  obtain ⟨-, rfl⟩ | ⟨hf, b, held, rfl⟩ := (exec_encodeCommand_eq_next_iff c s t).1 h
  · exact ⟨t, h, rfl, rfl, rfl, rfl⟩
  · have hstart : encInit c (signalEncoded c b s).runvar = encInit c s.runvar := encInit_encRun c s.runvar b
    have hagain : bitSeq (signalEncoded c b s) = some b := held
    refine ⟨signalEncoded c b (signalEncoded c b s), exec_encodeCommand_of_held c hf hagain, ?_, rfl,
      flagsAfterEncode_idem c s.flags, ?_⟩
    · rw [sigSeq_signalEncoded c hagain, hstart, sigSeq_signalEncoded c held]
    · exact congrArg (fun v => (encRun c v b).1) hstart

end Sys2Proof.Machine
end

section
/-!
The zero runs of a signal and the windows of a scrambler pass (42_scramblers.md R153, R157, 43_analyzers.md R187), as
functions of the input signal alone, each with what one more element adds to it.
-/

namespace Sys2Proof.Machine

open Sys2Proof

/-! ## The zeros at the end -/

@[simp] theorem trailingZeros_nil : trailingZeros [] = 0 := rfl

@[simp] theorem trailingZeros_concat_zero (x : List Level) : trailingZeros (x ++ [.zero]) = trailingZeros x + 1 := by
  simp [trailingZeros]

theorem trailingZeros_concat_mark (x : List Level) {l : Level} (hl : l ≠ .zero) : trailingZeros (x ++ [l]) = 0 := by
  simp [trailingZeros, hl]

theorem trailingZeros_le_length (x : List Level) : trailingZeros x ≤ x.length :=
  (List.takeWhile_prefix _).length_le.trans_eq x.length_reverse

theorem length_sub_trailingZeros_concat_zero (x : List Level) :
    (x ++ [Level.zero]).length - trailingZeros (x ++ [.zero]) = x.length - trailingZeros x := by
  rw [trailingZeros_concat_zero, List.length_append, List.length_singleton, Nat.add_sub_add_right]

theorem IsZeroRun.append {x : List Level} {start len : Nat} (h : IsZeroRun x start len) (ls : List Level) :
    IsZeroRun (x ++ ls) start len := by
  obtain ⟨hfit, hzero⟩ := h
  refine ⟨by rw [List.length_append]; omega, fun k hk => ?_⟩
  rw [List.getElem?_append_left (by omega), hzero k hk]

theorem isZeroRun_trailingZeros (x : List Level) : IsZeroRun x (x.length - trailingZeros x) (trailingZeros x) := by
  refine ⟨by have := trailingZeros_le_length x; omega, ?_⟩
  induction x using List.reverseRecOn with
  | nil => simp
  | append_singleton x l ih =>
    have hle := trailingZeros_le_length x
    intro k hk
    by_cases hl : l = .zero
    · subst hl
      rw [trailingZeros_concat_zero] at hk
      rw [length_sub_trailingZeros_concat_zero]
      rcases Nat.lt_succ_iff_lt_or_eq.1 hk with hlt | rfl
      · rw [List.getElem?_append_left (by omega), ih k hlt]
      · rw [Nat.sub_add_cancel hle, List.getElem?_concat_length]
    · rw [trailingZeros_concat_mark x hl] at hk
      exact absurd hk k.not_lt_zero

/-- The zeros at the end, counted back from the end. -/
theorem getElem?_of_le_trailingZeros {x : List Level} {j : Nat} (hpos : 1 ≤ j) (hj : j ≤ trailingZeros x) :
    x[x.length - j]? = some .zero := by
  obtain ⟨hfit, hzero⟩ := isZeroRun_trailingZeros x
  have hindex : x.length - trailingZeros x + (trailingZeros x - j) = x.length - j := by omega
  rw [← hindex]
  exact hzero _ (by omega)

theorem trailingZeros_take_succ {x : List Level} {i : Nat} (hi : x[i]? = some .zero) :
    trailingZeros (x.take (i + 1)) = trailingZeros (x.take i) + 1 := by
  rw [List.take_add_one, hi]
  exact trailingZeros_concat_zero _

/-- Along a zero run the zeros at the end grow one by one. -/
theorem IsZeroRun.trailingZeros_take {x : List Level} {start len : Nat} (h : IsZeroRun x start len) {k : Nat}
    (hk : k ≤ len) : trailingZeros (x.take (start + k)) = trailingZeros (x.take start) + k := by
  induction k with
  | zero => rfl
  | succ k ih => rw [← Nat.add_assoc, trailingZeros_take_succ (h.2 k hk), ih (by omega), Nat.add_assoc]

/-! ## The number of full windows -/

/-- The length of the zero run at the right end, when `n` zeros stand before the signal. -/
def openRun (n : Nat) (x : List Level) : Nat := x.foldl (fun r l => if l = .zero then r + 1 else 0) n

theorem openRun_eq_trailingZeros (x : List Level) : openRun 0 x = trailingZeros x := by
  induction x using List.reverseRecOn with
  | nil => rfl
  | append_singleton x l ih =>
    rw [openRun] at ih
    rw [openRun, List.foldl_concat, ih]
    split
    next hl => rw [hl, trailingZeros_concat_zero]
    next hl => rw [trailingZeros_concat_mark x hl]

/-- One more zero completes a window when the open run becomes a multiple of the window. -/
theorem sum_zeroRunsFrom_concat_zero (window n : Nat) (x : List Level) :
    ((zeroRunsFrom n (x ++ [.zero])).map (· / window)).sum =
      ((zeroRunsFrom n x).map (· / window)).sum + if (openRun n x + 1) % window = 0 then 1 else 0 := by
  induction x generalizing n with
  | nil => by_cases h : (n + 1) % window = 0 <;> simp [zeroRunsFrom, openRun, Nat.succ_div, Nat.dvd_iff_mod_eq_zero, h]
  | cons l x ih =>
    cases l with
    | zero => exact ih (n + 1)
    | neg | pos => simp only [List.cons_append, zeroRunsFrom, List.map_cons, List.sum_cons, ih 0, Nat.add_assoc]; rfl

/-- A mark closes the open run, which keeps its windows. -/
theorem sum_zeroRunsFrom_concat_mark (window n : Nat) (x : List Level) {l : Level} (hl : l ≠ .zero) :
    ((zeroRunsFrom n (x ++ [l])).map (· / window)).sum = ((zeroRunsFrom n x).map (· / window)).sum := by
  induction x generalizing n with
  | nil =>
    cases l with
    | zero => exact absurd rfl hl
    | neg | pos => simp [zeroRunsFrom]
  | cons m x ih => cases m <;> simp only [List.cons_append, zeroRunsFrom, List.map_cons, List.sum_cons, ih]

theorem fullWindows_concat_zero (window : Nat) (x : List Level) :
    fullWindows window (x ++ [.zero]) =
      fullWindows window x + if (trailingZeros x + 1) % window = 0 then 1 else 0 := by
  rw [fullWindows, sum_zeroRunsFrom_concat_zero, openRun_eq_trailingZeros, fullWindows]

theorem fullWindows_concat_mark (window : Nat) (x : List Level) {l : Level} (hl : l ≠ .zero) :
    fullWindows window (x ++ [l]) = fullWindows window x := sum_zeroRunsFrom_concat_mark window 0 x hl

/-! ## Where the windows end -/

/-- The positions at which a full window of zeros ends: a zero, up to which the zeros of its run are a multiple of the
window (R153, R157). -/
def windowEnds (window : Nat) (x : List Level) : List Nat :=
  (List.range x.length).filter fun e => x[e]? = some .zero ∧ trailingZeros (x.take (e + 1)) % window = 0

theorem mem_windowEnds {window e : Nat} {x : List Level} :
    e ∈ windowEnds window x ↔ x[e]? = some .zero ∧ trailingZeros (x.take (e + 1)) % window = 0 := by
  simp only [windowEnds, List.mem_filter, List.mem_range, decide_eq_true_eq, and_iff_right_iff_imp]
  rintro ⟨he, -⟩
  exact (List.getElem?_eq_some_iff.1 he).1

theorem lt_length_of_mem_windowEnds {window e : Nat} {x : List Level} (he : e ∈ windowEnds window x) : e < x.length :=
  (List.getElem?_eq_some_iff.1 (mem_windowEnds.1 he).1).1

@[simp] theorem windowEnds_nil (window : Nat) : windowEnds window [] = [] := rfl

/-- The windows of the elements before the last, and the last one's own. -/
theorem windowEnds_concat (window : Nat) (x : List Level) (l : Level) :
    windowEnds window (x ++ [l]) =
      windowEnds window x ++ if l = .zero ∧ trailingZeros (x ++ [l]) % window = 0 then [x.length] else [] := by
  rw [windowEnds, List.length_append, List.length_singleton, List.range_succ, List.filter_append]
  congr 1
  · refine List.filter_congr fun e he => ?_
    have hlt := List.mem_range.1 he
    rw [List.getElem?_append_left hlt, List.take_append_of_le_length hlt]
  · rw [List.filter_singleton, List.getElem?_concat_length, List.take_of_length_le (by simp)]
    simp

theorem windowEnds_concat_mark (window : Nat) (x : List Level) {l : Level} (hl : l ≠ .zero) :
    windowEnds window (x ++ [l]) = windowEnds window x := by
  rw [windowEnds_concat, if_neg (by simp [hl]), List.append_nil]

theorem windowEnds_concat_short {window : Nat} {x : List Level} (h : (trailingZeros x + 1) % window ≠ 0) :
    windowEnds window (x ++ [.zero]) = windowEnds window x := by
  rw [windowEnds_concat, if_neg (by simp [h]), List.append_nil]

theorem windowEnds_concat_full {window : Nat} {x : List Level} (h : (trailingZeros x + 1) % window = 0) :
    windowEnds window (x ++ [.zero]) = windowEnds window x ++ [x.length] := by
  rw [windowEnds_concat, if_pos ⟨rfl, by rw [trailingZeros_concat_zero, h]⟩]

/-- R156 (d), R159 (d). -/
theorem length_windowEnds (window : Nat) (x : List Level) : (windowEnds window x).length = fullWindows window x := by
  induction x using List.reverseRecOn with
  | nil => simp [fullWindows, zeroRunsFrom]
  | append_singleton x l ih =>
    by_cases hl : l = .zero
    · subst hl
      rw [fullWindows_concat_zero, windowEnds_concat, List.length_append, ih, trailingZeros_concat_zero]
      split <;> simp_all
    · rw [windowEnds_concat_mark window x hl, fullWindows_concat_mark window x hl, ih]

/-- A window holds zeros only. -/
theorem zeros_of_mem_windowEnds {window e : Nat} {x : List Level} (he : e ∈ windowEnds window x) :
    window ≤ e + 1 ∧ ∀ j, j < window → x[e - j]? = some .zero := by
  obtain ⟨hzero, hmod⟩ := mem_windowEnds.1 he
  have hlen : (x.take (e + 1)).length = e + 1 :=
    List.length_take_of_le (lt_length_of_mem_windowEnds he)
  have hle := trailingZeros_le_length (x.take (e + 1))
  have hwindow : window ≤ trailingZeros (x.take (e + 1)) :=
    Nat.le_of_dvd (by rw [trailingZeros_take_succ hzero]; omega) (Nat.dvd_of_mod_eq_zero hmod)
  refine ⟨by omega, fun j hj => ?_⟩
  have hback := getElem?_of_le_trailingZeros (x := x.take (e + 1)) (j := j + 1) (by omega) (by omega)
  rwa [hlen, Nat.add_sub_add_right, List.getElem?_take_of_lt (by omega)] at hback

theorem add_one_mod_of_ne_zero {n window : Nat} (h : (n + 1) % window ≠ 0) : (n + 1) % window = n % window + 1 := by
  cases window with
  | zero => rw [Nat.mod_zero, Nat.mod_zero]
  | succ w =>
    have hne : n % (w + 1) ≠ w := fun heq => h (Nat.succ_mod_succ_eq_zero_iff.2 heq)
    have hlt : n % (w + 1) < w + 1 := Nat.mod_lt n w.succ_pos
    rw [← Nat.mod_add_mod, Nat.mod_eq_of_lt (by omega)]

theorem mod_add_one_of_eq_zero {n window : Nat} (hw : 0 < window) (h : (n + 1) % window = 0) :
    n % window + 1 = window := by
  obtain ⟨w, rfl⟩ := Nat.exists_eq_add_one.2 hw
  rw [Nat.succ_mod_succ_eq_zero_iff.1 h]

/-- Behind each window there is still room for the zeros at the end that are in no full window. -/
theorem add_mod_lt_of_mem_windowEnds {window e : Nat} {x : List Level} (he : e ∈ windowEnds window x) :
    e + trailingZeros x % window < x.length := by
  induction x using List.reverseRecOn with
  | nil => simp at he
  | append_singleton x l ih =>
    have hlt := lt_length_of_mem_windowEnds he
    rw [List.length_append, List.length_singleton] at hlt ⊢
    by_cases hl : l = .zero
    · subst hl
      rw [trailingZeros_concat_zero]
      by_cases hfull : (trailingZeros x + 1) % window = 0
      · rwa [hfull]
      · rw [windowEnds_concat_short hfull] at he
        have := ih he
        rw [add_one_mod_of_ne_zero hfull]
        omega
    · rwa [trailingZeros_concat_mark x hl, Nat.zero_mod]

/-- The windows are apart. -/
theorem pairwise_windowEnds {window : Nat} (hw : 0 < window) (x : List Level) :
    (windowEnds window x).Pairwise fun a b => a + window ≤ b := by
  induction x using List.reverseRecOn with
  | nil => exact List.Pairwise.nil
  | append_singleton x l ih =>
    by_cases hl : l = .zero
    · subst hl
      by_cases hfull : (trailingZeros x + 1) % window = 0
      · have hopen := mod_add_one_of_eq_zero hw hfull
        rw [windowEnds_concat_full hfull, List.pairwise_append]
        refine ⟨ih, List.pairwise_singleton _ _, fun a ha b hb => ?_⟩
        rw [List.mem_singleton.1 hb]
        have := add_mod_lt_of_mem_windowEnds ha
        omega
      · rwa [windowEnds_concat_short hfull]
    · rwa [windowEnds_concat_mark window x hl]

/-- A zero run as long as the window holds the end of one. -/
theorem IsZeroRun.exists_windowEnd {window start len : Nat} {x : List Level} (h : IsZeroRun x start len)
    (hw : 0 < window) (hlen : window ≤ len) : ∃ e ∈ windowEnds window x, start ≤ e ∧ e < start + window := by
  have hmod := Nat.mod_lt (trailingZeros (x.take start)) hw
  obtain ⟨k, hk⟩ : ∃ k, trailingZeros (x.take start) % window + (k + 1) = window :=
    ⟨window - (trailingZeros (x.take start) % window + 1), by omega⟩
  refine ⟨start + k, mem_windowEnds.2 ⟨h.2 k (by omega), ?_⟩, by omega, by omega⟩
  rw [Nat.add_assoc, h.trailingZeros_take (by omega), ← Nat.mod_add_mod, hk, Nat.mod_self]

end Sys2Proof.Machine
end

section
/-!
A scrambler pass element by element (42_scramblers.md R154, R158, R164): what a step does at the right end of the signal
read so far, and what the pass has written by then, in terms of the windows of its input.
-/

namespace Sys2Proof.Machine

open Sys2Proof

/-! ## The steps, case by case -/

section Steps
variable {p : ScramblePass} {i : Nat}

/-- What B8ZS writes when position `i` completes a window (R154). -/
def b8zsWrite (v : Level) (i : Nat) (y : List Level) : List Level :=
  (((y.set (i - 3) .zero).set (i - 2) v).set (i - 1) .zero).set i v.negate

/-- What HDB3 writes when position `i` completes a window, after an even number of marks or an odd one (R158). -/
def hdb3Write (even : Prop) [Decidable even] (v : Level) (i : Nat) (y : List Level) : List Level :=
  if even then (y.set (i - 3) v).set i v else y.set i v

theorem b8zsStep_of_mark (h : p.sig[i]? ≠ some .zero) : b8zsStep p i = { p with zc := 0 } := by
  simp [b8zsStep, h]

theorem b8zsStep_of_short (h : p.sig[i]? = some .zero) (hzc : p.zc + 1 ≠ 8) :
    b8zsStep p i = { p with zc := p.zc + 1 } := by
  simp [b8zsStep, h, hzc]

theorem b8zsStep_of_full (h : p.sig[i]? = some .zero) (hzc : p.zc + 1 = 8) :
    b8zsStep p i = { p with sig := b8zsWrite p.subpol i p.sig, zc := 0, subpol := p.subpol.negate } := by
  simp [b8zsStep, h, hzc, b8zsWrite]

theorem hdb3Step_of_mark (h : p.sig[i]? ≠ some .zero) : hdb3Step p i = { p with oc := p.oc + 1, zc := 0 } := by
  simp [hdb3Step, h]

theorem hdb3Step_of_short (h : p.sig[i]? = some .zero) (hzc : p.zc + 1 ≠ 4) :
    hdb3Step p i = { p with zc := p.zc + 1 } := by
  simp [hdb3Step, h, hzc]

theorem hdb3Step_of_full (h : p.sig[i]? = some .zero) (hzc : p.zc + 1 = 4) :
    hdb3Step p i =
      { sig := hdb3Write (p.oc % 2 = 0) p.subpol i p.sig, zc := 0, oc := 0, subpol := p.subpol.negate } := by
  simp [hdb3Step, h, hzc, hdb3Write]

end Steps

theorem b8zsWrite_append {y : List Level} {i : Nat} (hi : i < y.length) (v : Level) (ls : List Level) :
    b8zsWrite v i (y ++ ls) = b8zsWrite v i y ++ ls := by
  rw [b8zsWrite, List.set_append_left _ _ (by omega), List.set_append_left _ _ (by simp; omega),
    List.set_append_left _ _ (by simp; omega), List.set_append_left _ _ (by simpa), b8zsWrite]

theorem hdb3Write_append {y : List Level} {i : Nat} (hi : i < y.length) (even : Prop) [Decidable even] (v : Level)
    (ls : List Level) : hdb3Write even v i (y ++ ls) = hdb3Write even v i y ++ ls := by
  unfold hdb3Write
  split
  · rw [List.set_append_left _ _ (by omega), List.set_append_left _ _ (by simpa)]
  · rw [List.set_append_left _ _ hi]

@[simp] theorem b8zsWrite_length (v : Level) (i : Nat) (y : List Level) : (b8zsWrite v i y).length = y.length := by
  simp [b8zsWrite]

@[simp] theorem hdb3Write_length (even : Prop) [Decidable even] (v : Level) (i : Nat) (y : List Level) :
    (hdb3Write even v i y).length = y.length := by
  unfold hdb3Write
  split <;> simp

/-! ## A pass over one more element -/

/-- The pass with more of the signal at its right end. -/
def ScramblePass.extend (p : ScramblePass) (ls : List Level) : ScramblePass := { p with sig := p.sig ++ ls }

theorem ScramblePass.getElem?_extend {p : ScramblePass} {i : Nat} (hi : i < p.sig.length) (ls : List Level) :
    (p.extend ls).sig[i]? = p.sig[i]? := List.getElem?_append_left hi

/-- A step at `i` reads and writes nothing beyond `i`, and keeps the signal's length. -/
structure IsLocalStep (step : ScramblePass → Nat → ScramblePass) : Prop where
  length : ∀ p i, (step p i).sig.length = p.sig.length
  extend : ∀ {p i} ls, i < p.sig.length → step (p.extend ls) i = (step p i).extend ls

theorem IsLocalStep.foldl_extend {step : ScramblePass → Nat → ScramblePass} (h : IsLocalStep step) (is : List Nat)
    (p : ScramblePass) (ls : List Level) (his : ∀ i ∈ is, i < p.sig.length) :
    is.foldl step (p.extend ls) = (is.foldl step p).extend ls := by
  induction is generalizing p with
  | nil => rfl
  | cons i is ih =>
    rw [List.foldl_cons, h.extend ls (his i List.mem_cons_self)]
    exact ih (step p i) fun j hj => by rw [h.length]; exact his j (List.mem_cons_of_mem i hj)

/-- The pass over one more element is one more step. -/
theorem IsLocalStep.scrambleRun_concat {step : ScramblePass → Nat → ScramblePass} (h : IsLocalStep step)
    (x : List Level) (l : Level) (oc : Nat) :
    scrambleRun step (x ++ [l]) oc = step ((scrambleRun step x oc).extend [l]) x.length := by
  rw [scrambleRun, List.length_append, List.length_singleton, List.range_succ, List.foldl_concat]
  exact congrArg (step · x.length) (h.foldl_extend _ ⟨x, 0, oc, .pos⟩ [l] fun _ => List.mem_range.1)

theorem isLocalStep_b8zsStep : IsLocalStep b8zsStep := by
  refine ⟨b8zsStep_length, fun {p i} ls hi => ?_⟩
  have hread := ScramblePass.getElem?_extend hi ls
  by_cases hzero : p.sig[i]? = some .zero
  · by_cases hzc : p.zc + 1 = 8
    · rw [b8zsStep_of_full hzero hzc, b8zsStep_of_full (hread.trans hzero) hzc, ScramblePass.extend,
        b8zsWrite_append hi]
      rfl
    · rw [b8zsStep_of_short hzero hzc, b8zsStep_of_short (hread.trans hzero) hzc]
      rfl
  · rw [b8zsStep_of_mark hzero, b8zsStep_of_mark (by rwa [hread])]
    rfl

theorem isLocalStep_hdb3Step : IsLocalStep hdb3Step := by
  refine ⟨hdb3Step_length, fun {p i} ls hi => ?_⟩
  have hread := ScramblePass.getElem?_extend hi ls
  by_cases hzero : p.sig[i]? = some .zero
  · by_cases hzc : p.zc + 1 = 4
    · rw [hdb3Step_of_full hzero hzc, hdb3Step_of_full (hread.trans hzero) hzc, ScramblePass.extend,
        hdb3Write_append hi]
      rfl
    · rw [hdb3Step_of_short hzero hzc, hdb3Step_of_short (hread.trans hzero) hzc]
      rfl
  · rw [hdb3Step_of_mark hzero, hdb3Step_of_mark (by rwa [hread])]
    rfl

/-! ## What a pass has written -/

/-- The level that a substitution of a pass over `x` writes: its number `k` from 0, the end `e` of its window, and the
place `j`, counted back from that end. -/
abbrev SubstitutionCode := (x : List Level) → (k e j : Nat) → Level

/-- `(0,s,0,-s)` in the last four places (R154). -/
def b8zsCode : SubstitutionCode := fun _ k _ j =>
  if j = 0 then (substitutionPolarity k).negate else if j = 2 then substitutionPolarity k else .zero

/-- `s` in the last place, and in the first one too when the marks since the window before are even in number (R158). -/
def hdb3Code : SubstitutionCode := fun x k e j =>
  if j = 0 ∨ (j = 3 ∧ marksIn x (countStart (windowEnds 4 x) k) e % 2 = 0) then substitutionPolarity k else .zero

/-- The code of a window is fixed by the signal up to its end. -/
def SubstitutionCode.IsCausal (window : Nat) (code : SubstitutionCode) : Prop :=
  ∀ x l k e j, (windowEnds window x)[k]? = some e → code (x ++ [l]) k e j = code x k e j

/-- Signal `y` is signal `x` with its windows rewritten by the code. -/
structure IsSubstituted (window : Nat) (code : SubstitutionCode) (x y : List Level) : Prop where
  length : y.length = x.length
  written : ∀ k e j, (windowEnds window x)[k]? = some e → j < window → y[e - j]? = some (code x k e j)
  kept : ∀ i, (∀ e ∈ windowEnds window x, e < i ∨ i + window ≤ e) → y[i]? = x[i]?

variable {window : Nat} {code : SubstitutionCode} {x y : List Level}

theorem isSubstituted_nil (window : Nat) (code : SubstitutionCode) : IsSubstituted window code [] [] :=
  ⟨rfl, fun _ _ _ h => by simp at h, fun _ _ => rfl⟩

/-- Zeros at the end that are in no full window are still there. -/
theorem IsSubstituted.getElem?_open (h : IsSubstituted window code x y) {j : Nat} (hpos : 1 ≤ j)
    (hj : j ≤ trailingZeros x % window) : y[x.length - j]? = some .zero := by
  rw [h.kept, getElem?_of_le_trailingZeros hpos (hj.trans (Nat.mod_le _ _))]
  intro e he
  have := add_mod_lt_of_mem_windowEnds he
  omega

/-- An element that completes no window is kept. -/
theorem IsSubstituted.concat_of_windowEnds_eq (h : IsSubstituted window code x y) (hcode : code.IsCausal window)
    {l : Level} (hends : windowEnds window (x ++ [l]) = windowEnds window x) :
    IsSubstituted window code (x ++ [l]) (y ++ [l]) := by
  refine ⟨by simp [h.length], fun k e j hk hj => ?_, fun i hi => ?_⟩
  · rw [hends] at hk
    have he := lt_length_of_mem_windowEnds (List.mem_of_getElem? hk)
    rw [hcode x l k e j hk, List.getElem?_append_left (by rw [h.length]; omega), h.written k e j hk hj]
  · rw [hends] at hi
    rw [List.getElem?_append, List.getElem?_append, h.length, h.kept i hi]

/-- A zero that completes a window has the window rewritten, and nothing else. -/
theorem IsSubstituted.concat_of_full (h : IsSubstituted window code x y) (hcode : code.IsCausal window)
    (hfull : (trailingZeros x + 1) % window = 0) {z : List Level} (hlen : z.length = x.length + 1)
    (hwritten : ∀ j, j < window →
      z[x.length - j]? = some (code (x ++ [.zero]) (windowEnds window x).length x.length j))
    (hkept : ∀ i, i + window ≤ x.length → z[i]? = y[i]?) : IsSubstituted window code (x ++ [.zero]) z := by
  refine ⟨by simpa using hlen, fun k e j hk hj => ?_, fun i hi => ?_⟩
  · rw [windowEnds_concat_full hfull, List.getElem?_append] at hk
    split at hk
    next hold =>
      have := add_mod_lt_of_mem_windowEnds (List.mem_of_getElem? hk)
      have hopen := mod_add_one_of_eq_zero (by omega) hfull
      have hwindow := (zeros_of_mem_windowEnds (List.mem_of_getElem? hk)).1
      rw [hcode x _ k e j hk, hkept _ (by omega), h.written k e j hk hj]
    next hnew =>
      obtain ⟨hzero, rfl⟩ : k - (windowEnds window x).length = 0 ∧ x.length = e := by
        simpa using List.getElem?_eq_some_iff.1 hk
      obtain rfl : k = (windowEnds window x).length := by omega
      exact hwritten j hj
  · rw [windowEnds_concat_full hfull] at hi
    rcases hi x.length (by simp) with hbeyond | hbefore
    · rw [List.getElem?_eq_none (by omega), List.getElem?_eq_none (by simp; omega)]
    · rcases Nat.eq_zero_or_pos window with rfl | hw
      · simp at hfull
      · rw [hkept i hbefore, h.kept i fun e he => hi e (List.mem_append_left _ he),
          List.getElem?_append_left (by omega)]

/-- Each element either lies in a window, which holds zeros, or is kept. -/
theorem IsSubstituted.in_window_or_kept (h : IsSubstituted window code x y) (i : Nat) :
    (∃ k e j, (windowEnds window x)[k]? = some e ∧ j < window ∧ i + j = e ∧ x[i]? = some .zero ∧
      y[i]? = some (code x k e j)) ∨ y[i]? = x[i]? := by
  by_cases hin : ∃ e ∈ windowEnds window x, i ≤ e ∧ e < i + window
  · obtain ⟨e, he, hle, hlt⟩ := hin
    obtain ⟨k, hk⟩ := List.mem_iff_getElem?.1 he
    have hzero := (zeros_of_mem_windowEnds he).2 (e - i) (by omega)
    have hcode := h.written k e (e - i) hk (by omega)
    rw [Nat.sub_sub_self hle] at hzero hcode
    exact .inl ⟨k, e, e - i, hk, by omega, by omega, hzero, hcode⟩
  · refine .inr (h.kept i fun e he => ?_)
    by_contra hcon
    exact hin ⟨e, he, by omega, by omega⟩

/-- Marks are kept (R156 (b), R159 (b)). -/
theorem IsSubstituted.getElem?_mark (h : IsSubstituted window code x y) {i : Nat} {l : Level} (hi : x[i]? = some l)
    (hl : l ≠ .zero) : y[i]? = some l := by
  rcases h.in_window_or_kept i with ⟨k, e, j, -, -, -, hzero, -⟩ | hkept
  · exact absurd (Option.some.inj (hi.symm.trans hzero)) hl
  · rw [hkept, hi]

/-- A zero that is left was there before. -/
theorem IsSubstituted.zero_of_zero (h : IsSubstituted window code x y) {i : Nat} (hi : y[i]? = some .zero) :
    x[i]? = some .zero := by
  rcases h.in_window_or_kept i with ⟨k, e, j, -, -, -, hzero, -⟩ | hkept
  · exact hzero
  · rw [← hkept, hi]

/-- R156 (a), R159 (a): each window's end has become a mark, so no zero run holds a window's end. -/
theorem IsSubstituted.lt_of_isZeroRun (h : IsSubstituted window code x y) (hw : 0 < window)
    (hcode : ∀ k e, code x k e 0 ≠ .zero) {start len : Nat} (hrun : IsZeroRun y start len) : len < window := by
  by_contra hlen
  obtain ⟨hfit, hzero⟩ := hrun
  have hbefore : IsZeroRun x start len := ⟨by rw [← h.length]; exact hfit, fun k hk => h.zero_of_zero (hzero k hk)⟩
  obtain ⟨e, he, hle, hlt⟩ := hbefore.exists_windowEnd hw (by omega)
  obtain ⟨k, hk⟩ := List.mem_iff_getElem?.1 he
  have hend := hzero (e - start) (by omega)
  rw [Nat.add_sub_cancel' hle] at hend
  exact hcode k e (Option.some.inj ((h.written k e 0 hk hw).symm.trans hend))

/-! ## The registers along a pass -/

theorem substitutionPolarity_succ (k : Nat) : substitutionPolarity (k + 1) = (substitutionPolarity k).negate :=
  toggled_succ .pos k

theorem substitutionPolarity_ne_zero (k : Nat) : substitutionPolarity k ≠ .zero := by
  unfold substitutionPolarity
  split <;> exact Level.noConfusion

/-- Where a pass over `x` stands at its end: the zeros counted in the open window, the polarity to come, the signal. -/
structure IsPassOver (window : Nat) (code : SubstitutionCode) (x : List Level) (p : ScramblePass) : Prop where
  zc : p.zc = trailingZeros x % window
  subpol : p.subpol = substitutionPolarity (windowEnds window x).length
  signal : IsSubstituted window code x p.sig

section Pass
variable {p q : ScramblePass} (h : IsPassOver window code x p)
include h

theorem IsPassOver.getElem?_extend {i : Nat} (hi : i < x.length) (ls : List Level) :
    (p.extend ls).sig[i]? = p.sig[i]? := ScramblePass.getElem?_extend (by rwa [h.signal.length]) ls

theorem IsPassOver.getElem?_extend_last (l : Level) : (p.extend [l]).sig[x.length]? = some l := by
  rw [← h.signal.length]
  exact List.getElem?_concat_length

theorem IsPassOver.length_extend (l : Level) : (p.extend [l]).sig.length = x.length + 1 := by
  rw [ScramblePass.extend, List.length_append, List.length_singleton, h.signal.length]

/-- The counter tells whether the next zero completes a window. -/
theorem IsPassOver.zc_add_one_eq_iff (hw : 0 < window) :
    p.zc + 1 = window ↔ (trailingZeros x + 1) % window = 0 := by
  rw [h.zc]
  obtain ⟨w, rfl⟩ := Nat.exists_eq_add_one.2 hw
  rw [Nat.succ_mod_succ_eq_zero_iff, Nat.add_right_cancel_iff]

variable (hcode : code.IsCausal window)
include hcode

theorem IsPassOver.concat_of_windowEnds_eq {l : Level} (hends : windowEnds window (x ++ [l]) = windowEnds window x)
    (hsig : q.sig = p.sig ++ [l]) (hzc : q.zc = trailingZeros (x ++ [l]) % window) (hsubpol : q.subpol = p.subpol) :
    IsPassOver window code (x ++ [l]) q := by
  refine ⟨hzc, ?_, ?_⟩
  · rw [hsubpol, h.subpol, hends]
  · rw [hsig]
    exact h.signal.concat_of_windowEnds_eq hcode hends

theorem IsPassOver.concat_mark {l : Level} (hl : l ≠ .zero) (hsig : q.sig = p.sig ++ [l]) (hzc : q.zc = 0)
    (hsubpol : q.subpol = p.subpol) : IsPassOver window code (x ++ [l]) q := by
  refine h.concat_of_windowEnds_eq hcode (windowEnds_concat_mark window x hl) hsig ?_ hsubpol
  rw [hzc, trailingZeros_concat_mark x hl, Nat.zero_mod]

theorem IsPassOver.concat_short (hshort : (trailingZeros x + 1) % window ≠ 0) (hsig : q.sig = p.sig ++ [.zero])
    (hzc : q.zc = p.zc + 1) (hsubpol : q.subpol = p.subpol) : IsPassOver window code (x ++ [.zero]) q := by
  refine h.concat_of_windowEnds_eq hcode (windowEnds_concat_short hshort) hsig ?_ hsubpol
  rw [hzc, h.zc, trailingZeros_concat_zero, add_one_mod_of_ne_zero hshort]

theorem IsPassOver.concat_full (hfull : (trailingZeros x + 1) % window = 0) (hlen : q.sig.length = x.length + 1)
    (hwritten : ∀ j, j < window →
      q.sig[x.length - j]? = some (code (x ++ [.zero]) (windowEnds window x).length x.length j))
    (hkept : ∀ i, i + window ≤ x.length → q.sig[i]? = p.sig[i]?) (hzc : q.zc = 0)
    (hsubpol : q.subpol = p.subpol.negate) : IsPassOver window code (x ++ [.zero]) q := by
  refine ⟨?_, ?_, h.signal.concat_of_full hcode hfull hlen hwritten hkept⟩
  · rw [hzc, trailingZeros_concat_zero, hfull]
  · rw [hsubpol, h.subpol, windowEnds_concat_full hfull, List.length_append, List.length_singleton,
      substitutionPolarity_succ]

end Pass

/-! ## B8ZS -/

theorem isCausal_b8zsCode : b8zsCode.IsCausal 8 := fun _ _ _ _ _ _ => rfl

/-- The last four elements of a window of B8ZS, counted back from its end. -/
theorem getElem?_b8zsWrite_of_lt {y : List Level} {n j : Nat} (hlen : y.length = n + 1) (hn : 3 ≤ n) (hj : j < 4)
    (v : Level) :
    (b8zsWrite v n y)[n - j]? = some (if j = 0 then v.negate else if j = 2 then v else .zero) := by
  simp only [b8zsWrite, List.getElem?_set, List.length_set, hlen]
  grind

theorem getElem?_b8zsWrite_before {n i : Nat} (hi : i + 3 < n) (v : Level) (y : List Level) :
    (b8zsWrite v n y)[i]? = y[i]? := by
  simp only [b8zsWrite, List.getElem?_set]
  rw [if_neg (by omega), if_neg (by omega), if_neg (by omega), if_neg (by omega)]

theorem IsPassOver.b8zsStep {p : ScramblePass} (h : IsPassOver 8 b8zsCode x p) (l : Level) :
    IsPassOver 8 b8zsCode (x ++ [l]) (b8zsStep (p.extend [l]) x.length) := by
  have hlast := h.getElem?_extend_last l
  by_cases hl : l = .zero
  · subst hl
    by_cases hfull : (trailingZeros x + 1) % 8 = 0
    · have hopen := mod_add_one_of_eq_zero (by decide) hfull
      have hsize := trailingZeros_le_length x
      have hlen := h.length_extend .zero
      rw [b8zsStep_of_full hlast ((h.zc_add_one_eq_iff (by decide)).2 hfull)]
      refine h.concat_full isCausal_b8zsCode hfull (by simp [hlen]) (fun j hj => ?_) (fun i hi => ?_) rfl rfl
      · rcases Nat.lt_or_ge j 4 with hlast4 | hfirst4
        · rw [getElem?_b8zsWrite_of_lt hlen (by omega) hlast4, b8zsCode, ← h.subpol]
          rfl
        · rw [getElem?_b8zsWrite_before (by omega), h.getElem?_extend (by omega),
            h.signal.getElem?_open (by omega) (by omega), b8zsCode, if_neg (by omega), if_neg (by omega)]
      · rw [getElem?_b8zsWrite_before (by omega), h.getElem?_extend (by omega)]
    · rw [b8zsStep_of_short hlast (mt (h.zc_add_one_eq_iff (by decide)).1 hfull)]
      exact h.concat_short isCausal_b8zsCode hfull rfl rfl rfl
  · rw [b8zsStep_of_mark (by simpa [hlast] using hl)]
    exact h.concat_mark isCausal_b8zsCode hl rfl rfl rfl

theorem isPassOver_b8zsRun (x : List Level) (oc : Nat) : IsPassOver 8 b8zsCode x (b8zsRun x oc) := by
  induction x using List.reverseRecOn with
  | nil => exact ⟨rfl, rfl, isSubstituted_nil 8 b8zsCode⟩
  | append_singleton x l ih =>
    rw [b8zsRun, isLocalStep_b8zsStep.scrambleRun_concat]
    exact ih.b8zsStep l

/-! ## HDB3 -/

theorem marksIn_eq_countP (x : List Level) (lo hi : Nat) :
    marksIn x lo hi = ((x.take hi).drop lo).countP fun l => l != .zero := by
  rw [marksIn, List.drop_take]

theorem marksIn_concat_of_le {x : List Level} {hi : Nat} (hle : hi ≤ x.length) (l : Level) (lo : Nat) :
    marksIn (x ++ [l]) lo hi = marksIn x lo hi := by
  rw [marksIn_eq_countP, marksIn_eq_countP, List.take_append_of_le_length hle]

theorem marksIn_concat_self {x : List Level} {lo : Nat} (hle : lo ≤ x.length) (l : Level) :
    marksIn (x ++ [l]) lo (x.length + 1) = marksIn x lo x.length + if l = .zero then 0 else 1 := by
  rw [marksIn_eq_countP, marksIn_eq_countP, List.take_length, List.take_of_length_le (by simp),
    List.drop_append_of_le_length hle, List.countP_append, List.countP_singleton]
  cases l <;> rfl

theorem marksIn_self (x : List Level) (i : Nat) : marksIn x i i = 0 := by
  rw [marksIn, Nat.sub_self, List.take_zero, List.countP_nil]

theorem countStart_windowEnds_le {window k : Nat} {x : List Level} (hk : k ≤ (windowEnds window x).length) :
    countStart (windowEnds window x) k ≤ x.length := by
  cases k with
  | zero => exact Nat.zero_le _
  | succ k =>
    rw [countStart, List.getElem?_eq_getElem hk]
    exact lt_length_of_mem_windowEnds (List.getElem_mem hk)

/-- A window's count starts where it did before more windows followed. -/
theorem countStart_append {ends : List Nat} {k : Nat} (hk : k ≤ ends.length) (es : List Nat) :
    countStart (ends ++ es) k = countStart ends k := by
  cases k with
  | zero => rfl
  | succ k => rw [countStart, countStart, List.getElem?_append_left hk]

/-- The marks since the last full window of four zeros: what `OC` counts (R29, R158). -/
def openMarks (x : List Level) : Nat :=
  marksIn x (countStart (windowEnds 4 x) (windowEnds 4 x).length) x.length

theorem openMarks_concat_of_windowEnds_eq {x : List Level} {l : Level}
    (hends : windowEnds 4 (x ++ [l]) = windowEnds 4 x) :
    openMarks (x ++ [l]) = openMarks x + if l = .zero then 0 else 1 := by
  rw [openMarks, hends, List.length_append, List.length_singleton,
    marksIn_concat_self (countStart_windowEnds_le le_rfl), openMarks]

/-- A window that is full starts the count again. -/
theorem openMarks_concat_full {x : List Level} (hfull : (trailingZeros x + 1) % 4 = 0) :
    openMarks (x ++ [.zero]) = 0 := by
  have hstart : countStart (windowEnds 4 x ++ [x.length]) ((windowEnds 4 x).length + 1) = x.length + 1 := by
    rw [countStart, List.getElem?_concat_length, Option.getD_some]
  rw [openMarks, windowEnds_concat_full hfull, List.length_append, List.length_append, List.length_singleton,
    List.length_singleton, hstart, marksIn_self]

/-- The count at a window's end is fixed by the signal up to there. -/
theorem marksIn_countStart_concat {x : List Level} {k hi : Nat} (hk : k ≤ (windowEnds 4 x).length)
    (hhi : hi ≤ x.length) (l : Level) :
    marksIn (x ++ [l]) (countStart (windowEnds 4 (x ++ [l])) k) hi =
      marksIn x (countStart (windowEnds 4 x) k) hi := by
  rw [marksIn_concat_of_le hhi, windowEnds_concat, countStart_append hk]

theorem isCausal_hdb3Code : hdb3Code.IsCausal 4 := by
  intro x l k e j hk
  have hlt := lt_length_of_mem_windowEnds (List.mem_of_getElem? hk)
  obtain ⟨hle, -⟩ := List.getElem?_eq_some_iff.1 hk
  rw [hdb3Code, hdb3Code, marksIn_countStart_concat hle.le hlt.le]

/-- The code of the window that one more zero completes: the parity is that of the marks counted. -/
theorem hdb3Code_concat (x : List Level) (j : Nat) :
    hdb3Code (x ++ [.zero]) (windowEnds 4 x).length x.length j =
      if j = 0 ∨ (j = 3 ∧ openMarks x % 2 = 0) then substitutionPolarity (windowEnds 4 x).length else .zero := by
  rw [hdb3Code, marksIn_countStart_concat le_rfl le_rfl, openMarks]

/-- The window of HDB3, counted back from its end: the last element, the first one after an even number of marks. -/
theorem getElem?_hdb3Write_of_lt {y : List Level} {n j : Nat} (hlen : y.length = n + 1) (hn : 3 ≤ n) (hj : j < 4)
    (even : Prop) [Decidable even] (v : Level) :
    (hdb3Write even v n y)[n - j]? = if j = 0 ∨ (j = 3 ∧ even) then some v else y[n - j]? := by
  unfold hdb3Write
  split <;> simp only [List.getElem?_set, List.length_set, hlen] <;> grind

theorem getElem?_hdb3Write_before {n i : Nat} (hi : i + 3 < n) (even : Prop) [Decidable even] (v : Level)
    (y : List Level) : (hdb3Write even v n y)[i]? = y[i]? := by
  unfold hdb3Write
  split <;> simp only [List.getElem?_set] <;> grind

/-- Where a pass of HDB3 stands: `OC` too counts as it should. -/
def IsHdb3PassOver (x : List Level) (p : ScramblePass) : Prop := IsPassOver 4 hdb3Code x p ∧ p.oc = openMarks x

theorem IsHdb3PassOver.hdb3Step {p : ScramblePass} (h : IsHdb3PassOver x p) (l : Level) :
    IsHdb3PassOver (x ++ [l]) (hdb3Step (p.extend [l]) x.length) := by
  obtain ⟨h, hoc⟩ := h
  have hlast := h.getElem?_extend_last l
  by_cases hl : l = .zero
  · subst hl
    by_cases hfull : (trailingZeros x + 1) % 4 = 0
    · have hopen := mod_add_one_of_eq_zero (by decide) hfull
      have hsize := trailingZeros_le_length x
      have hlen := h.length_extend .zero
      rw [hdb3Step_of_full hlast ((h.zc_add_one_eq_iff (by decide)).2 hfull)]
      refine ⟨h.concat_full isCausal_hdb3Code hfull (by simp [hlen]) (fun j hj => ?_) (fun i hi => ?_) rfl rfl,
        (openMarks_concat_full hfull).symm⟩
      · rw [getElem?_hdb3Write_of_lt hlen (by omega) hj, hdb3Code_concat, ← hoc, ← h.subpol, apply_ite some]
        by_cases hmark : j = 0 ∨ (j = 3 ∧ p.oc % 2 = 0)
        · exact (if_pos hmark).trans (if_pos hmark).symm
        · have hold : (p.extend [.zero]).sig[x.length - j]? = some .zero := by
            rw [h.getElem?_extend (by omega), h.signal.getElem?_open (by omega) (by omega)]
          exact ((if_neg hmark).trans hold).trans (if_neg hmark).symm
      · rw [getElem?_hdb3Write_before (by omega), h.getElem?_extend (by omega)]
    · rw [hdb3Step_of_short hlast (mt (h.zc_add_one_eq_iff (by decide)).1 hfull)]
      refine ⟨h.concat_short isCausal_hdb3Code hfull rfl rfl rfl, ?_⟩
      rw [openMarks_concat_of_windowEnds_eq (windowEnds_concat_short hfull), if_pos rfl, ← hoc]
      rfl
  · rw [hdb3Step_of_mark (by simpa [hlast] using hl)]
    refine ⟨h.concat_mark isCausal_hdb3Code hl rfl rfl rfl, ?_⟩
    rw [openMarks_concat_of_windowEnds_eq (windowEnds_concat_mark 4 x hl), if_neg hl, ← hoc]
    rfl

theorem isHdb3PassOver_hdb3Run (x : List Level) : IsHdb3PassOver x (hdb3Run x) := by
  induction x using List.reverseRecOn with
  | nil => exact ⟨⟨rfl, rfl, isSubstituted_nil 4 hdb3Code⟩, rfl⟩
  | append_singleton x l ih =>
    rw [hdb3Run, isLocalStep_hdb3Step.scrambleRun_concat]
    exact ih.hdb3Step l

/-! ## The passes against the definitions of their results -/

/-- An element is kept where no window writes anything but the zero that was there. -/
theorem IsSubstituted.getElem?_kept (h : IsSubstituted window code x y) {i : Nat}
    (hi : ∀ k e j, (windowEnds window x)[k]? = some e → j < window → i + j = e → code x k e j = .zero) :
    y[i]? = x[i]? := by
  rcases h.in_window_or_kept i with ⟨k, e, j, hk, hj, hplace, hzero, hcode⟩ | hkept
  · rw [hcode, hzero, hi k e j hk hj hplace]
  · exact hkept

theorem isB8zsOf_of_isSubstituted (h : IsSubstituted 8 b8zsCode x y) : IsB8zsOf x y (windowEnds 8 x) where
  zeros e he := by
    obtain ⟨hsize, hzero⟩ := zeros_of_mem_windowEnds he
    exact ⟨by omega, hzero⟩
  apart := pairwise_windowEnds (by decide) x
  place _ he := (mem_windowEnds.1 he).2
  written k e hk := ⟨h.written k e 2 hk (by decide), h.written k e 0 hk (by decide)⟩
  kept i hi := by
    refine h.getElem?_kept fun k e j hk _ hplace => ?_
    obtain ⟨hend, hsecond⟩ := hi e (List.mem_of_getElem? hk)
    rw [b8zsCode, if_neg (by omega), if_neg (by omega)]
  count := length_windowEnds 8 x

theorem isHdb3Of_of_isSubstituted (h : IsSubstituted 4 hdb3Code x y) : IsHdb3Of x y (windowEnds 4 x) where
  zeros e he := by
    obtain ⟨hsize, hzero⟩ := zeros_of_mem_windowEnds he
    exact ⟨by omega, hzero⟩
  apart := pairwise_windowEnds (by decide) x
  place _ he := (mem_windowEnds.1 he).2
  written k e hk := by
    refine ⟨h.written k e 0 hk (by decide), ?_⟩
    rw [h.written k e 3 hk (by decide), hdb3Code]
    simp
  kept i hi := by
    refine h.getElem?_kept fun k e j hk _ hplace => ?_
    obtain ⟨hend, hfirst⟩ := hi e (List.mem_of_getElem? hk)
    rw [hdb3Code, if_neg (by omega)]
  count := length_windowEnds 4 x

theorem b8zsCode_end_ne_zero (x : List Level) (k e : Nat) : b8zsCode x k e 0 ≠ .zero := by
  rw [b8zsCode, if_pos rfl, Ne, negate_eq_zero_iff]
  exact substitutionPolarity_ne_zero k

theorem hdb3Code_end_ne_zero (x : List Level) (k e : Nat) : hdb3Code x k e 0 ≠ .zero := by
  rw [hdb3Code, if_pos (.inl rfl)]
  exact substitutionPolarity_ne_zero k

end Sys2Proof.Machine
end

section
/-!
The scrambler commands (42_scramblers.md R151 to R164): their precondition, what they leave of an unscrambled AMI
signal, and that a second pass is refused.
-/

namespace Sys2Proof.Machine

open Sys2Proof

variable {s t : State} {x y : List Level}

/-! ## The operation -/

/-- A scrambler: ignored while faulted, the fault of its precondition, or its operation. -/
theorem unlessFaulted_scrambleSignal_eq_next_iff (k : ScrambleKind) {run : List Level → ScramblePass}
    (hrun : ∀ x, (run x).sig.length = x.length) (s t : State) :
    unlessFaulted s (scrambleSignal k run s) = .next t ↔
      (faulted s ∧ t = s) ∨
      (unfaulted s ∧ scramblable s.flags = false ∧ t = raiseFault .preconditionViolated s) ∨
      (unfaulted s ∧ scramblable s.flags = true ∧ ∃ x, sigSeq s = some x ∧ t = signalScrambled k (run x) s) := by
  rw [unlessFaulted_eq_next_iff, scrambleSignal_eq_next_iff k s t hrun, and_or_left]
  rfl

theorem exec_sb8zs_eq_next_iff (s t : State) :
    exec .sb8zs s = .next t ↔
      (faulted s ∧ t = s) ∨
      (unfaulted s ∧ scramblable s.flags = false ∧ t = raiseFault .preconditionViolated s) ∨
      (unfaulted s ∧ scramblable s.flags = true ∧
        ∃ x, sigSeq s = some x ∧ t = signalScrambled .b8zs (b8zsRun x s.oc) s) :=
  unlessFaulted_scrambleSignal_eq_next_iff .b8zs (run := (b8zsRun · s.oc)) (b8zsRun_length · s.oc) s t

theorem exec_shdb3_eq_next_iff (s t : State) :
    exec .shdb3 s = .next t ↔
      (faulted s ∧ t = s) ∨
      (unfaulted s ∧ scramblable s.flags = false ∧ t = raiseFault .preconditionViolated s) ∨
      (unfaulted s ∧ scramblable s.flags = true ∧
        ∃ x, sigSeq s = some x ∧ t = signalScrambled .hdb3 (hdb3Run x) s) :=
  unlessFaulted_scrambleSignal_eq_next_iff .hdb3 hdb3Run_length s t

/-- The two scrambler commands share one operation: a kind that is not `None`, and a pass that keeps the length. -/
theorem exists_scrambleSignal_of_mem {i : Instr} (hi : i ∈ [Instr.sb8zs, .shdb3]) (s : State) :
    ∃ k run, scrambleCode k ≠ 0 ∧ (∀ x, (run x).sig.length = x.length) ∧
      exec i s = unlessFaulted s (scrambleSignal k run s) := by
  simp only [List.mem_cons, List.not_mem_nil, or_false] at hi
  obtain rfl | rfl := hi
  · exact ⟨.b8zs, (b8zsRun · s.oc), by decide, (b8zsRun_length · s.oc), rfl⟩
  · exact ⟨.hdb3, hdb3Run, by decide, hdb3Run_length, rfl⟩

theorem scramblable_eq_false_iff (f : BitVec 16) : scramblable f = false ↔ flagsScheme f ≠ 4 ∨ flagsScr f ≠ 0 := by
  rw [← not_and_or, ← scramblable_iff, Bool.not_eq_true]

/-- R151: a scrambler whose precondition fails. -/
theorem raisesOnly_of_not_scramblable {i : Instr} (hi : i ∈ [Instr.sb8zs, .shdb3]) (hf : unfaulted s)
    (hbad : flagsScheme s.flags ≠ 4 ∨ flagsScr s.flags ≠ 0) : RaisesOnly (exec i s) s 3 := by
  obtain ⟨k, run, -, hrun, hexec⟩ := exists_scrambleSignal_of_mem hi s
  rw [hexec, (unlessFaulted_scrambleSignal_eq_next_iff k hrun s _).2
    (.inr (.inl ⟨hf, (scramblable_eq_false_iff _).2 hbad, rfl⟩))]
  exact raisesOnly_raiseFault hf .preconditionViolated

theorem exec_sb8zs_of_held (hf : unfaulted s) (hscheme : flagsScheme s.flags = 4) (hscr : flagsScr s.flags = 0)
    (held : sigSeq s = some x) : exec .sb8zs s = .next (signalScrambled .b8zs (b8zsRun x s.oc) s) :=
  (exec_sb8zs_eq_next_iff s _).2 (.inr (.inr ⟨hf, (scramblable_iff _).2 ⟨hscheme, hscr⟩, x, held, rfl⟩))

theorem exec_shdb3_of_held (hf : unfaulted s) (hscheme : flagsScheme s.flags = 4) (hscr : flagsScr s.flags = 0)
    (held : sigSeq s = some x) : exec .shdb3 s = .next (signalScrambled .hdb3 (hdb3Run x) s) :=
  (exec_shdb3_eq_next_iff s _).2 (.inr (.inr ⟨hf, (scramblable_iff _).2 ⟨hscheme, hscr⟩, x, held, rfl⟩))

/-- A scrambler that raised no fault has scrambled. -/
theorem eq_signalScrambled_of_unfaulted {k : ScrambleKind} {run : List Level → ScramblePass}
    (hrun : ∀ x, (run x).sig.length = x.length) (hf : unfaulted s) (ht : unfaulted t)
    (h : unlessFaulted s (scrambleSignal k run s) = .next t) :
    ∃ x, sigSeq s = some x ∧ t = signalScrambled k (run x) s := by
  obtain ⟨hfaulted, -⟩ | ⟨-, -, rfl⟩ | ⟨-, -, hdone⟩ :=
    (unlessFaulted_scrambleSignal_eq_next_iff k hrun s t).1 h
  · exact Bool.noConfusion (hf.symm.trans hfaulted)
  · exact Bool.noConfusion (ht.symm.trans (faulted_raiseFault .preconditionViolated s))
  · exact hdone

/-! ## What is left -/

/-- The signal after a scrambler is the pass's. -/
theorem sigSeq_signalScrambled (k : ScrambleKind) {p : ScramblePass} (held : sigSeq s = some x)
    (hlen : p.sig.length = x.length) : sigSeq (signalScrambled k p s) = some p.sig := by
  obtain ⟨hx, hfit⟩ := length_of_sigSeq held
  have hread := bufReadSeq_bufWriteFrom (hlen.trans_le (hx.trans_le hfit)) s.sig
  rwa [hlen, hx] at hread

/-- The flags after a scrambler of an AMI signal. -/
theorem flagsAre_flagsAfterScramble_ami (k : ScrambleKind) (hscheme : flagsScheme s.flags = 4) :
    FlagsAre (flagsAfterScramble k s.flags) 4 (scrambleCode k) (flagsDouble s.flags) (flagsPalValid s.flags) false
      (flagsReserved s.flags) := by
  rw [← hscheme]
  exact flagsAre_flagsAfterScramble k s.flags

/-- R162: elements beyond the signal are kept, and so are its marks. -/
theorem bufRead_signalScrambled {window : Nat} {code : SubstitutionCode} (k : ScrambleKind) {p : ScramblePass}
    (held : sigSeq s = some x) (h : IsSubstituted window code x p.sig) :
    (∀ i, s.nsig ≤ i → bufRead (signalScrambled k p s).sig i = bufRead s.sig i) ∧
    (∀ i l, x[i]? = some l → l ≠ .zero → bufRead (signalScrambled k p s).sig i = some l) := by
  obtain ⟨hx, -⟩ := length_of_sigSeq held
  refine ⟨fun i hi => ?_, fun i l hi hl => ?_⟩
  · exact bufRead_bufWriteFrom_zero_beyond s.sig (by rwa [h.length, hx])
  · exact bufRead_bufWriteFrom_zero_of_getElem? s.sig (h.getElem?_mark hi hl)

theorem IsPassOver.subpol_eq {window : Nat} {code : SubstitutionCode} {p : ScramblePass}
    (h : IsPassOver window code x p) : p.subpol = substitutionPolarity (fullWindows window x) := by
  rw [h.subpol, length_windowEnds]

/-! ## The statements -/

/-- Settles O14: the fault behind the gate; `FLAGS` is 7 after reset; SNONE answers the state either way. -/
theorem scramblerPreconditionFault : Obligations.ScramblerPreconditionFault := by
  refine ⟨fun s hf hbad => ⟨?_, ?_⟩, fun p => ?_, fun s => ?_⟩
  · exact raisesOnly_of_not_scramblable (by simp) hf hbad
  · exact raisesOnly_of_not_scramblable (by simp) hf hbad
  · have hf : unfaulted (State.resetWith p) := by rw [unfaulted, resetWith_status]; decide
    have hscheme : flagsScheme (State.resetWith p).flags = 7 := by rw [resetWith_flags]; decide
    have hbad : flagsScheme (State.resetWith p).flags ≠ 4 ∨ flagsScr (State.resetWith p).flags ≠ 0 :=
      .inl (by rw [hscheme]; decide)
    exact ⟨hscheme, raisesOnly_of_not_scramblable (by simp) hf hbad, raisesOnly_of_not_scramblable (by simp) hf hbad⟩
  · exact (unlessFaulted_eq_next_iff s s _).2 ((Bool.eq_false_or_eq_true _).imp (⟨·, rfl⟩) (⟨·, rfl⟩))

/-- Settles O33: the registers and the signal of the pass, and `OC` passed through. -/
theorem sb8zsCompletes : Obligations.Sb8zsCompletes := by
  intro s x hf hscheme hscr held
  have hpass := isPassOver_b8zsRun x s.oc
  obtain ⟨hbeyond, hmarks⟩ := bufRead_signalScrambled .b8zs held hpass.signal
  have hexec := exec_sb8zs_of_held hf hscheme hscr held
  rw [signalScrambled, b8zsRun_oc] at hexec
  exact ⟨_, _, _, _, hexec, flagsAre_flagsAfterScramble_ami .b8zs hscheme, hpass.zc, hpass.subpol_eq, hbeyond, hmarks⟩

/-- Settles O34, with the windows of the input. -/
theorem sb8zsSubstitutes : Obligations.Sb8zsSubstitutes := by
  intro s t x y hf hscheme hscr held hexec hy
  obtain rfl : signalScrambled .b8zs (b8zsRun x s.oc) s = t := by
    injection (exec_sb8zs_of_held hf hscheme hscr held).symm.trans hexec
  obtain rfl : (b8zsRun x s.oc).sig = y :=
    Option.some.inj ((sigSeq_signalScrambled .b8zs held (b8zsRun_length x s.oc)).symm.trans hy)
  exact ⟨_, isB8zsOf_of_isSubstituted (isPassOver_b8zsRun x s.oc).signal⟩

/-- Settles O35: the registers and the signal of the pass. -/
theorem shdb3Completes : Obligations.Shdb3Completes := by
  intro s x hf hscheme hscr held
  obtain ⟨hpass, -⟩ := isHdb3PassOver_hdb3Run x
  obtain ⟨hbeyond, hmarks⟩ := bufRead_signalScrambled .hdb3 held hpass.signal
  exact ⟨_, _, _, _, _, exec_shdb3_of_held hf hscheme hscr held, flagsAre_flagsAfterScramble_ami .hdb3 hscheme,
    hpass.zc, hpass.subpol_eq, hbeyond, hmarks⟩

/-- Settles O36, with the windows of the input. -/
theorem shdb3Substitutes : Obligations.Shdb3Substitutes := by
  intro s t x y hf hscheme hscr held hexec hy
  obtain rfl : signalScrambled .hdb3 (hdb3Run x) s = t := by
    injection (exec_shdb3_of_held hf hscheme hscr held).symm.trans hexec
  obtain rfl : (hdb3Run x).sig = y :=
    Option.some.inj ((sigSeq_signalScrambled .hdb3 held (hdb3Run_length x)).symm.trans hy)
  obtain ⟨hpass, hoc⟩ := isHdb3PassOver_hdb3Run x
  exact ⟨_, isHdb3Of_of_isSubstituted hpass.signal, hoc⟩

/-- Settles O37: each full window's end has become a mark. -/
theorem scramblersBoundTheZeroRuns : Obligations.ScramblersBoundTheZeroRuns := by
  intro s t y hf ht hy
  refine ⟨fun hexec start len hrun => ?_, fun hexec start len hrun => ?_⟩
  · obtain ⟨x, held, rfl⟩ := eq_signalScrambled_of_unfaulted (b8zsRun_length · s.oc) hf ht hexec
    obtain rfl : (b8zsRun x s.oc).sig = y :=
      Option.some.inj ((sigSeq_signalScrambled .b8zs held (b8zsRun_length x s.oc)).symm.trans hy)
    have hpass := isPassOver_b8zsRun x s.oc
    exact Nat.le_of_lt_succ (hpass.signal.lt_of_isZeroRun (by decide) (b8zsCode_end_ne_zero x) hrun)
  · obtain ⟨x, held, rfl⟩ := eq_signalScrambled_of_unfaulted hdb3Run_length hf ht hexec
    obtain rfl : (hdb3Run x).sig = y :=
      Option.some.inj ((sigSeq_signalScrambled .hdb3 held (hdb3Run_length x)).symm.trans hy)
    obtain ⟨hpass, -⟩ := isHdb3PassOver_hdb3Run x
    exact Nat.le_of_lt_succ (hpass.signal.lt_of_isZeroRun (by decide) (hdb3Code_end_ne_zero x) hrun)

/-- Settles O38: EAMI leaves the precondition met, and a pass leaves `SIG_SCR` not 0. -/
theorem scrambleOnceAfterEami : Obligations.ScrambleOnceAfterEami := by
  intro s t u i j hi hj hf heami hscramble
  obtain ⟨hfaulted, -⟩ | ⟨-, b, -, rfl⟩ := (exec_encodeCommand_eq_next_iff .ami s t).1 heami
  · exact Bool.noConfusion (hf.symm.trans hfaulted)
  have hflags := flagsAre_flagsAfterEncode .ami s.flags
  obtain ⟨k, run, hk, hrun, hexec⟩ := exists_scrambleSignal_of_mem hi (signalEncoded .ami b s)
  rw [hexec] at hscramble
  obtain ⟨hfaulted, -⟩ | ⟨-, hbad, -⟩ | ⟨-, -, x, -, rfl⟩ :=
    (unlessFaulted_scrambleSignal_eq_next_iff k hrun _ u).1 hscramble
  · exact Bool.noConfusion (hf.symm.trans hfaulted)
  · exact ((scramblable_eq_false_iff _).1 hbad).elim (absurd hflags.scheme) (absurd hflags.scr)
  · refine ⟨hf, raisesOnly_of_not_scramblable hj hf (.inr ?_)⟩
    exact fun hzero => hk ((flagsAre_flagsAfterScramble k _).scr.symm.trans hzero)

end Sys2Proof.Machine
end

section
/-!
AZRUN after a scrambler (43_analyzers.md R187, R188): the zero run it reports is one of the signal.
-/

namespace Sys2Proof.Machine

open Sys2Proof

theorem zrunFrom_concat (z : ZeroScan) (i : Nat) (x : List Level) (l : Level) :
    zrunFrom z i (x ++ [l]) = zrunStep (zrunFrom z i x) (i + x.length) l := by
  induction x generalizing z i with
  | nil => rfl
  | cons m x ih => rw [List.cons_append, zrunFrom, ih, zrunFrom, List.length_cons, Nat.add_assoc, Nat.add_comm 1]

/-- The pass over one more element is one more step. -/
theorem zrunScan_concat (x : List Level) (l : Level) : zrunScan (x ++ [l]) = zrunStep (zrunScan x) x.length l := by
  rw [zrunScan, zrunFrom_concat, Nat.zero_add, zrunScan]

theorem zrunStep_mark (z : ZeroScan) (i : Nat) {l : Level} (hl : l ≠ .zero) :
    zrunStep z i l = { z with curLen := 0 } := if_neg hl

theorem zrunStep_zero (z : ZeroScan) (i : Nat) :
    zrunStep z i .zero =
      { start := if z.curLen + 1 > z.count then if z.curLen = 0 then i else z.curStart else z.start
        count := if z.curLen + 1 > z.count then z.curLen + 1 else z.count
        curStart := if z.curLen = 0 then i else z.curStart
        curLen := z.curLen + 1 } := rfl

/-- What the registers of the pass say of the signal read so far: the run at its end and where it starts, and a run. -/
structure ZeroScan.Describes (z : ZeroScan) (x : List Level) : Prop where
  curLen : z.curLen = trailingZeros x
  curStart : z.curLen ≠ 0 → z.curStart = x.length - trailingZeros x
  found : IsZeroRun x z.start z.count

theorem ZeroScan.Describes.zrunStep {z : ZeroScan} {x : List Level} (h : z.Describes x) (l : Level) :
    (zrunStep z x.length l).Describes (x ++ [l]) := by
  by_cases hl : l = .zero
  · subst hl
    have hcurStart : (if z.curLen = 0 then x.length else z.curStart) = x.length - trailingZeros x := by
      split
      next hzero => rw [← h.curLen, hzero, Nat.sub_zero]
      next hne => exact h.curStart hne
    have hopen := isZeroRun_trailingZeros (x ++ [.zero])
    rw [length_sub_trailingZeros_concat_zero, trailingZeros_concat_zero] at hopen
    rw [zrunStep_zero, hcurStart, h.curLen]
    refine ⟨(trailingZeros_concat_zero x).symm, fun _ => (length_sub_trailingZeros_concat_zero x).symm, ?_⟩
    dsimp only
    split
    · exact hopen
    · exact h.found.append [.zero]
  · rw [zrunStep_mark z _ hl]
    exact ⟨(trailingZeros_concat_mark x hl).symm, fun hne => absurd rfl hne, h.found.append [l]⟩

theorem describes_zrunScan (x : List Level) : (zrunScan x).Describes x := by
  induction x using List.reverseRecOn with
  | nil => exact ⟨rfl, fun _ => rfl, ⟨le_rfl, fun k hk => absurd hk k.not_lt_zero⟩⟩
  | append_singleton x l ih =>
    rw [zrunScan_concat]
    exact ih.zrunStep l

/-- AZRUN: ignored while faulted, or its operation on the signal. -/
theorem exec_azrun_eq_next_iff (s t : State) :
    exec .azrun s = .next t ↔
      (faulted s ∧ t = s) ∨ (unfaulted s ∧ ∃ x, sigSeq s = some x ∧ t = zeroRunFound x s) := by
  rw [exec, execAzrun, unlessFaulted_eq_next_iff]
  refine or_congr Iff.rfl (and_congr_right fun _ => ?_)
  cases sigSeq s with
  | none => simp
  | some x =>
    refine ⟨fun h => ?_, ?_⟩
    · cases h
      exact ⟨x, rfl, rfl⟩
    · rintro ⟨_, hx, rfl⟩
      cases hx
      rfl

/-- Settles O43: the run reported is a run of the scrambled signal, which has none longer. -/
theorem scramblingBoundsTheReportedRun : Obligations.ScramblingBoundsTheReportedRun := by
  intro s t u hf ht hazrun
  obtain ⟨hfaulted, -⟩ | ⟨-, y, held, rfl⟩ := (exec_azrun_eq_next_iff t u).1 hazrun
  · exact Bool.noConfusion (ht.symm.trans hfaulted)
  · have hrun := (describes_zrunScan y).found
    obtain ⟨hb8zs, hhdb3⟩ := scramblersBoundTheZeroRuns s t y hf ht held
    exact ⟨fun hexec => hb8zs hexec _ _ hrun, fun hexec => hhdb3 hexec _ _ hrun⟩

end Sys2Proof.Machine
end

section
/-!
AZRUN's result (43_analyzers.md R189) and its working registers (R188): the pass holds the leftmost longest zero run of
the signal read so far, and the start of its last one; a run of one more element lies before it or ends with it.
-/

namespace Sys2Proof.Machine

open Sys2Proof

variable {x : List Level} {l : Level} {start len c : Nat}

/-! ## The longest run -/

theorem IsZeroRun.le_trailingZeros (h : IsZeroRun x start len) (hend : start + len = x.length) :
    len ≤ trailingZeros x := by
  have hgrow := h.trailingZeros_take le_rfl
  rw [hend, List.take_length] at hgrow
  omega

/-- A run of one more element lies before that element, or is part of the run at the end. -/
theorem IsZeroRun.of_concat (h : IsZeroRun (x ++ [l]) start len) :
    IsZeroRun x start len ∨ start + len = x.length + 1 ∧ len ≤ trailingZeros (x ++ [l]) := by
  obtain ⟨hfit, hzero⟩ := h
  have hlength : (x ++ [l]).length = x.length + 1 := List.length_append
  rcases Nat.lt_or_ge x.length (start + len) with hend | hin
  · have heq : start + len = x.length + 1 := by omega
    exact .inr ⟨heq, IsZeroRun.le_trailingZeros ⟨hfit, hzero⟩ (heq.trans hlength.symm)⟩
  · refine .inl ⟨hin, fun k hk => ?_⟩
    rw [← hzero k hk, List.getElem?_append_left (by omega)]

/-- The leftmost of the longest zero runs, the empty run at 0 when there is no zero. -/
structure IsFirstLongestRun (x : List Level) (start len : Nat) : Prop where
  run : IsZeroRun x start len
  longest : ∀ start' len', IsZeroRun x start' len' → len' ≤ len
  leftmost : ∀ start', IsZeroRun x start' len → start ≤ start'

theorem isZeroRun_empty (x : List Level) : IsZeroRun x 0 0 := ⟨Nat.zero_le _, fun k hk => absurd hk k.not_lt_zero⟩

theorem isFirstLongestRun_nil : IsFirstLongestRun [] 0 0 :=
  ⟨isZeroRun_empty [], fun _ _ h => (Nat.le_add_left _ _).trans h.1, fun _ _ => Nat.zero_le _⟩

/-- The run at the end is no longer than the one found: that one stays. -/
theorem IsFirstLongestRun.concat_of_le (h : IsFirstLongestRun x start len) (hle : trailingZeros (x ++ [l]) ≤ len) :
    IsFirstLongestRun (x ++ [l]) start len := by
  obtain ⟨hrun, hlongest, hleftmost⟩ := h
  refine ⟨hrun.append [l], fun start' len' h' => ?_, fun start' h' => ?_⟩
  · obtain hin | ⟨-, hend⟩ := h'.of_concat
    · exact hlongest start' len' hin
    · exact hend.trans hle
  · obtain hin | ⟨hend, -⟩ := h'.of_concat
    · exact hleftmost start' hin
    · have hfit := hrun.1
      omega

/-- The run at the end is longer than the one found: it takes its place. -/
theorem IsFirstLongestRun.concat_of_lt (h : IsFirstLongestRun x start len) (hlt : len < trailingZeros (x ++ [l])) :
    IsFirstLongestRun (x ++ [l]) ((x ++ [l]).length - trailingZeros (x ++ [l])) (trailingZeros (x ++ [l])) := by
  have hlength : (x ++ [l]).length = x.length + 1 := List.length_append
  refine ⟨isZeroRun_trailingZeros _, fun start' len' h' => ?_, fun start' h' => ?_⟩
  · obtain hin | ⟨-, hend⟩ := h'.of_concat
    · exact (h.longest start' len' hin).trans hlt.le
    · exact hend
  · obtain hin | ⟨hend, -⟩ := h'.of_concat
    · exact absurd (h.longest start' _ hin) (not_le.2 hlt)
    · omega

/-- R189: with no zero there is only the empty run, at 0; each zero is a run of its own. -/
theorem IsFirstLongestRun.isLongestZeroRun (h : IsFirstLongestRun x start len) : IsLongestZeroRun x start len := by
  obtain ⟨hrun, hlongest, hleftmost⟩ := h
  refine ⟨fun hnone => ?_, fun hsome => ?_⟩
  · have hlen : len = 0 := by
      by_contra hne
      exact hnone (List.mem_of_getElem? (hrun.2 0 (by omega)))
    subst hlen
    exact ⟨Nat.le_zero.1 (hleftmost 0 (isZeroRun_empty x)), rfl⟩
  · obtain ⟨i, hi⟩ := List.mem_iff_getElem?.1 hsome
    have hone : IsZeroRun x i 1 :=
      ⟨(List.getElem?_eq_some_iff.1 hi).1, fun k hk => by rwa [Nat.lt_one_iff.1 hk]⟩
    exact ⟨hlongest i 1 hone, hrun, hlongest, hleftmost⟩

/-- Where a zero at position `x.length` finds its run to start (R188). -/
theorem ZeroScan.Describes.openStart_eq {z : ZeroScan} (h : z.Describes x) :
    (if z.curLen = 0 then x.length else z.curStart) = x.length - trailingZeros x := by
  split
  next hzero => rw [← h.curLen, hzero, Nat.sub_zero]
  next hne => exact h.curStart hne

theorem isFirstLongestRun_zrunScan (x : List Level) : IsFirstLongestRun x (zrunScan x).start (zrunScan x).count := by
  induction x using List.reverseRecOn with
  | nil => exact isFirstLongestRun_nil
  | append_singleton x l ih =>
    have hscan := describes_zrunScan x
    rw [zrunScan_concat]
    by_cases hl : l = .zero
    · subst hl
      have hopen := trailingZeros_concat_zero x
      rw [zrunStep_zero, hscan.openStart_eq, hscan.curLen, ← length_sub_trailingZeros_concat_zero, ← hopen]
      dsimp only
      split
      next hgt => exact ih.concat_of_lt hgt
      next hle => exact ih.concat_of_le (not_lt.1 hle)
    · rw [zrunStep_mark _ _ hl]
      exact ih.concat_of_le (by rw [trailingZeros_concat_mark x hl]; exact Nat.zero_le _)

/-! ## The start of the last run -/

/-- The last element is a zero exactly when there are zeros at the end. -/
theorem getElem?_length_sub_one_eq_zero_iff (x : List Level) :
    x[x.length - 1]? = some .zero ↔ trailingZeros x ≠ 0 := by
  refine ⟨fun h => ?_, fun h => getElem?_of_le_trailingZeros le_rfl (Nat.one_le_iff_ne_zero.2 h)⟩
  have hlt := (List.getElem?_eq_some_iff.1 h).1
  have hlast := trailingZeros_take_succ h
  rw [List.take_of_length_le (by omega)] at hlast
  omega

theorem getElem?_concat_mark_eq_zero_iff (hl : l ≠ .zero) (k : Nat) :
    (x ++ [l])[k]? = some .zero ↔ x[k]? = some .zero := by
  rcases Nat.lt_trichotomy k x.length with h | rfl | h
  · rw [List.getElem?_append_left h]
  · simp [hl]
  · rw [List.getElem?_eq_none (by simpa using h), List.getElem?_eq_none h.le]

/-- A mark adds no zero. -/
theorem IsLastZeroRunStart.concat_mark (h : IsLastZeroRunStart x c) (hl : l ≠ .zero) :
    IsLastZeroRunStart (x ++ [l]) c := by
  have hmem : Level.zero ∈ x ++ [l] ↔ Level.zero ∈ x := by simp [hl.symm]
  simpa only [IsLastZeroRunStart, hmem, ne_eq, getElem?_concat_mark_eq_zero_iff hl] using h

/-- A zero after zeros belongs to their run. -/
theorem IsLastZeroRunStart.concat_zero_of_open (h : IsLastZeroRunStart x c) (hopen : trailingZeros x ≠ 0) :
    IsLastZeroRunStart (x ++ [.zero]) c := by
  have hlast := (getElem?_length_sub_one_eq_zero_iff x).2 hopen
  obtain ⟨hc, hbefore, hafter⟩ := h.2 (List.mem_of_getElem? hlast)
  have hlt := (List.getElem?_eq_some_iff.1 hc).1
  refine ⟨fun hnone => absurd (by simp) hnone, fun _ => ⟨?_, ?_, fun k hk hzero => ?_⟩⟩
  · rwa [List.getElem?_append_left hlt]
  · rwa [List.getElem?_append_left (by omega)]
  · have hkle : k < x.length + 1 := by simpa using (List.getElem?_eq_some_iff.1 hzero).1
    rw [List.getElem?_append_left (by omega)]
    obtain hkin | rfl := Nat.lt_succ_iff_lt_or_eq.1 hkle
    · exact hafter k hk (by rwa [List.getElem?_append_left hkin] at hzero)
    · exact hlast

/-- A zero after a mark, or the first element, starts a run. -/
theorem isLastZeroRunStart_concat_zero_of_closed (hclosed : trailingZeros x = 0) :
    IsLastZeroRunStart (x ++ [.zero]) x.length := by
  refine ⟨fun hnone => absurd (by simp) hnone, fun _ => ⟨List.getElem?_concat_length, ?_, fun k hk hzero => ?_⟩⟩
  · rcases Nat.eq_zero_or_pos x.length with hnil | hpos
    · exact .inl hnil
    · rw [List.getElem?_append_left (by omega), ne_eq, getElem?_length_sub_one_eq_zero_iff]
      exact .inr (not_not.2 hclosed)
  · have hkle : k < x.length + 1 := by simpa using (List.getElem?_eq_some_iff.1 hzero).1
    omega

theorem isLastZeroRunStart_zrunScan (x : List Level) : IsLastZeroRunStart x (zrunScan x).curStart := by
  induction x using List.reverseRecOn with
  | nil => exact ⟨fun _ => rfl, fun h => absurd h List.not_mem_nil⟩
  | append_singleton x l ih =>
    rw [zrunScan_concat]
    by_cases hl : l = .zero
    · subst hl
      rw [zrunStep_zero, (describes_zrunScan x).curLen]
      dsimp only
      split
      next hclosed => exact isLastZeroRunStart_concat_zero_of_closed hclosed
      next hopen => exact ih.concat_zero_of_open hopen
    · rw [zrunStep_mark _ _ hl]
      exact ih.concat_mark hl

/-! ## The statement -/

/-- Settles O42: the registers of the pass over the whole signal. -/
theorem azrunFindsTheLongestZeroRun : Obligations.AzrunFindsTheLongestZeroRun := by
  intro s x hf held
  have hexec := (exec_azrun_eq_next_iff s _).2 (.inr ⟨hf, x, held, rfl⟩)
  rw [zeroRunFound, (describes_zrunScan x).curLen] at hexec
  exact ⟨_, _, _, _, hexec, flagsAre_flagsSetZrValid true s.flags, (isFirstLongestRun_zrunScan x).isLongestZeroRun,
    isLastZeroRunStart_zrunScan x⟩

end Sys2Proof.Machine
end

section
/-!
The two report strings (43_analyzers.md R185, R186, R190, R191).
-/

namespace Sys2Proof.Machine

open Sys2Proof

/-- The elements of a held sequence from `start` on. -/
theorem bufReadFrom_of_bufReadSeq {α : Type} {cap n start len : Nat} {m : Buffer α} {vs : List α}
    (held : bufReadSeq cap n m = some vs) (hfit : start + len ≤ vs.length) :
    bufReadFrom m start len = some ((vs.drop start).take len) := by
  obtain ⟨-, hlen, hread⟩ := (bufReadSeq_eq_some_iff cap n m vs).1 held
  refine (bufReadFrom_eq_some_iff m start len _).2 ⟨?_, fun k hk => ?_⟩
  · rw [List.length_take, List.length_drop]
    omega
  · rw [hread _ (by omega), List.getElem?_take_of_lt hk, List.getElem?_drop]

/-- Settles O44: the text is the elements of the bit sequence the result names. -/
theorem palindromeReportText : Obligations.PalindromeReportText := by
  intro s b hvalid held hfit
  rw [palReport, if_pos hvalid, palText, bufReadFrom_of_bufReadSeq held hfit]
  rfl

/-- R190. -/
theorem zrReportEmitted_iff (s : State) :
    zrReportEmitted s = true ↔ flagsZrValid s.flags = true ∧ flagsScr s.flags ≠ 0 ∧ 1 ≤ s.zrCount := by
  simp [zrReportEmitted, scrambleCode, and_assoc]

theorem zrReport_ne_none_iff (s : State) : zrReport s ≠ none ↔ zrReportEmitted s = true := by
  simp [zrReport]

/-- Settles O45: there is a report exactly when it is emitted, and then it is the template. -/
theorem zeroRunReportText : Obligations.ZeroRunReportText := by
  refine fun s => ⟨(zrReport_ne_none_iff s).trans (zrReportEmitted_iff s), fun text h => ?_⟩
  rw [zrReport, Option.ite_none_right_eq_some] at h
  exact (Option.some.inj h.2).symm

end Sys2Proof.Machine
end

section
/-!
Palindromes of a bit sequence as mirrored stretches of the interleaved sequence (43_analyzers.md R182, R183): a stretch
mirrored around a center, the greatest radius at each center, and the reflection inside a mirrored stretch that
Manacher's algorithm rests on.
-/

namespace Sys2Proof.Machine

open Sys2Proof

variable {sep : Nat} {b : List Bit} {c r start len : Nat}

/-! ## Stretches mirrored around a center -/

/-- The interleaved sequence reads the same both ways around `c` out to distance `r` (R183). -/
def IsMirrored (sep : Nat) (b : List Bit) (c r : Nat) : Prop :=
  r ≤ c ∧ c + r ≤ 2 * b.length ∧ ∀ k, k ≤ r → interleaved sep b (c - k) = interleaved sep b (c + k)

theorem isMirrored_zero (hc : c ≤ 2 * b.length) : IsMirrored sep b c 0 :=
  ⟨Nat.zero_le c, hc, fun k hk => by rw [Nat.le_zero.1 hk]; rfl⟩

theorem IsMirrored.mono {r' : Nat} (h : IsMirrored sep b c r) (hle : r' ≤ r) : IsMirrored sep b c r' := by
  obtain ⟨hleft, hright, hmirror⟩ := h
  exact ⟨hle.trans hleft, by omega, fun k hk => hmirror k (hk.trans hle)⟩

/-- One expansion around a center: the `while` condition of R183. -/
theorem isMirrored_succ_iff :
    IsMirrored sep b c (r + 1) ↔ IsMirrored sep b c r ∧
      (r + 1 ≤ c ∧ c + r + 1 ≤ 2 * b.length ∧ interleaved sep b (c - r - 1) = interleaved sep b (c + r + 1)) := by
  constructor
  · intro h
    exact ⟨h.mono r.le_succ, h.1, h.2.1, h.2.2 (r + 1) le_rfl⟩
  · rintro ⟨⟨-, -, hmirror⟩, hleft, hright, hends⟩
    refine ⟨hleft, hright, fun k hk => ?_⟩
    obtain hlt | rfl := Nat.le_succ_iff.1 hk
    · exact hmirror k hlt
    · exact hends

/-- Positions that are images of each other in the center of a mirrored stretch hold the same symbol. -/
theorem IsMirrored.eq_of_add_eq {i j : Nat} (h : IsMirrored sep b c r) (hij : i + j = 2 * c) (hi : i ≤ c + r)
    (hj : j ≤ c + r) : interleaved sep b i = interleaved sep b j := by
  obtain ⟨-, -, hmirror⟩ := h
  rcases Nat.le_total i j with hle | hle
  · have hk := hmirror (c - i) (by omega)
    rwa [show c - (c - i) = i by omega, show c + (c - i) = j by omega] at hk
  · have hk := hmirror (c - j) (by omega)
    rw [show c - (c - j) = j by omega, show c + (c - j) = i by omega] at hk
    exact hk.symm

/-- The mirror position of Manacher's algorithm (R183): inside the stretch mirrored around `cen`, what is mirrored
around `m` is so around the image `c` of `m`, because reflecting in `cen` carries it over. -/
theorem IsMirrored.reflect {cen outer m : Nat} (houter : IsMirrored sep b cen outer) (hm : c + m = 2 * cen)
    (hle : cen ≤ c) (hin : c + r ≤ cen + outer) (hinner : IsMirrored sep b m r) : IsMirrored sep b c r := by
  obtain ⟨hleft, -, hmirror⟩ := hinner
  refine ⟨by omega, hin.trans houter.2.1, fun k hk => ?_⟩
  calc interleaved sep b (c - k)
      = interleaved sep b (m + k) := houter.eq_of_add_eq (by omega) (by omega) (by omega)
    _ = interleaved sep b (m - k) := (hmirror k hk).symm
    _ = interleaved sep b (c + k) := houter.eq_of_add_eq (by omega) (by omega) (by omega)

/-! ## The radius at a center -/

theorem isRadiusAt_iff : IsRadiusAt sep b c r ↔ IsMirrored sep b c r ∧ ∀ r', IsMirrored sep b c r' → r' ≤ r := by
  simp only [IsRadiusAt, IsMirrored, and_imp]

theorem IsRadiusAt.isMirrored (h : IsRadiusAt sep b c r) : IsMirrored sep b c r := (isRadiusAt_iff.1 h).1

theorem IsRadiusAt.le_of_isMirrored {r' : Nat} (h : IsRadiusAt sep b c r) (h' : IsMirrored sep b c r') : r' ≤ r :=
  (isRadiusAt_iff.1 h).2 r' h'

theorem IsRadiusAt.unique {r' : Nat} (h : IsRadiusAt sep b c r) (h' : IsRadiusAt sep b c r') : r = r' :=
  le_antisymm (h'.le_of_isMirrored h.isMirrored) (h.le_of_isMirrored h'.isMirrored)

/-- A mirrored stretch that cannot be expanded by one is the greatest. -/
theorem isRadiusAt_of_not_succ (h : IsMirrored sep b c r) (hstop : ¬ IsMirrored sep b c (r + 1)) :
    IsRadiusAt sep b c r :=
  isRadiusAt_iff.2 ⟨h, fun r' h' => by
    by_contra hgt
    exact hstop (h'.mono (by omega))⟩

/-- A greatest stretch ends at separators: two separators at its ends would expand it. -/
theorem IsRadiusAt.even_add (h : IsRadiusAt sep b c r) : (c + r) % 2 = 0 := by
  by_contra hodd
  obtain ⟨hleft, hright, -⟩ := h.isMirrored
  have hends : interleaved sep b (c - r - 1) = interleaved sep b (c + r + 1) := by
    rw [interleaved_of_even sep b (by omega), interleaved_of_even sep b (by omega)]
  have hlonger := isMirrored_succ_iff.2 ⟨h.isMirrored, by omega, by omega, hends⟩
  exact absurd (h.le_of_isMirrored hlonger) r.not_succ_le_self

/-! ## Palindromes -/

theorem interleaved_odd_eq_iff (i j : Nat) :
    interleaved sep b (2 * i + 1) = interleaved sep b (2 * j + 1) ↔ b[i]? = b[j]? := by
  rw [interleaved_odd, interleaved_odd]
  exact (Option.map_injective fun _ _ h => Symbol.bit.inj h).eq_iff

/-- The mirror condition at distance `k` compares two separators or two bits, according to the parity. -/
theorem IsPalindromeAt.isMirrored (sep : Nat) (h : IsPalindromeAt b start len) :
    IsMirrored sep b (2 * start + len) len := by
  obtain ⟨hfit, hpal⟩ := h
  refine ⟨by omega, by omega, fun k hk => ?_⟩
  by_cases heven : (len - k) % 2 = 0
  · rw [interleaved_of_even sep b (by omega), interleaved_of_even sep b (by omega)]
  · obtain ⟨i, hi⟩ : ∃ i, len = k + (2 * i + 1) := ⟨(len - k) / 2, by omega⟩
    have hbits := hpal i (by omega)
    rw [show start + len - 1 - i = start + i + k by omega] at hbits
    rw [show 2 * start + len - k = 2 * (start + i) + 1 by omega,
      show 2 * start + len + k = 2 * (start + i + k) + 1 by omega, interleaved_odd_eq_iff, hbits]

/-- R183: `P[c]` is the length in `b` of a palindrome centered there. -/
theorem isPalindromeAt_iff_isMirrored (sep : Nat) :
    IsPalindromeAt b start len ↔ IsMirrored sep b (2 * start + len) len := by
  refine ⟨IsPalindromeAt.isMirrored sep, fun h => ⟨by have := h.2.1; omega, fun k hk => ?_⟩⟩
  exact (interleaved_odd_eq_iff (sep := sep) _ _).1 (h.eq_of_add_eq (by omega) (by omega) (by omega))

theorem isPalindromeAt_singleton (hb : b ≠ []) : IsPalindromeAt b 0 1 :=
  ⟨List.length_pos_iff.2 hb, fun k hk => by rw [Nat.lt_one_iff.1 hk]⟩

/-- Of three bits two are equal, neighbours or the outer ones. -/
theorem exists_isPalindromeAt_of_three (hb : 3 ≤ b.length) : ∃ start len, 2 ≤ len ∧ IsPalindromeAt b start len := by
  match b, hb with
  | x :: y :: z :: _, _ =>
    have htwo : ∀ x y z : Bit, x = y ∨ y = z ∨ x = z := by decide
    obtain rfl | rfl | rfl := htwo x y z
    · exact ⟨0, 2, le_rfl, by simp, fun k hk => by interval_cases k <;> rfl⟩
    · exact ⟨1, 2, le_rfl, by simp, fun k hk => by interval_cases k <;> rfl⟩
    · exact ⟨0, 3, by decide, by simp, fun k hk => by interval_cases k <;> rfl⟩

end Sys2Proof.Machine
end

section
/-!
The center scan of APAL (43_analyzers.md R183) computes the radius at every center, keeps in `CEN` and `RGT` the first
center whose stretch reaches furthest right, and finds the first greatest radius: the longest palindrome of R182.
-/

namespace Sys2Proof.Machine

open Sys2Proof

/-! ## The first maximum of a scan -/

/-- `m` is the greatest value of `f` below `n` and `c` the first place that has it, as a scan from (0, 0) keeps them. -/
structure IsFirstMax (f : Nat → Nat) (n c m : Nat) : Prop where
  place : c ≤ n - 1
  value : m = f c
  bound : ∀ k, k < n → f k ≤ m
  first : ∀ k, k < c → f k < m

theorem isFirstMax_zero {f : Nat → Nat} (h : f 0 = 0) : IsFirstMax f 0 0 0 :=
  ⟨le_rfl, h.symm, fun k hk => absurd hk k.not_lt_zero, fun k hk => absurd hk k.not_lt_zero⟩

/-- A maximum is replaced only by a strictly greater one (R182: first-encountered). -/
theorem IsFirstMax.succ {f : Nat → Nat} {n c m : Nat} (h : IsFirstMax f n c m) :
    IsFirstMax f (n + 1) (if f n > m then n else c) (if f n > m then f n else m) := by
  obtain ⟨hplace, hvalue, hbound, hfirst⟩ := h
  split
  next hgt =>
    refine ⟨le_rfl, rfl, fun k hk => ?_, fun k hk => (hbound k hk).trans_lt hgt⟩
    obtain hlt | rfl := Nat.lt_succ_iff_lt_or_eq.1 hk
    · exact (hbound k hlt).trans hgt.le
    · exact le_rfl
  next hle =>
    refine ⟨by omega, hvalue, fun k hk => ?_, hfirst⟩
    obtain hlt | rfl := Nat.lt_succ_iff_lt_or_eq.1 hk
    · exact hbound k hlt
    · exact not_lt.1 hle

/-! ## Expanding -/

variable {sep : Nat} {b : List Bit} {c r : Nat}

/-- Expanding from any mirrored stretch finds the radius, given fuel for the whole sequence. -/
theorem isRadiusAt_palExpand {fuel : Nat} (h : IsMirrored sep b c r) (hfuel : 2 * b.length < fuel + r) :
    IsRadiusAt sep b c (palExpand sep b c fuel r) := by
  induction fuel generalizing r with
  | zero => have hright := h.2.1; omega
  | succ fuel ih =>
    rw [palExpand]
    split
    next hcond => exact ih (isMirrored_succ_iff.2 ⟨h, hcond⟩) (by omega)
    next hcond => exact isRadiusAt_of_not_succ h fun hsucc => hcond (isMirrored_succ_iff.1 hsucc).2

/-- The radius at a center, expanded from 0. -/
def radiusOf (sep : Nat) (b : List Bit) (c : Nat) : Nat := palExpand sep b c (2 * b.length + 1) 0

theorem isRadiusAt_radiusOf (hc : c ≤ 2 * b.length) : IsRadiusAt sep b c (radiusOf sep b c) :=
  isRadiusAt_palExpand (isMirrored_zero hc) (Nat.lt_succ_self _)

theorem isRadiusAt_iff_eq_radiusOf (hc : c ≤ 2 * b.length) : IsRadiusAt sep b c r ↔ r = radiusOf sep b c :=
  ⟨fun h => h.unique (isRadiusAt_radiusOf hc), fun h => h ▸ isRadiusAt_radiusOf hc⟩

theorem radiusOf_le_left (hc : c ≤ 2 * b.length) : radiusOf sep b c ≤ c := (isRadiusAt_radiusOf hc).isMirrored.1

theorem radiusOf_le_right (hc : c ≤ 2 * b.length) : c + radiusOf sep b c ≤ 2 * b.length :=
  (isRadiusAt_radiusOf hc).isMirrored.2.1

/-! ## The scan -/

/-- The right end of the greatest stretch around a center. -/
def rightEnd (sep : Nat) (b : List Bit) (c : Nat) : Nat := c + radiusOf sep b c

/-- What the registers of the scan hold when the centers below `n` have been visited (R183). -/
structure PalScan.Describes (sep : Nat) (b : List Bit) (z : PalScan) (n : Nat) : Prop where
  radii : z.radii = (List.range n).map (radiusOf sep b)
  right : IsFirstMax (rightEnd sep b) n z.cen z.rgt
  best : IsFirstMax (radiusOf sep b) n z.bestCen z.bestLen

/-- Inside the right boundary the radius at the mirror position starts the expansion, and what it starts with is
mirrored; expanding then ends at the same radius as from 0. -/
theorem PalScan.Describes.palRadius_eq {z : PalScan} (h : z.Describes sep b c) (hc : c ≤ 2 * b.length) :
    palRadius sep b z c = radiusOf sep b c := by
  obtain ⟨hradii, ⟨hplace, hrgt, -, -⟩, -⟩ := h
  refine (isRadiusAt_iff_eq_radiusOf hc).1 (isRadiusAt_palExpand ?_ (by omega))
  split
  next hin =>
    have hcen : z.cen ≤ 2 * b.length := by omega
    have houter := isRadiusAt_radiusOf (sep := sep) hcen
    have hleft := radiusOf_le_left (sep := sep) hcen
    rw [rightEnd] at hrgt
    have hmirror : z.radii.getD (2 * z.cen - c) 0 = radiusOf sep b (2 * z.cen - c) := by
      rw [hradii]
      simp [show 2 * z.cen - c < c by omega]
    have hinner := isRadiusAt_radiusOf (sep := sep) (b := b) (c := 2 * z.cen - c) (by omega)
    rw [hmirror]
    exact houter.isMirrored.reflect (by omega) (by omega) (by omega) (hinner.isMirrored.mono (min_le_right _ _))
  next => exact isMirrored_zero hc

theorem PalScan.Describes.palStep {z : PalScan} (h : z.Describes sep b c) (hc : c ≤ 2 * b.length) :
    (palStep sep b z c).Describes sep b (c + 1) := by
  have hradius := h.palRadius_eq hc
  obtain ⟨hradii, hright, hbest⟩ := h
  rw [Machine.palStep, hradius]
  exact ⟨by simp [hradii, List.range_succ], hright.succ, hbest.succ⟩

theorem describes_initial (sep : Nat) (b : List Bit) : PalScan.Describes sep b ⟨[], 0, 0, 0, 0⟩ 0 := by
  have hzero : radiusOf sep b 0 = 0 := Nat.le_zero.1 (radiusOf_le_left (Nat.zero_le _))
  exact ⟨rfl, isFirstMax_zero ((Nat.zero_add _).trans hzero), isFirstMax_zero hzero⟩

theorem describes_foldl_palStep (sep : Nat) (b : List Bit) {n : Nat} (hn : n ≤ 2 * b.length + 1) :
    ((List.range n).foldl (palStep sep b) ⟨[], 0, 0, 0, 0⟩).Describes sep b n := by
  induction n with
  | zero => exact describes_initial sep b
  | succ n ih =>
    rw [List.range_succ, List.foldl_concat]
    exact (ih (by omega)).palStep (by omega)

theorem describes_palScan (sep : Nat) (hb : b ≠ []) : (palScan sep b).Describes sep b (2 * b.length + 1) := by
  rw [palScan, if_neg (by simpa using hb)]
  exact describes_foldl_palStep sep b le_rfl

/-! ## The result -/

theorem IsPalindromeAt.le_radiusOf {start len : Nat} (sep : Nat) (h : IsPalindromeAt b start len) :
    2 * start + len ≤ 2 * b.length ∧ len ≤ radiusOf sep b (2 * start + len) := by
  have hcenter : 2 * start + len ≤ 2 * b.length := by have hfit := h.1; omega
  exact ⟨hcenter, (isRadiusAt_radiusOf hcenter).le_of_isMirrored (h.isMirrored sep)⟩

/-- R183: the first greatest radius is the longest palindrome, leftmost on ties. -/
theorem IsFirstMax.isLongestPalindrome {cen len : Nat} (h : IsFirstMax (radiusOf sep b) (2 * b.length + 1) cen len)
    (hb : b ≠ []) : IsLongestPalindrome b ((cen - len) / 2) len := by
  obtain ⟨hplace, hvalue, hbound, hfirst⟩ := h
  have hradius := (isRadiusAt_iff_eq_radiusOf hplace).2 hvalue
  have hleft := hradius.isMirrored.1
  have heven := hradius.even_add
  have hcenter : 2 * ((cen - len) / 2) + len = cen := by omega
  refine ⟨fun hnil => absurd hnil hb, fun _ => ⟨?_, fun start' len' hpal => ?_, fun start' hpal => ?_⟩⟩
  · rw [isPalindromeAt_iff_isMirrored sep, hcenter]
    exact hradius.isMirrored
  · obtain ⟨hlt, hge⟩ := hpal.le_radiusOf sep
    exact hge.trans (hbound _ (Nat.lt_succ_of_le hlt))
  · obtain ⟨-, hge⟩ := hpal.le_radiusOf sep
    by_contra hbefore
    exact absurd (hfirst (2 * start' + len) (by omega)) (not_lt.2 hge)

theorem longestPalindrome_nil (sep : Nat) : longestPalindrome sep [] = (0, 0) := by
  simp [longestPalindrome, palScan]

theorem isLongestPalindrome_longestPalindrome (sep : Nat) (b : List Bit) :
    IsLongestPalindrome b (longestPalindrome sep b).1 (longestPalindrome sep b).2 := by
  by_cases hb : b = []
  · subst hb
    rw [longestPalindrome_nil]
    exact ⟨fun _ => ⟨rfl, rfl⟩, fun hne => absurd rfl hne⟩
  · exact (describes_palScan sep hb).best.isLongestPalindrome hb

end Sys2Proof.Machine
end

section
/-!
APAL (43_analyzers.md R181 to R184): the longest palindrome, the radii and the right boundary that the scan leaves.
-/

namespace Sys2Proof.Machine

open Sys2Proof

variable {s t : State} {b : List Bit}

/-- APAL: ignored while faulted, or its operation on the bit sequence. -/
theorem exec_apal_eq_next_iff (s t : State) :
    exec .apal s = .next t ↔
      (faulted s ∧ t = s) ∨ (unfaulted s ∧ ∃ b, bitSeq s = some b ∧ t = palindromeFound b s) := by
  rw [exec, execApal, unlessFaulted_eq_next_iff]
  refine or_congr Iff.rfl (and_congr_right fun _ => ?_)
  cases bitSeq s with
  | none => simp
  | some b => simp [palindromeFound, eq_comm]

theorem exec_apal_of_held (hf : unfaulted s) (held : bitSeq s = some b) :
    exec .apal s = .next (palindromeFound b s) :=
  (exec_apal_eq_next_iff s _).2 (.inr ⟨hf, b, held, rfl⟩)

/-- What APAL leaves of a held bit sequence. -/
theorem eq_palindromeFound (hf : unfaulted s) (held : bitSeq s = some b) (h : exec .apal s = .next t) :
    t = palindromeFound b s := by
  injection h.symm.trans (exec_apal_of_held hf held)

/-- Settles O39: a single bit is a palindrome, and three bits hold one of two or three. -/
theorem apalCompletes : Obligations.ApalCompletes := by
  intro s b hf held
  obtain ⟨hempty, hlongest⟩ := isLongestPalindrome_longestPalindrome s.params.sep b
  refine ⟨_, _, _, _, _, _, _, exec_apal_of_held hf held, flagsAre_flagsSetPalValid true s.flags, hempty, ?_, ?_⟩
  · intro hb
    obtain ⟨-, hbound, -⟩ := hlongest hb
    exact hbound 0 1 (isPalindromeAt_singleton hb)
  · intro hthree
    obtain ⟨-, hbound, -⟩ := hlongest (List.ne_nil_of_length_pos (by omega))
    obtain ⟨start, len, hlen, hpal⟩ := exists_isPalindromeAt_of_three hthree
    exact hlen.trans (hbound start len hpal)

/-- Settles O40: the result APAL stores is the scan's. -/
theorem apalFindsTheLongestPalindrome : Obligations.ApalFindsTheLongestPalindrome := by
  intro s t b hf held h
  obtain rfl := eq_palindromeFound hf held h
  exact isLongestPalindrome_longestPalindrome s.params.sep b

/-- Settles O41: the scan's radii stand before what `P` held beyond them. -/
theorem apalRadiiAreMaximal : Obligations.ApalRadiiAreMaximal := by
  intro s t b hf held hb h
  obtain rfl := eq_palindromeFound hf held h
  have hradii := (describes_palScan s.params.sep hb).radii
  have hlength : (palScan s.params.sep b).radii.length = 2 * b.length + 1 := by simp [hradii]
  refine ⟨hlength, fun c hc => ⟨radiusOf s.params.sep b c, ?_, isRadiusAt_radiusOf hc⟩, fun c hc => ?_⟩
  · rw [palindromeFound, List.getElem?_append_left (by omega), hradii]
    simp [Nat.lt_succ_of_le hc]
  · rw [palindromeFound, List.getElem?_append_right (by omega), List.getElem?_drop,
      Nat.add_sub_cancel' (by omega)]

/-- Settles O59: the last center reaches the right end, so the first center that reaches furthest reaches it. -/
theorem apalLeavesTheLongestSuffixPalindrome : Obligations.ApalLeavesTheLongestSuffixPalindrome := by
  intro s t b hf held hb h
  obtain rfl := eq_palindromeFound hf held h
  obtain ⟨hplace, hvalue, hbound, hfirst⟩ := (describes_palScan s.params.sep hb).right
  have hcen : (palindromeFound b s).cen ≤ 2 * b.length := hplace
  have hrgt : (palindromeFound b s).rgt = 2 * b.length :=
    le_antisymm (hvalue.trans_le (radiusOf_le_right hcen))
      ((Nat.le_add_right _ _).trans (hbound (2 * b.length) (Nat.lt_succ_self _)))
  refine ⟨hrgt, hcen, (isRadiusAt_iff_eq_radiusOf hcen).2 ?_, fun c r hc hradius => ?_⟩
  · exact Nat.sub_eq_of_eq_add' (hrgt.symm.trans hvalue)
  · rw [(isRadiusAt_iff_eq_radiusOf (by omega)).1 hradius, ← hrgt]
    exact hfirst c hc

end Sys2Proof.Machine
end

section
/-!
The control commands NOP, CLRB and CLRS (44_control.md R200 to R202), and SNONE (42_scramblers.md R152), which does what
NOP does.
-/

namespace Sys2Proof.Machine

open Sys2Proof

variable {s : State}

/-- The gate before an operation that writes nothing makes no difference: while faulted nothing is written either. -/
theorem unlessFaulted_next_self (s : State) : unlessFaulted s (.next s) = .next s := by
  cases hf : statusFault s.status with
  | true => exact unlessFaulted_of_faulted hf _
  | false => exact unlessFaulted_of_unfaulted hf _

theorem exec_nop (s : State) : exec .nop s = .next s := unlessFaulted_next_self s

theorem exec_snone (s : State) : exec .snone s = .next s := unlessFaulted_next_self s

theorem exec_clrb_of_unfaulted (hf : unfaulted s) : exec .clrb s = .next (bitsCleared s) :=
  unlessFaulted_of_unfaulted hf _

theorem exec_clrs_of_unfaulted (hf : unfaulted s) : exec .clrs s = .next { s with nsamp := 0 } :=
  unlessFaulted_of_unfaulted hf _

/-- Settles O15: both commands answer the state they are given, faulted or not. -/
theorem nopAndSnoneChangeNothing : Obligations.NopAndSnoneChangeNothing :=
  ⟨decode_eq_some_iff .nop, decode_eq_some_iff .snone, fun s => ⟨exec_nop s, exec_snone s⟩⟩

/-- Settles O16: the cleared state, with the flags that the write of `PAL_VALID` leaves. -/
theorem clrbEmptiesTheBitSequence : Obligations.ClrbEmptiesTheBitSequence := by
  refine ⟨decode_eq_some_iff .clrb, fun s hf => ?_⟩
  exact ⟨flagsSetPalValid false s.flags, exec_clrb_of_unfaulted hf, flagsAre_flagsSetPalValid false s.flags⟩

/-- Settles O17: past the gate the sample count is all that is written. -/
theorem clrsEmptiesTheSampleSequence : Obligations.ClrsEmptiesTheSampleSequence :=
  ⟨decode_eq_some_iff .clrs, fun _ hf => exec_clrs_of_unfaulted hf⟩

end Sys2Proof.Machine
end

section
/-!
The fault state (60_exceptions.md R214, R218, R219; 70_reset_and_hazards.md R241): what raising a fault writes, that a
fault is the only thing its access does, and that while `FAULT = 1` a write is ignored and a read reaches the host alone.
-/

namespace Sys2Proof.Machine

open Sys2Proof

variable {s t : State}

/-! ## How a step can leave `STATUS` -/

/-- `STATUS` is written by a fault and by reset, and by nothing else (R214, R240). -/
theorem Effect.raised_or_reset_or_status_eq (h : Effect s t) :
    (∃ code, t = raiseFault code s) ∨ t = resetBlock s ∨ t.status = s.status := by
  cases h with
  | raised code => exact .inl ⟨code, rfl⟩
  | reset => exact .inr (.inl rfl)
  | qpcm bps xs => exact .inr (.inr (pcmRegisters_status xs s))
  | _ => exact .inr (.inr rfl)

theorem unfaulted_resetBlock (s : State) : unfaulted (resetBlock s) := by
  show statusFault 0x00#8 = false
  decide

/-- Reset clears `FAULT` and the other writes keep it, so a state that has become faulted is a raised fault. -/
theorem Effect.exists_eq_raiseFault (h : Effect s t) (hs : unfaulted s) (ht : faulted t) :
    ∃ code, t = raiseFault code s := by
  obtain hraised | rfl | hstatus := h.raised_or_reset_or_status_eq
  · exact hraised
  · exact Bool.noConfusion ((unfaulted_resetBlock s).symm.trans ht)
  · exact absurd ht (not_faulted_of_status_eq hs hstatus)

/-! ## The host's side -/

/-- `t` is `s` but for the data the host has read and the count of free values: the same state of LCE (R64). -/
def SameButHostSide (s t : State) : Prop := t = { s with readData := t.readData, freeCtr := t.freeCtr }

theorem SameButHostSide.refl (s : State) : SameButHostSide s s := rfl

theorem sameButHostSide_deliver (v : ReadValue) (s : State) : SameButHostSide s (deliver v s) := rfl

theorem sameButHostSide_deliverAny (v : ReadValue) (s : State) : SameButHostSide s (deliverAny v s) := rfl

theorem sameButHostSide_deliverSample (q : Sample) (s : State) : SameButHostSide s (deliverSample q s) := by
  unfold deliverSample
  split
  · exact sameButHostSide_deliver _ s
  · split
    · exact sameButHostSide_deliverAny _ s
    · split
      · exact sameButHostSide_deliver _ s
      · exact sameButHostSide_deliverAny _ s

theorem sameButHostSide_deliverAnySample (s : State) : SameButHostSide s (deliverAnySample s) := by
  unfold deliverAnySample
  split <;> exact sameButHostSide_deliverAny _ s

/-- A read of a buffer that answers has delivered an element that is held, or a free value beyond the sequence. -/
theorem bufferRead_eq_next {α : Type} {m : Buffer α} {i n : Nat} {f : α → State} {u : State}
    (h : (if i < n then readHeld m i f else .next u) = .next t) : (∃ v, t = f v) ∨ t = u := by
  split at h
  · obtain ⟨v, -, rfl⟩ := Option.map_eq_some_iff.1 ((orInvalid_eq_next_iff _ t).1 h)
    exact .inl ⟨v, rfl⟩
  · cases h
    exact .inr rfl

/-- R64: a read changes nothing of LCE, whether or not `FAULT` is set. -/
theorem sameButHostSide_of_hostRead {r : ReadTarget} (h : hostRead r s = .next t) : SameButHostSide s t := by
  cases r with
  | bits i =>
    obtain ⟨b, rfl⟩ | rfl := bufferRead_eq_next h
    · exact sameButHostSide_deliver _ s
    · exact sameButHostSide_deliverAny _ s
  | samp i =>
    obtain ⟨q, rfl⟩ | rfl := bufferRead_eq_next h
    · exact sameButHostSide_deliverSample q s
    · exact sameButHostSide_deliverAnySample s
  | sig i =>
    obtain ⟨l, rfl⟩ | rfl := bufferRead_eq_next h
    · exact sameButHostSide_deliver _ s
    · exact sameButHostSide_deliverAny _ s
  | cmd => cases h; exact sameButHostSide_deliverAny _ s
  | _ => cases h; exact sameButHostSide_deliver _ s

/-! ## Accesses in the fault state -/

/-- R219 at the sample port: a word of the port's format meets the gate, the other format does not answer. -/
theorem eq_of_sampPush_of_faulted (hf : faulted s) {v : SampleWord} (h : sampPush v s = .next t) : t = s := by
  unfold sampPush at h
  split at h
  · cases (unlessFaulted_of_faulted hf _).symm.trans h; rfl
  · cases (unlessFaulted_of_faulted hf _).symm.trans h; rfl
  · cases h
  · cases h

/-- R219, R241: the three write ports are ignored, and a read is a read. -/
theorem sameButHostSide_of_faulted (hf : faulted s) {a : HostAccess} (ha : a ≠ .reset)
    (h : hostAccess a s = .next t) : SameButHostSide s t := by
  cases a with
  | cmd w => cases (issueCommand_of_faulted hf w).symm.trans h; exact .refl s
  | bitsPush b => cases (bitsPush_of_faulted hf b).symm.trans h; exact .refl s
  | sampPush v => cases eq_of_sampPush_of_faulted hf h; exact .refl s
  | read r => exact sameButHostSide_of_hostRead h
  | reset => exact absurd rfl ha

/-! ## The statements -/

/-- Settles O8: past the check of `FAULT` the one write is that of `STATUS`, whose layout gives its fields. -/
theorem raiseFaultWritesStatusAlone : Obligations.RaiseFaultWritesStatusAlone := fun code s hf =>
  ⟨statusAfterFault code s.status, raiseFault_of_unfaulted code s hf, statusFaulted_statusAfterFault code s.status⟩

/-- Settles O9: each of the commands stands behind the gate. -/
theorem everyCommandIgnoredWhileFaulted : Obligations.EveryCommandIgnoredWhileFaulted := fun i _ hf =>
  exec_of_faulted hf i

/-- Settles O10: the step takes the access off the list, and the access meets the fault state. -/
theorem onlyResetLeavesTheFaultState : Obligations.OnlyResetLeavesTheFaultState := by
  intro s t a rest hf hpending ha hstep
  rw [step_of_pending_cons hpending] at hstep
  exact sameButHostSide_of_faulted (s := { s with pending := rest }) hf ha hstep

/-- Settles O11: an access that ends faulted has raised a fault, and a fault raised writes `STATUS` alone. -/
theorem faultsArePrecise : Obligations.FaultsArePrecise := by
  intro a s t hs haccess ht
  obtain ⟨code, rfl⟩ := (effect_of_hostAccess haccess).exists_eq_raiseFault hs ht
  rw [raiseFault_of_unfaulted code s hs]

end Sys2Proof.Machine
end

section
/-!
Reset (70_reset_and_hazards.md R240): the values of R43 do not depend on the parameters, and the reset input gives them in
every state, a faulted one too.
-/

namespace Sys2Proof.Machine

open Sys2Proof

theorem hasResetTable_resetWith (p : Params) : HasResetTable (State.resetWith p) := by
  unfold HasResetTable
  simp

/-- `resetBlock` keeps the parameters, the pending accesses and the host side alone, and R43's table names none of them. -/
theorem hasResetTable_resetBlock (s : State) : HasResetTable (resetBlock s) := hasResetTable_resetWith s.params

/-- Reset is applied in every state: it does not stand behind the check of `FAULT` (R219, R241). -/
theorem hostAccess_reset (s : State) : hostAccess .reset s = .next (resetBlock s) := rfl

/-- Settles O53: the access is `resetBlock`, and both reset states have the values of R43. -/
theorem resetGivesTheTableOfR43 : Obligations.ResetGivesTheTableOfR43 :=
  ⟨fun s => ⟨resetBlock s, hostAccess_reset s, hasResetTable_resetBlock s⟩, hasResetTable_resetWith Params.default⟩

end Sys2Proof.Machine
end
